-- ==== Sys2Proof/Word.lean ====
section
/-! DEFINITION. The word types of the bus master (00_scope.md R7, R9). -/

namespace Sys2Proof

/-- A bit, a line level or a sampled value: `false` is 0, `true` is 1 (R9). -/
abbrev Bit := Bool

/-- The 8-bit byte of every shift, `W = 8` (R6, R7, R9). -/
abbrev Byte := BitVec 8

/-- A 16-bit request word (R70). -/
abbrev Word16 := BitVec 16

end Sys2Proof
end

