-- ==== Sys2Proof/Config.lean ====
section
/-! DEFINITION. The parameters of the block (00_scope.md R6, 10_state.md R36) and the free values.

A parameter marked OPEN in R6 has no value in the spec: here it is an opaque constant, about which nothing can be
proved (log entry 2). The free values stand for what the spec leaves to the environment (R11, log entries 1, 5, 17). -/

namespace Sys2Proof

/-- `I2C_ADDR_FORM` (R6, R173): the form of the host's device byte. -/
inductive AddrForm where
  | raw8
  | shift7
deriving DecidableEq, Repr, Inhabited

/-- `ALEN_CODING` (R6, R81): the coding of the address-length byte. -/
inductive AlenCoding where
  | binary
  | ascii
deriving DecidableEq, Repr, Inhabited

/-- One bit of one GPIO port (R36, R211). -/
structure Pin where
  port : Nat
  bit : Nat
deriving DecidableEq, Repr, Inhabited

/-- `LINE_MAP` (R6, R36): the pin of each of the six bus lines. -/
structure LineMap where
  scl : Pin
  sda : Pin
  cs : Pin
  sck : Pin
  mosi : Pin
  miso : Pin
deriving DecidableEq, Repr, Inhabited

/-- The pins of the six lines, in the order R36 names them. -/
def LineMap.pins (m : LineMap) : List Pin :=
  [m.scl, m.sda, m.cs, m.sck, m.mosi, m.miso]

/-- R36, R224 step 1: the map is injective and shares no bit with a task pin. -/
def LineMap.ok (m : LineMap) (taskPins : List Pin) : Bool :=
  decide m.pins.Nodup && m.pins.all (fun p => !(taskPins.contains p))

/-- Which pins are whose: the lines' and the task outputs', with R36's constraint (D14), so that no machine has a map
that breaks it. The default values only show that such pins exist; no machine is given them. -/
structure PinAssignment where
  /-- `LINE_MAP` (OPEN, R36). -/
  lineMap : LineMap := ⟨⟨0, 0⟩, ⟨0, 1⟩, ⟨0, 2⟩, ⟨0, 3⟩, ⟨0, 4⟩, ⟨0, 5⟩⟩
  /-- The pins the task outputs own (R13, R36); which ones is not the block's to say. -/
  taskPins : List Pin := []
  /-- R36: injective, and disjoint from the task pins. -/
  ok : lineMap.ok taskPins = true := by decide
deriving DecidableEq, Repr, Inhabited

/-- The named parameters of R6, fixed per machine (R2). -/
structure Params where
  /-- `I2C_SCL_WAIT` (OPEN, C5): every release of SCL waits for SCL to read 1 (R104). -/
  sclWait : Bool
  /-- `CS_ACTIVE_LOW` (R25). -/
  csActiveLow : Bool
  /-- `I2C_ADDR_FORM` (R173). -/
  addrForm : AddrForm
  /-- `ALEN_CODING` (R81). -/
  alenCoding : AlenCoding
  /-- `SPI_OP_WREN`, the write-enable opcode. -/
  opWren : Byte
  /-- `SPI_OP_PP`, the page-program opcode. -/
  opPp : Byte
  /-- `SPI_OP_RDSR`, the read-status opcode. -/
  opRdsr : Byte
  /-- `SPI_OP_READ`, the read opcode. -/
  opRead : Byte
  /-- `SPI_BUSY_MASK` (R180). -/
  busyMask : Byte
  /-- `T_I2C`, `T_SPI`, `T_SETTLE` (OPEN): nominal durations in one common unit (R235). -/
  tI2c : Nat
  tSpi : Nat
  tSettle : Nat
  /-- `LINE_MAP` (OPEN) and the task pins, as R36 constrains them. -/
  pins : PinAssignment
deriving DecidableEq, Repr

namespace Config

/-- `I2C_SCL_WAIT` has no value in the spec (R6, C5, D8). -/
opaque i2cSclWait : Bool

/-- `T_I2C` has no value in the spec (R6, D15). -/
opaque tI2c : Nat

/-- `T_SPI` has no value in the spec (R6, D15). -/
opaque tSpi : Nat

/-- `T_SETTLE` has no value in the spec (R6, D15). -/
opaque tSettle : Nat

/-- `LINE_MAP` and the task pins' places have no value in the spec (R5, R6, D14); R36's constraint is all that is
known of them. -/
opaque pins : PinAssignment

/-- The level the devices and the pull-up give at a sample that no listed input covers (R11, R26): a free value,
indexed by `env.draws`. -/
opaque freeSample : Nat → Bit

/-- Whether the transmitter is free at a poll that no listed input covers (R171, R204): a free value. -/
opaque freeTxReady : Nat → Bool

/-- A byte the spec leaves unspecified after a reset (R40, I12): a free value. -/
opaque freeByte : Nat → Byte

/-- A bit counter the spec leaves unspecified after a reset (R40, I12): a free value. -/
opaque freeCount : Nat → Fin 9

/-- A bit the spec leaves unspecified after a reset (R40, I12): a free value. -/
opaque freeBit : Nat → Bit

/-- The parameters with the values R6 gives, the OPEN ones opaque. -/
def params : Params where
  sclWait := i2cSclWait
  csActiveLow := true
  addrForm := .raw8
  alenCoding := .binary
  opWren := 0x06
  opPp := 0x02
  opRdsr := 0x05
  opRead := 0x03
  busyMask := 0x01
  tI2c := tI2c
  tSpi := tSpi
  tSettle := tSettle
  pins := pins

/-- The host link of R6, recorded for completeness: 9600 baud (outside the block). -/
def hostBaud : Nat := 9600

/-- Bit times of one host byte: start bit, 8 data bits, stop bit, no parity (R235). -/
def hostBitsPerByte : Nat := 1 + 8 + 1

end Config

end Sys2Proof
end

