-- ==== Sys2Proof/Syntax.lean ====
section
/-! DEFINITION. The instructions: one constructor per row of the opcode table (30_encoding.md R71, R72, R78, R79). -/

namespace Sys2Proof

/-- The eight requests of the block and the four host commands of the caller.
The host commands carry the header fields that R174 reads before the first request; their payload is no operand. -/
inductive Instr where
  /-- `I2C.START` (R106), also the repeated start. -/
  | i2cStart
  /-- `I2C.STOP` (R107). -/
  | i2cStop
  /-- `I2C.WRITE b` (R108). -/
  | i2cWrite (b : Byte)
  /-- `I2C.READ ACK` (`true`) or `I2C.READ NACK` (`false`) (R109). -/
  | i2cRead (sendAck : Bool)
  /-- `SPI.CSA` (R142). -/
  | spiCsa
  /-- `SPI.CSD` (R143). -/
  | spiCsd
  /-- `SPI.WRITE b` (R144). -/
  | spiWrite (b : Byte)
  /-- `SPI.READ` (R145). -/
  | spiRead
  /-- `HOST.I2C_READ`: `'I' 'R' alen D AH AL N` (R78, R175). -/
  | hostI2cRead (alen d ah al n : Byte)
  /-- `HOST.I2C_WRITE`: `'I' 'W' alen D AH AL N`, then `N` payload bytes (R78, R176). -/
  | hostI2cWrite (alen d ah al n : Byte)
  /-- `HOST.SPI_READ`: `'P' 'R' AH AL N` (R79, R181). -/
  | hostSpiRead (ah al n : Byte)
  /-- `HOST.SPI_WRITE`: `'P' 'W' AH AL N`, then `N` payload bytes (R79, R179). -/
  | hostSpiWrite (ah al n : Byte)
deriving DecidableEq, Repr

end Sys2Proof
end

