-- ==== Sys2Proof/Decode.lean ====
section
/-! DEFINITION. Decoding of request words and host commands (30_encoding.md R70 to R82), and the encoder. -/

namespace Sys2Proof

/-- Why a decoder rejects its input. -/
inductive DecodeError where
  /-- The request word is ILLEGAL (R76, R77). -/
  | illegalRequest (w : Word16)
  /-- The host command is shorter than its header (R80). -/
  | truncatedCommand
  /-- The first host byte is neither `'I'` nor `'P'` (R5, R78, R79). -/
  | unknownCommand (b : Byte)
  /-- The operation byte is neither `'R'` nor `'W'` (R78, R79, R81). -/
  | unknownOperation (b : Byte)
deriving DecidableEq, Repr

/-- What carries an instruction: the request input of the block (R29) or the host channel of the caller (R171). -/
inductive Code where
  | request (w : Word16)
  | host (bytes : List Byte)
deriving DecidableEq, Repr

/-- `REQ[15:12]` (R70). -/
def engField (w : Word16) : BitVec 4 := w.extractLsb' 12 4

/-- `REQ[11:8]` (R70). -/
def opField (w : Word16) : BitVec 4 := w.extractLsb' 8 4

/-- `REQ[7:0]` (R70). -/
def dataField (w : Word16) : Byte := w.extractLsb' 0 8

/-- R82: the ASCII values of the command characters. -/
def chI : Byte := 0x49#8
def chP : Byte := 0x50#8
def chR : Byte := 0x52#8
def chW : Byte := 0x57#8
def chK : Byte := 0x4B#8

/-- Decoding of a request word, total on all 65536 words (R76). -/
def decodeRequest (w : Word16) : Except DecodeError Instr :=
  let eng := engField w
  let op := opField w
  let d := dataField w
  if eng = 0x1#4 ∧ op = 0x0#4 ∧ d = 0x00#8 then .ok .i2cStart
  else if eng = 0x1#4 ∧ op = 0x1#4 ∧ d = 0x00#8 then .ok .i2cStop
  else if eng = 0x1#4 ∧ op = 0x2#4 then .ok (.i2cWrite d)
  else if eng = 0x1#4 ∧ op = 0x3#4 ∧ d.extractLsb' 1 7 = 0#7 then .ok (.i2cRead (d.getLsbD 0))
  else if eng = 0x2#4 ∧ op = 0x0#4 ∧ d = 0x00#8 then .ok .spiCsa
  else if eng = 0x2#4 ∧ op = 0x1#4 ∧ d = 0x00#8 then .ok .spiCsd
  else if eng = 0x2#4 ∧ op = 0x2#4 then .ok (.spiWrite d)
  else if eng = 0x2#4 ∧ op = 0x3#4 ∧ d = 0x00#8 then .ok .spiRead
  else .error (.illegalRequest w)

/-- Decoding of an `'I'` command after its first byte (R78). -/
def decodeI2cCommand : List Byte → Except DecodeError Instr
  | [] => .error .truncatedCommand
  | o :: rest =>
    if o = chR then
      match rest with
      | alen :: d :: ah :: al :: n :: _ => .ok (.hostI2cRead alen d ah al n)
      | _ => .error .truncatedCommand
    else if o = chW then
      match rest with
      | alen :: d :: ah :: al :: n :: _ => .ok (.hostI2cWrite alen d ah al n)
      | _ => .error .truncatedCommand
    else .error (.unknownOperation o)

/-- Decoding of a `'P'` command after its first byte (R79). -/
def decodeSpiCommand : List Byte → Except DecodeError Instr
  | [] => .error .truncatedCommand
  | o :: rest =>
    if o = chR then
      match rest with
      | ah :: al :: n :: _ => .ok (.hostSpiRead ah al n)
      | _ => .error .truncatedCommand
    else if o = chW then
      match rest with
      | ah :: al :: n :: _ => .ok (.hostSpiWrite ah al n)
      | _ => .error .truncatedCommand
    else .error (.unknownOperation o)

/-- Decoding of a host command's header (R78, R79). What follows the header, the payload of a `'W'` command, is left
for HostRead (R174). Field values are not judged here: R172 refuses them in the meaning. -/
def decodeHost : List Byte → Except DecodeError Instr
  | [] => .error .truncatedCommand
  | c :: rest =>
    if c = chI then decodeI2cCommand rest
    else if c = chP then decodeSpiCommand rest
    else .error (.unknownCommand c)

/-- Decoding on either carrier. -/
def decode : Code → Except DecodeError Instr
  | .request w => decodeRequest w
  | .host bs => decodeHost bs

/-- The request word `ENG ++ OP ++ DATA` (R70). -/
def mkWord (eng op : BitVec 4) (d : Byte) : Word16 := eng ++ op ++ d

/-- The encoding of an instruction: the word of R71 and R72, or the header bytes of R78 and R79. -/
def encode : Instr → Code
  | .i2cStart => .request (mkWord 0x1 0x0 0x00)
  | .i2cStop => .request (mkWord 0x1 0x1 0x00)
  | .i2cWrite b => .request (mkWord 0x1 0x2 b)
  | .i2cRead a => .request (mkWord 0x1 0x3 (if a then 0x01 else 0x00))
  | .spiCsa => .request (mkWord 0x2 0x0 0x00)
  | .spiCsd => .request (mkWord 0x2 0x1 0x00)
  | .spiWrite b => .request (mkWord 0x2 0x2 b)
  | .spiRead => .request (mkWord 0x2 0x3 0x00)
  | .hostI2cRead alen d ah al n => .host [chI, chR, alen, d, ah, al, n]
  | .hostI2cWrite alen d ah al n => .host [chI, chW, alen, d, ah, al, n]
  | .hostSpiRead ah al n => .host [chP, chR, ah, al, n]
  | .hostSpiWrite ah al n => .host [chP, chW, ah, al, n]

/-- The number of address bytes an address-length byte asks for, under `ALEN_CODING` (R81): 1 or 2, or none for a
byte that R172 refuses. -/
def addressLength (c : AlenCoding) (alen : Byte) : Option Nat :=
  match c with
  | .binary => if alen = 0x01#8 then some 1 else if alen = 0x02#8 then some 2 else none
  | .ascii => if alen = 0x31#8 then some 1 else if alen = 0x32#8 then some 2 else none

/-- R78, R81: the address-length is one of the two values. -/
def alenOk (c : AlenCoding) (alen : Byte) : Bool := (addressLength c alen).isSome

/-- R81, D19: `N` ranges over 1 to 255. -/
def lengthOk (n : Byte) : Bool := decide (n ≠ 0#8)

/-- Length in bytes of a host command with its payload (R80), and of a request word. -/
def commandLength : Instr → Nat
  | .hostI2cRead .. => 7
  | .hostI2cWrite _ _ _ _ n => 7 + n.toNat
  | .hostSpiRead .. => 5
  | .hostSpiWrite _ _ n => 5 + n.toNat
  | .i2cStart | .i2cStop | .i2cWrite _ | .i2cRead _ => 2
  | .spiCsa | .spiCsd | .spiWrite _ | .spiRead => 2

/-- The longest header a host command has, in bytes (R78). -/
def maxHeader : Nat := 7

/-- The bytes of a word sequence numbered as the opcode table numbers it: 16-bit words, the first word in bits 15 to 0,
each word's high byte first (the table's note on the host rows). -/
def tableBytes : Nat → Nat → List Byte
  | 0, _ => []
  | k + 1, w => BitVec.ofNat 8 (w / 256) :: BitVec.ofNat 8 w :: tableBytes k (w / 65536)

/-- The bits of `w` below `nbits`. -/
def tableBits (nbits w : Nat) : Nat := w % 2 ^ nbits

/-- The host bytes that stand for a table word: as many as the longest header, the bits above `nbits` zero. -/
def tableHostBytes (nbits w : Nat) : List Byte := (tableBytes 4 (tableBits nbits w)).take maxHeader

/-- The request word that stands for a table word. -/
def tableRequest (nbits w : Nat) : Word16 := BitVec.ofNat 16 (tableBits nbits w)

/-- A table word is a host command's when it is no request's and its first two bytes are a host opcode's; the two
code spaces do not meet, since `ENG` 4 and 5 are ILLEGAL (R77, R82). -/
def tableHostInstr (nbits w : Nat) : Option Instr :=
  match decodeRequest (tableRequest nbits w) with
  | .ok _ => none
  | .error _ =>
    match decodeHost (tableHostBytes nbits w) with
    | .ok i => some i
    | .error _ => none

/-- The instruction the decoder reads from an instruction whose bits are `w`, numbered as the opcode table numbers
them. -/
def decodeTableWord (nbits w : Nat) : Option Instr :=
  match decodeRequest (tableRequest nbits w) with
  | .ok i => some i
  | .error _ => tableHostInstr nbits w

end Sys2Proof
end

