-- ==== Sys2Proof/Machine/State.lean ====
section
/-! DEFINITION. The state of the block, its caller and its inputs (10_state.md R20 to R41, 45_bridges.md R170, R171). -/

namespace Sys2Proof.Machine

/-- The master's output on an I2C line: there is no third value (R20). -/
inductive Drive where
  | low
  | rel
deriving DecidableEq, Repr, Inhabited

/-- The logical value of chip-select (R25). -/
inductive CsState where
  | asserted
  | deasserted
deriving DecidableEq, Repr, Inhabited

/-- The two open-drain lines of the I2C engine (R20). -/
inductive I2cLine where
  | scl
  | sda
deriving DecidableEq, Repr, Inhabited

/-- The three push-pull outputs of the SPI engine (R24). -/
inductive SpiOut where
  | cs
  | sck
  | mosi
deriving DecidableEq, Repr, Inhabited

/-- The lines a `SAMPLE` reads (R10). -/
inductive InputLine where
  | scl
  | sda
  | miso
deriving DecidableEq, Repr, Inhabited

/-- The named delays (R10). -/
inductive DelayKind where
  | i2c
  | spi
  | settle
deriving DecidableEq, Repr, Inhabited

/-- The eight requests, as the sequencer holds them (R28, R71, R72). -/
inductive Request where
  | i2cStart
  | i2cStop
  | i2cWrite (b : Byte)
  | i2cRead (sendAck : Bool)
  | spiCsa
  | spiCsd
  | spiWrite (b : Byte)
  | spiRead
deriving DecidableEq, Repr, Inhabited

/-- The reason of a fault: the block has one (R201, R202). -/
inductive FaultReason where
  | illegalRequest (w : Word16)
deriving DecidableEq, Repr, Inhabited

/-- R28: the sequencer phase; `k` is the index of the next micro-operation of the request's sequence (R33). -/
inductive Phase where
  | idle
  | busy (req : Request) (k : Nat)
deriving DecidableEq, Repr, Inhabited

/-- The events of the trace: micro-operations (R10), requests, responses, faults and resets (R12), and the caller's
steps on the host channel (R171). -/
inductive Event where
  | low (l : I2cLine)
  | rel (l : I2cLine)
  | set (l : SpiOut) (v : Bit)
  | delay (k : DelayKind)
  | sample (l : InputLine) (v : Bit)
  | req (w : Word16)
  | resp (v : Option Byte)
  | fault (r : FaultReason)
  | reset
  | hostIn (b : Byte)
  | hostOut (b : Byte)
deriving DecidableEq, Repr, Inhabited

/-- One remaining step of a bridge (R83, R170, R175 to R181). -/
inductive BridgeOp where
  /-- a request with a known operand; its response is discarded unless `capture` follows -/
  | request (r : Request)
  /-- `v <-` the response of the request before it -/
  | capture
  /-- `p <- HostRead()` -/
  | hostRead
  /-- `I2C.WRITE p` -/
  | i2cWriteP
  /-- `SPI.WRITE p` -/
  | spiWriteP
  /-- `HostWrite(v)` -/
  | hostWriteV
  /-- `HostWrite(b)` of a fixed byte -/
  | hostWriteByte (b : Byte)
  /-- `DELAY(SETTLE)`, a caller step (R176) -/
  | settle
  /-- the test at the end of a pass of the busy-poll (R180) -/
  | pollUntilReady
deriving DecidableEq, Repr, Inhabited

/-- What the caller does next when no bridge is in progress (R13 "Caller", R170). -/
inductive CallerStep where
  /-- issue one request word to the block (R29) -/
  | issue (w : Word16)
  /-- serve one host command (R171, R174) -/
  | serve
deriving DecidableEq, Repr, Inhabited

/-- The block's output lines (R20, R24, R25). `out[CS]` is computed from `cs` (R25; log entry 27). -/
structure Lines where
  scl : Drive
  sda : Drive
  cs : CsState
  sck : Bit
  mosi : Bit
deriving DecidableEq, Repr, Inhabited

/-- The engines' working values (R27). -/
structure Work where
  i2cSh : Byte
  i2cAcc : Byte
  i2cCnt : Fin 9
  spiSh : Byte
  spiAcc : Byte
  spiCnt : Fin 9
  /-- The MODEL's own: the pseudocode's local variable, the value the last `SAMPLE` returned (log entry 12). -/
  smp : Bit
deriving DecidableEq, Repr, Inhabited

/-- The caller's state (R170 to R181); none of it belongs to the block (R29, R170). -/
structure Caller where
  /-- header bytes of a host command read so far (R174) -/
  hdr : List Byte
  /-- remaining steps of the bridge in progress -/
  bridge : List BridgeOp
  /-- the response handed over when the last request completed (R29) -/
  resp : Option Byte
  /-- the caller variable `v` of R175 and R181, `s` of R180 -/
  v : Byte
  /-- the caller variable `p` of R176 and R179 -/
  p : Byte
  /-- what the caller does next; when empty it serves the host -/
  queue : List CallerStep
deriving DecidableEq, Repr, Inhabited

/-- The environment's inputs still to come, as plain data (R11, R171, R220; log entries 1, 7, 16, 17). -/
structure Env where
  /-- the level the devices and pull-up give at the next samples -/
  samples : List Bit
  /-- bytes the host has sent and nobody has read -/
  host : List Byte
  /-- whether the transmitter is free at the next polls of HostWrite -/
  tx : List Bool
  /-- the boundaries left before each coming hardware reset -/
  resets : List Nat
  /-- the MODEL's own: the index of the next free value -/
  draws : Nat
deriving DecidableEq, Repr, Inhabited

/-- The machine: the summary of R41, the parameters of R6, the caller and the inputs. -/
structure State where
  lines : Lines
  work : Work
  phase : Phase
  fault : Option FaultReason
  trace : List Event
  params : Params
  caller : Caller
  env : Env
deriving DecidableEq, Repr

/-- Why a run has no next step. -/
inductive Fault where
  /-- Raised by `step` while the fault mark is set and no reset is coming, and by every instruction's meaning while it
  is set: the block accepts nothing and the caller has no next step until reset (R203, R208). Safe: the model stops
  where the spec says the machine is stuck. -/
  | stuckUntilReset (r : FaultReason)
deriving DecidableEq, Repr

/-- Why the model gives something no meaning. -/
inductive Refusal where
  /-- Raised by `exec`'s arm of an instruction that has no meaning yet. Safe: nothing is claimed of it. -/
  | notModelled (mnemonic : String)
  /-- Raised by an instruction given while another request or bridge is in progress, which a blocking caller cannot
  do (R28, R203, I17). Safe: nothing is claimed of it. -/
  | callerBusy
  /-- Raised by a bridge whose operation byte is neither `'R'` nor `'W'` (R172, D18). Safe: the spec gives no meaning. -/
  | operationByte (b : Byte)
  /-- Raised by a bridge whose address-length is neither of the two values (R172, D17). Safe: the spec gives no
  meaning. -/
  | addressLengthByte (b : Byte)
  /-- Raised by a bridge whose length `N` is 0 (R172, D19). Safe: the spec gives no meaning. -/
  | zeroLength
  /-- Raised by a host byte that starts neither an `'I'` nor a `'P'` command: the Dispatcher's single-byte commands
  are out of scope (R5). Safe: nothing is claimed of them. -/
  | singleByteCommand (b : Byte)
deriving DecidableEq, Repr

/-- The lines after reset (R38, R39). -/
def Lines.reset : Lines where
  scl := .rel
  sda := .rel
  cs := .deasserted
  sck := false
  mosi := false

/-- The working values at power-on: unspecified (R40), zero by DESIGN CHOICE (log entry 4). -/
def Work.powerOn : Work where
  i2cSh := 0x00
  i2cAcc := 0x00
  i2cCnt := 0
  spiSh := 0x00
  spiAcc := 0x00
  spiCnt := 0
  smp := false

/-- The caller at power-on: nothing in progress (R223); its variables by DESIGN CHOICE (log entry 6). -/
def Caller.powerOn : Caller where
  hdr := []
  bridge := []
  resp := none
  v := 0x00
  p := 0x00
  queue := []

/-- No input listed: every sample is a free value, no byte has come, no reset is scheduled. -/
def Env.none : Env where
  samples := []
  host := []
  tx := []
  resets := []
  draws := 0

/-- The machine right after power-on (R38 to R41, R223). -/
def State.reset : State where
  lines := Lines.reset
  work := Work.powerOn
  phase := .idle
  fault := none
  trace := []
  params := Config.params
  caller := Caller.powerOn
  env := Env.none

end Sys2Proof.Machine
end

