-- ==== Sys2Proof/Machine/Operands.lean ====
section
/-! DEFINITION. Bytes, bits and operand forms (00_scope.md R9, 30_encoding.md R73, 45_bridges.md R173). -/

namespace Sys2Proof.Machine

/-- `zext_8(s)` (R9). -/
def zext8 (s : Bit) : Byte := if s then 0x01#8 else 0x00#8

/-- `b << 1`: bit 7 is discarded (R9). -/
def shl1 (b : Byte) : Byte := b <<< 1

/-- `b[7]`, the bit that goes on the wire next (R52). -/
def topBit (b : Byte) : Bit := b.getLsbD 7

/-- `(acc << 1) | zext_8(s)`: assembling a byte most significant bit first (R52, R109, R145). -/
def shiftIn (acc : Byte) (s : Bit) : Byte := shl1 acc ||| zext8 s

/-- The drive of SDA that sends one bit: driven low for 0, released for 1 (R108). -/
def driveOf (b : Bit) : Drive := if b then .rel else .low

/-- The I2C address byte of host byte `d` and direction `rw`, 1 for read (R173). -/
def addrByte (f : AddrForm) (d : Byte) (rw : Bit) : Byte :=
  match f with
  | .raw8 => (d &&& 0xFE#8) ||| zext8 rw
  | .shift7 => shl1 d ||| zext8 rw

/-- The constructor of `Instr` that a request is. -/
def Request.toInstr : Request → Instr
  | .i2cStart => .i2cStart
  | .i2cStop => .i2cStop
  | .i2cWrite b => .i2cWrite b
  | .i2cRead a => .i2cRead a
  | .spiCsa => .spiCsa
  | .spiCsd => .spiCsd
  | .spiWrite b => .spiWrite b
  | .spiRead => .spiRead

/-- The word a code carries; a host command has none. -/
def codeWord : Code → Word16
  | .request w => w
  | .host _ => 0

/-- The request's 16-bit word (R71, R72), as the trace records it (R12). -/
def requestWord (r : Request) : Word16 := codeWord (encode r.toInstr)

end Sys2Proof.Machine
end

