-- ==== Sys2Proof/Machine/Flags.lean ====
section
/-! DEFINITION. The two condition bits of the spec. The block has no flag register (10_state.md R34): the acknowledge
bit is a response value, the busy bit a bit of a device's status byte. -/

namespace Sys2Proof.Machine

/-- The acknowledge bit as a response byte: 0x00 ACK, 0x01 NACK (R74, R105, R108). -/
def ackResponse (a : Bit) : Byte := zext8 a

/-- The busy-poll's exit test: `(s & SPI_BUSY_MASK) = 0x00` (R180). -/
def statusReady (p : Params) (status : Byte) : Bool := (status &&& p.busyMask) == 0x00#8

end Sys2Proof.Machine
end

