-- ==== Sys2Proof/Machine/Ops.lean ====
section
/-! DEFINITION. The named operations over the lines, the trace, the inputs, the fault mark and reset
(00_scope.md R10 to R12, 10_state.md R20 to R31, 60_exceptions.md R201, 70_reset_and_hazards.md R220 to R222). -/

namespace Sys2Proof.Machine

/-! Single-field updates. -/

def State.setLines (s : State) (l : Lines) : State := { s with lines := l }

def State.setWork (s : State) (w : Work) : State := { s with work := w }

def State.setPhase (s : State) (p : Phase) : State := { s with phase := p }

def State.setFault (s : State) (f : Option FaultReason) : State := { s with fault := f }

def State.setCaller (s : State) (c : Caller) : State := { s with caller := c }

def State.setEnv (s : State) (e : Env) : State := { s with env := e }

/-- Append one event to the trace, oldest first; the trace is never shortened (R12, R31). -/
def State.log (s : State) (e : Event) : State := { s with trace := s.trace ++ [e] }

def State.setBridge (s : State) (b : List BridgeOp) : State := s.setCaller { s.caller with bridge := b }

def State.setHdr (s : State) (h : List Byte) : State := s.setCaller { s.caller with hdr := h }

def State.setQueue (s : State) (q : List CallerStep) : State := s.setCaller { s.caller with queue := q }

def State.setResp (s : State) (v : Option Byte) : State := s.setCaller { s.caller with resp := v }

def State.setHost (s : State) (bs : List Byte) : State := s.setEnv { s.env with host := bs }

/-! Lines. -/

/-- The master output of a line (R20). -/
def Lines.drive (l : Lines) : I2cLine → Drive
  | .scl => l.scl
  | .sda => l.sda

/-- `st.drv[l] <- d` (R10, R20). -/
def Lines.setDrive (l : Lines) (i : I2cLine) (d : Drive) : Lines :=
  match i with
  | .scl => { l with scl := d }
  | .sda => { l with sda := d }

/-- The physical level of CS for its logical value (R25). -/
def csLevel (p : Params) : CsState → Bit
  | .asserted => !p.csActiveLow
  | .deasserted => p.csActiveLow

/-- The logical value of CS for its physical level (R25). -/
def csOfLevel (p : Params) (v : Bit) : CsState :=
  if v = csLevel p .asserted then .asserted else .deasserted

/-- `st.out[l]` (R24, R25). -/
def Lines.out (l : Lines) (p : Params) : SpiOut → Bit
  | .cs => csLevel p l.cs
  | .sck => l.sck
  | .mosi => l.mosi

/-- `st.out[l] <- v` (R10, R24). -/
def Lines.setOut (l : Lines) (p : Params) (o : SpiOut) (v : Bit) : Lines :=
  match o with
  | .cs => { l with cs := csOfLevel p v }
  | .sck => { l with sck := v }
  | .mosi => { l with mosi := v }

/-- The wire value: the wired-AND of the master's output and the devices, a released line pulled to 1 (R21). -/
def wire (d : Drive) (device : Bit) : Bit :=
  match d with
  | .low => false
  | .rel => device

/-- The master view of a line (R23). -/
def masterView (d : Drive) : Bit :=
  match d with
  | .low => false
  | .rel => true

/-! Inputs. -/

/-- The environment's next level: the next listed one, or a free value (R11; log entry 1). -/
def Env.bit (e : Env) : Bit :=
  match e.samples with
  | b :: _ => b
  | [] => Config.freeSample e.draws

/-- The inputs after one level has been taken. -/
def Env.afterBit (e : Env) : Env :=
  match e.samples with
  | _ :: bs => { e with samples := bs }
  | [] => { e with draws := e.draws + 1 }

/-- Whether the transmitter is free at this poll: the next listed answer, or a free value (R171; log entry 17). -/
def Env.txReady (e : Env) : Bool :=
  match e.tx with
  | b :: _ => b
  | [] => Config.freeTxReady e.draws

/-- The inputs after one poll of the transmitter. -/
def Env.afterTx (e : Env) : Env :=
  match e.tx with
  | _ :: bs => { e with tx := bs }
  | [] => { e with draws := e.draws + 1 }

/-- A hardware reset comes at this boundary (R220; log entry 7). -/
def Env.resetDue (e : Env) : Bool :=
  match e.resets with
  | 0 :: _ => true
  | _ => false

/-- One boundary has passed. -/
def Env.countdown (e : Env) : Env :=
  match e.resets with
  | n :: r => { e with resets := (n - 1) :: r }
  | [] => e

def State.resetDue (s : State) : Bool := s.env.resetDue

def State.countdown (s : State) : State := s.setEnv s.env.countdown

/-! Micro-operations. -/

/-- `LOW(l)` and `REL(l)` (R10). -/
def State.driveLine (s : State) (l : I2cLine) (d : Drive) : State :=
  (s.setLines (s.lines.setDrive l d)).log (match d with | .low => .low l | .rel => .rel l)

/-- `SET(l, v)` (R10). -/
def State.setLine (s : State) (l : SpiOut) (v : Bit) : State :=
  (s.setLines (s.lines.setOut s.params l v)).log (.set l v)

/-- The value a `SAMPLE(l)` returns now: the wire value of an I2C line (R21, R22), the environment's for MISO (R26). -/
def State.sampleValue (s : State) : InputLine → Bit
  | .scl => wire s.lines.scl s.env.bit
  | .sda => wire s.lines.sda s.env.bit
  | .miso => s.env.bit

/-- `s <- SAMPLE(l)` (R10, R11). -/
def State.sample (s : State) (l : InputLine) : State :=
  ((s.setWork { s.work with smp := s.sampleValue l }).setEnv s.env.afterBit).log (.sample l (s.sampleValue l))

/-- The micro-operations of R10, and the two whose value is the engine's next shifted-out bit (R108, R144). -/
inductive MicroOp where
  | low (l : I2cLine)
  | rel (l : I2cLine)
  /-- `if st.i2c_sh[7] = 0 then LOW(SDA) else REL(SDA)` (R108) -/
  | sdaFromSh
  | set (l : SpiOut) (v : Bit)
  /-- `SET(MOSI, st.spi_sh[7])` (R144) -/
  | mosiFromSh
  | delay (k : DelayKind)
  | sample (l : InputLine)
  /-- one poll of `WAIT_HIGH(SCL)` (R104) -/
  | waitHigh
deriving DecidableEq, Repr

/-- The pseudocode's assignments to working values (R27, R108, R109, R144, R145). -/
inductive WorkOp where
  /-- `st.i2c_sh <- b` -/
  | i2cLoad (b : Byte)
  /-- `st.i2c_sh <- st.i2c_sh << 1` -/
  | i2cShift
  /-- `st.i2c_acc <- 0x00` -/
  | i2cAccClear
  /-- `st.i2c_acc <- (st.i2c_acc << 1) | zext_8(s)` -/
  | i2cAccIn
  /-- no bit done yet (`i2c_cnt`, R27) -/
  | i2cCntClear
  /-- one more bit done -/
  | i2cBitDone
  /-- `st.spi_sh <- b` -/
  | spiLoad (b : Byte)
  /-- `st.spi_sh <- st.spi_sh << 1` -/
  | spiShift
  /-- `st.spi_acc <- 0x00` -/
  | spiAccClear
  /-- `st.spi_acc <- (st.spi_acc << 1) | zext_8(s)` -/
  | spiAccIn
  /-- no bit done yet (`spi_cnt`, R27) -/
  | spiCntClear
  /-- one more bit done -/
  | spiBitDone
deriving DecidableEq, Repr

/-- One micro-operation with the assignments its rule writes after it. -/
structure Micro where
  op : MicroOp
  after : List WorkOp
deriving DecidableEq, Repr

/-- One assignment (R27). -/
def Work.apply (w : Work) : WorkOp → Work
  | .i2cLoad b => { w with i2cSh := b }
  | .i2cShift => { w with i2cSh := shl1 w.i2cSh }
  | .i2cAccClear => { w with i2cAcc := 0x00 }
  | .i2cAccIn => { w with i2cAcc := shiftIn w.i2cAcc w.smp }
  | .i2cCntClear => { w with i2cCnt := 0 }
  | .i2cBitDone => { w with i2cCnt := w.i2cCnt + 1 }
  | .spiLoad b => { w with spiSh := b }
  | .spiShift => { w with spiSh := shl1 w.spiSh }
  | .spiAccClear => { w with spiAcc := 0x00 }
  | .spiAccIn => { w with spiAcc := shiftIn w.spiAcc w.smp }
  | .spiCntClear => { w with spiCnt := 0 }
  | .spiBitDone => { w with spiCnt := w.spiCnt + 1 }

/-- Assignments in order. -/
def State.assign (s : State) (ws : List WorkOp) : State := s.setWork (ws.foldl Work.apply s.work)

/-- One micro-operation: its effect and its event (R10). -/
def State.perform (s : State) : MicroOp → State
  | .low l => s.driveLine l .low
  | .rel l => s.driveLine l .rel
  | .sdaFromSh => s.driveLine .sda (driveOf (topBit s.work.i2cSh))
  | .set l v => s.setLine l v
  | .mosiFromSh => s.setLine .mosi (topBit s.work.spiSh)
  | .delay k => s.log (.delay k)
  | .sample l => s.sample l
  | .waitHigh => s.sample .scl

/-- After the micro-operation was performed: must it be performed again? Only a poll of `WAIT_HIGH` that read 0
(R104). -/
def MicroOp.repeats (op : MicroOp) (s : State) : Bool :=
  match op with
  | .waitHigh => !s.work.smp
  | _ => false

/-! The fault and reset. -/

/-- Raising `IllegalRequest(w)` (R201, R207): the mark is set and the event recorded; nothing else changes. -/
def State.raiseIllegal (s : State) (w : Word16) : State :=
  (s.setFault (some (.illegalRequest w))).log (.fault (.illegalRequest w))

/-- The cause code of a fault (R202). -/
def FaultReason.code : FaultReason → Nat
  | .illegalRequest _ => 1

/-- Working values nobody fixes after a reset (R40, I12; log entry 5). -/
def Work.unspecified (d : Nat) : Work where
  i2cSh := Config.freeByte d
  i2cAcc := Config.freeByte (d + 1)
  i2cCnt := Config.freeCount d
  spiSh := Config.freeByte (d + 2)
  spiAcc := Config.freeByte (d + 3)
  spiCnt := Config.freeCount (d + 1)
  smp := Config.freeBit d

/-- The caller after a hardware reset: no command or bridge is in progress (R185, R208, R223); its variables are
unspecified; what it will be asked to do next is the outside's and stays (log entries 5, 21). -/
def Caller.afterReset (c : Caller) (d : Nat) : Caller where
  hdr := []
  bridge := []
  resp := none
  v := Config.freeByte (d + 4)
  p := Config.freeByte (d + 5)
  queue := c.queue

/-- How many free values a reset takes. -/
def resetDraws : Nat := 6

/-- The inputs after the scheduled reset has come. -/
def Env.afterReset (e : Env) : Env := { e with resets := e.resets.tail, draws := e.draws + resetDraws }

/-- A hardware reset, in one indivisible step (R221, R222): no micro-operation, no response, the trace kept. -/
def State.hardwareReset (s : State) : State where
  lines := Lines.reset
  work := Work.unspecified s.env.draws
  phase := .idle
  fault := none
  trace := s.trace ++ [.reset]
  params := s.params
  caller := s.caller.afterReset s.env.draws
  env := s.env.afterReset

end Sys2Proof.Machine
end

