-- ==== Sys2Proof/Machine/Sequences.lean ====
section
/-! DEFINITION. The micro-operation sequence of each request (40_i2c_master.md R104 to R109, 41_spi_master.md R142 to
R145), and what each assigns before its first micro-operation and answers after its last (30_encoding.md R74). -/

namespace Sys2Proof.Machine

/-- A micro-operation with no assignment after it. -/
def op (o : MicroOp) : Micro := ⟨o, []⟩

/-- `DELAY(I2C)`, followed by assignments. -/
def dI2c (ws : List WorkOp) : Micro := ⟨.delay .i2c, ws⟩

/-- `DELAY(SPI)`. -/
def dSpi : Micro := op (.delay .spi)

/-- `SCL_UP` (R104). -/
def sclUp (p : Params) : List Micro :=
  if p.sclWait then [op (.rel .scl), op .waitHigh] else [op (.rel .scl)]

/-- `LOW(SCL); DELAY(I2C)`, then assignments. -/
def sclDown (ws : List WorkOp) : List Micro := [op (.low .scl), dI2c ws]

/-- `I2C.START` (R106): SDA is released first (D5). -/
def i2cStartSeq (p : Params) : List Micro :=
  [op (.rel .sda)] ++ sclUp p ++ [dI2c [], op (.low .sda), dI2c []] ++ sclDown []

/-- `I2C.STOP` (R107). -/
def i2cStopSeq (p : Params) : List Micro :=
  [op (.low .sda), dI2c []] ++ sclUp p ++ [dI2c [], op (.rel .sda), dI2c []]

/-- One pass of `I2C.WRITE`'s loop (R108). -/
def i2cWriteBit (p : Params) : List Micro :=
  [op .sdaFromSh, dI2c []] ++ sclUp p ++ [dI2c []] ++ sclDown [.i2cShift, .i2cBitDone]

/-- The acknowledge clock of `I2C.WRITE`: hand SDA to the device and sample it (R102, R108). -/
def i2cWriteAck (p : Params) : List Micro :=
  [op (.rel .sda), dI2c []] ++ sclUp p ++ [op (.sample .sda), dI2c []] ++ sclDown []

/-- `I2C.WRITE b` (R108). -/
def i2cWriteSeq (p : Params) : List Micro :=
  (List.replicate 8 (i2cWriteBit p)).flatten ++ i2cWriteAck p

/-- One pass of `I2C.READ`'s loop (R109): the sample stands right after `SCL_UP` (R102). -/
def i2cReadBit (p : Params) : List Micro :=
  sclUp p ++ [op (.sample .sda), dI2c [.i2cAccIn]] ++ sclDown [.i2cBitDone]

/-- The acknowledge step of `I2C.READ`: SDA low for ACK, released for NACK (R109). -/
def i2cReadAck (p : Params) (sendAck : Bool) : List Micro :=
  [op (if sendAck then .low .sda else .rel .sda), dI2c []] ++ sclUp p ++ [dI2c []] ++ sclDown []

/-- `I2C.READ ACK|NACK` (R109). -/
def i2cReadSeq (p : Params) (sendAck : Bool) : List Micro :=
  [op (.rel .sda), dI2c [.i2cAccClear]] ++ (List.replicate 8 (i2cReadBit p)).flatten ++ i2cReadAck p sendAck

/-- `SPI.CSA` (R142): no delay before or after (D9). -/
def spiCsaSeq (p : Params) : List Micro := [op (.set .cs (csLevel p .asserted))]

/-- `SPI.CSD` (R143). -/
def spiCsdSeq (p : Params) : List Micro := [op (.set .cs (csLevel p .deasserted))]

/-- One pass of `SPI.WRITE`'s loop (R144): no delay after the fall. -/
def spiWriteBit : List Micro :=
  [op .mosiFromSh, dSpi, op (.set .sck true), dSpi, ⟨.set .sck false, [.spiShift, .spiBitDone]⟩]

/-- `SPI.WRITE b` (R144). -/
def spiWriteSeq : List Micro := (List.replicate 8 spiWriteBit).flatten

/-- One pass of `SPI.READ`'s loop (R145). -/
def spiReadBit : List Micro :=
  [dSpi, op (.set .sck true), dSpi, ⟨.sample .miso, [.spiAccIn]⟩, ⟨.set .sck false, [.spiBitDone]⟩]

/-- `SPI.READ` (R145). -/
def spiReadSeq : List Micro := (List.replicate 8 spiReadBit).flatten

/-- The sequence a request's rule gives (R8, R28). -/
def microSeq (p : Params) : Request → List Micro
  | .i2cStart => i2cStartSeq p
  | .i2cStop => i2cStopSeq p
  | .i2cWrite _ => i2cWriteSeq p
  | .i2cRead a => i2cReadSeq p a
  | .spiCsa => spiCsaSeq p
  | .spiCsd => spiCsdSeq p
  | .spiWrite _ => spiWriteSeq
  | .spiRead => spiReadSeq

/-- The assignments before the first micro-operation (R108, R144, R145; log entry 11 for the counters). -/
def initialWork : Request → List WorkOp
  | .i2cStart => []
  | .i2cStop => []
  | .i2cWrite b => [.i2cLoad b, .i2cCntClear]
  | .i2cRead _ => [.i2cCntClear]
  | .spiCsa => []
  | .spiCsd => []
  | .spiWrite b => [.spiLoad b, .spiCntClear]
  | .spiRead => [.spiAccClear, .spiCntClear]

/-- The response of a completed request (R74). -/
def response (r : Request) (w : Work) : Option Byte :=
  match r with
  | .i2cStart => none
  | .i2cStop => none
  | .i2cWrite _ => some (ackResponse w.smp)
  | .i2cRead _ => some w.i2cAcc
  | .spiCsa => none
  | .spiCsd => none
  | .spiWrite _ => none
  | .spiRead => some w.spiAcc

end Sys2Proof.Machine
end

