-- ==== Sys2Proof/Machine/Sequencer.lean ====
section
/-! DEFINITION. The sequencer: accepting a request, performing its micro-operations in order, completing it
(10_state.md R28, R29, R33; 20_memory.md R57, R61; 60_exceptions.md R203; 70_reset_and_hazards.md R220). -/

namespace Sys2Proof.Machine

/-- How a piece of work ends: done, or paused (it waits for the environment, or a reset came). -/
inductive Run where
  | finished (s : State)
  | paused (s : State)
deriving DecidableEq, Repr

/-- The state a piece of work leaves. -/
def Run.state : Run → State
  | .finished s => s
  | .paused s => s

/-- The index of the next micro-operation advances by one (R33). -/
def Phase.advance : Phase → Phase
  | .idle => .idle
  | .busy r k => .busy r (k + 1)

/-- Accepting a request in `IDLE` (R12, R28): the event, the phase at its first micro-operation, the assignments its
rule writes before that. -/
def State.accept (s : State) (r : Request) : State :=
  ((s.log (.req (requestWord r))).setPhase (.busy r 0)).assign (initialWork r)

/-- Completing a request (R28, R74, R75): the response is recorded and handed to the caller, the phase is `IDLE`. -/
def State.complete (s : State) (r : Request) : State :=
  ((s.log (.resp (response r s.work))).setPhase .idle).setResp (response r s.work)

/-- Performing the rest of a request's sequence. Before each micro-operation a hardware reset may come (R220), which
ends the request with no response (R221). A poll of `WAIT_HIGH` that reads 0 pauses the run with the index where it
was; the next step polls again, without bound (R104, R204). -/
def runMicros (r : Request) : List Micro → State → Run
  | [], s => .finished (s.complete r)
  | m :: ms, s =>
    if s.resetDue then .paused s.hardwareReset
    else
      let t := s.countdown.perform m.op
      if m.op.repeats t then .paused t
      else runMicros r ms ((t.assign m.after).setPhase t.phase.advance)

/-- A whole request, from acceptance (R8). -/
def runRequest (r : Request) (s : State) : Run := runMicros r (microSeq s.params r) (s.accept r)

/-- A request already in progress, from its `k`th micro-operation (R28). -/
def resumeRequest (r : Request) (k : Nat) (s : State) : Run := runMicros r ((microSeq s.params r).drop k) s

/-- Acceptance (R203): with the fault mark set the caller is stuck; while a request is in progress none can arrive
(R28, I17). -/
def whenAccepting (s : State) (busy : Bool) (t : State) : Host.Outcome State Fault Refusal :=
  match s.fault with
  | some f => .fault (.stuckUntilReset f)
  | none =>
    match s.phase with
    | .busy _ _ => .refused .callerBusy
    | .idle => if busy then .refused .callerBusy else .next t

/-- The meaning the eight requests share: the block performs the request if it accepts it (R203). The block knows
nothing of a bridge (R170). -/
def issue (r : Request) (s : State) : Host.Outcome State Fault Refusal :=
  whenAccepting s false (runRequest r s).state

end Sys2Proof.Machine
end

