-- ==== Sys2Proof/Machine/Bridges.lean ====
section
/-! DEFINITION. The caller's bridge sequences and the meanings of the four host commands (45_bridges.md R170 to R185,
30_encoding.md R84). -/

namespace Sys2Proof.Machine

/-! Pseudo-instructions (R84). -/

/-- `I2C.RSTART`: a repeated start is the same operation as a start. -/
def rstart : Request := .i2cStart

/-- `I2C.ADDR D, rw`. -/
def i2cAddr (p : Params) (d : Byte) (rw : Bit) : Request := .i2cWrite (addrByte p.addrForm d rw)

/-- `SPI.XFER_CMD op`. -/
def xferCmd (o : Byte) : List BridgeOp := [.request .spiCsa, .request (.spiWrite o), .request .spiCsd]

/-! The sequences (R175 to R181). -/

/-- The address bytes on the I2C bus: the high byte only with 2-byte addressing, then the low byte (R53, R175). -/
def i2cAddressOps (alen : Nat) (ah al : Byte) : List BridgeOp :=
  if alen = 2 then [.request (.i2cWrite ah), .request (.i2cWrite al)] else [.request (.i2cWrite al)]

/-- `for j in 1 .. N: v <- I2C.READ (if j < N then ACK else NACK); HostWrite(v)` (R175). -/
def i2cReadLoop : Nat → List BridgeOp
  | 0 => []
  | n + 1 => [.request (.i2cRead (n != 0)), .capture, .hostWriteV] ++ i2cReadLoop n

/-- `for j in 1 .. N: p <- HostRead(); I2C.WRITE p` (R176). -/
def i2cWriteLoop : Nat → List BridgeOp
  | 0 => []
  | n + 1 => [.hostRead, .i2cWriteP] ++ i2cWriteLoop n

/-- `for j in 1 .. N: p <- HostRead(); SPI.WRITE p` (R179). -/
def spiWriteLoop : Nat → List BridgeOp
  | 0 => []
  | n + 1 => [.hostRead, .spiWriteP] ++ spiWriteLoop n

/-- `for j in 1 .. N: v <- SPI.READ; HostWrite(v)` (R181). -/
def spiReadLoop : Nat → List BridgeOp
  | 0 => []
  | n + 1 => [.request .spiRead, .capture, .hostWriteV] ++ spiReadLoop n

/-- `BR.I2C_READ` (R175). -/
def brI2cRead (p : Params) (alen : Nat) (d ah al : Byte) (n : Nat) : List BridgeOp :=
  [.request .i2cStart, .request (i2cAddr p d false)] ++ i2cAddressOps alen ah al
    ++ [.request rstart, .request (i2cAddr p d true)] ++ i2cReadLoop n ++ [.request .i2cStop]

/-- `BR.I2C_WRITE` (R176). -/
def brI2cWrite (p : Params) (alen : Nat) (d ah al : Byte) (n : Nat) : List BridgeOp :=
  [.request .i2cStart, .request (i2cAddr p d false)] ++ i2cAddressOps alen ah al
    ++ i2cWriteLoop n ++ [.request .i2cStop, .settle, .hostWriteByte chK]

/-- One pass of `BR.SPI_POLL`, with its test (R180). -/
def pollPass (p : Params) : List BridgeOp :=
  [.request .spiCsa, .request (.spiWrite p.opRdsr), .request .spiRead, .capture, .request .spiCsd, .pollUntilReady]

/-- `BR.SPI_WRITE` (R179). -/
def brSpiWrite (p : Params) (ah al : Byte) (n : Nat) : List BridgeOp :=
  xferCmd p.opWren ++ [.request .spiCsa, .request (.spiWrite p.opPp), .request (.spiWrite ah), .request (.spiWrite al)]
    ++ spiWriteLoop n ++ [.request .spiCsd] ++ pollPass p ++ [.hostWriteByte chK]

/-- `BR.SPI_READ` (R181). -/
def brSpiRead (p : Params) (ah al : Byte) (n : Nat) : List BridgeOp :=
  [.request .spiCsa, .request (.spiWrite p.opRead), .request (.spiWrite ah), .request (.spiWrite al)]
    ++ spiReadLoop n ++ [.request .spiCsd]

/-! Running a bridge. -/

/-- `HostRead()` delivers a byte: it is recorded (R171). -/
def State.takeHost (s : State) (b : Byte) (bs : List Byte) : State := (s.setHost bs).log (.hostIn b)

/-- `p <- b`. -/
def State.setP (s : State) (b : Byte) : State := s.setCaller { s.caller with p := b }

/-- `v <-` the response (R83); a request with no response leaves `v`. -/
def State.capture (s : State) : State := s.setCaller { s.caller with v := s.caller.resp.getD s.caller.v }

/-- `HostWrite(b)`: transmits once the transmitter is free (R171), and waits for it otherwise with `self` still to
do. -/
def hostWrite (self : List BridgeOp) (b : Byte) (s : State) : Run :=
  let t := s.countdown
  let u := t.setEnv t.env.afterTx
  if t.env.txReady then .finished (u.log (.hostOut b)) else .paused (u.setBridge self)

/-- A caller step: a request it issues, a byte on the host channel, a delay. A reset may come before it (R220; log
entry 28). -/
def callerStep (s : State) (r : Run) : Run := if s.resetDue then .paused s.hardwareReset else r

/-- One step of a bridge, `rest` being what is left after it. It pauses where the caller waits: for a byte of the host,
for the transmitter, for SCL, or after a pass of the busy-poll that found the device busy (R180, R204). -/
def bridgeStep (o : BridgeOp) (rest : List BridgeOp) (s : State) : Run :=
  match o with
  | .request r => callerStep s (runRequest r (s.countdown.setBridge rest))
  | .capture => .finished s.capture
  | .hostRead =>
    callerStep s
      (match s.env.host with
       | [] => .paused (s.countdown.setBridge (o :: rest))
       | b :: bs => .finished ((s.countdown.takeHost b bs).setP b))
  | .i2cWriteP => callerStep s (runRequest (.i2cWrite s.caller.p) (s.countdown.setBridge rest))
  | .spiWriteP => callerStep s (runRequest (.spiWrite s.caller.p) (s.countdown.setBridge rest))
  | .hostWriteV => callerStep s (hostWrite (o :: rest) s.caller.v s)
  | .hostWriteByte b => callerStep s (hostWrite (o :: rest) b s)
  | .settle => callerStep s (.finished (s.countdown.log (.delay .settle)))
  | .pollUntilReady =>
    if statusReady s.params s.caller.v then .finished s
    else .paused (s.setBridge (pollPass s.params ++ rest))

/-- Running a bridge until it is done or has to wait (R170). -/
def runBridge : List BridgeOp → State → State
  | [], s => s.setBridge []
  | o :: rest, s =>
    match bridgeStep o rest s with
    | .finished t => runBridge rest t
    | .paused t => t

/-- A bridge can start when the block accepts requests (R203) and no other bridge is in progress (R212). -/
def startBridge (ops : List BridgeOp) (s : State) : Host.Outcome State Fault Refusal :=
  whenAccepting s (!s.caller.bridge.isEmpty) (runBridge ops s)

/-- R172: a length of 0 is refused, after the fields before it. -/
def withLength (n : Byte) (go : Host.Outcome State Fault Refusal) : Host.Outcome State Fault Refusal :=
  if lengthOk n then go else .refused .zeroLength

/-- R81, R172: an address-length other than the two values is refused. -/
def withAddressLength (p : Params) (alen : Byte) (go : Nat → Host.Outcome State Fault Refusal) :
    Host.Outcome State Fault Refusal :=
  match addressLength p.alenCoding alen with
  | some k => go k
  | none => .refused (.addressLengthByte alen)

/-! The meanings. The header fields have been read (R174). -/

/-- `HOST.I2C_READ` (R175). -/
def execHostI2cRead (alen d ah al n : Byte) (s : State) : Host.Outcome State Fault Refusal :=
  withAddressLength s.params alen fun k =>
    withLength n (startBridge (brI2cRead s.params k d ah al n.toNat) s)

/-- `HOST.I2C_WRITE` (R176). -/
def execHostI2cWrite (alen d ah al n : Byte) (s : State) : Host.Outcome State Fault Refusal :=
  withAddressLength s.params alen fun k =>
    withLength n (startBridge (brI2cWrite s.params k d ah al n.toNat) s)

/-- `HOST.SPI_READ` (R181). -/
def execHostSpiRead (ah al n : Byte) (s : State) : Host.Outcome State Fault Refusal :=
  withLength n (startBridge (brSpiRead s.params ah al n.toNat) s)

/-- `HOST.SPI_WRITE` (R179). -/
def execHostSpiWrite (ah al n : Byte) (s : State) : Host.Outcome State Fault Refusal :=
  withLength n (startBridge (brSpiWrite s.params ah al n.toNat) s)

end Sys2Proof.Machine
end

