-- ==== Sys2Proof/Machine/I2c.lean ====
section
/-! DEFINITION. The meanings of the four I2C requests (40_i2c_master.md R106 to R109). -/

namespace Sys2Proof.Machine

/-- `I2C.START` (R106). -/
def execI2cStart (s : State) : Host.Outcome State Fault Refusal := issue .i2cStart s

/-- `I2C.STOP` (R107). -/
def execI2cStop (s : State) : Host.Outcome State Fault Refusal := issue .i2cStop s

/-- `I2C.WRITE b` (R108). -/
def execI2cWrite (b : Byte) (s : State) : Host.Outcome State Fault Refusal := issue (.i2cWrite b) s

/-- `I2C.READ ACK|NACK` (R109). -/
def execI2cRead (sendAck : Bool) (s : State) : Host.Outcome State Fault Refusal := issue (.i2cRead sendAck) s

end Sys2Proof.Machine
end

