-- ==== Sys2Proof/Machine/Spi.lean ====
section
/-! DEFINITION. The meanings of the four SPI requests (41_spi_master.md R142 to R145). -/

namespace Sys2Proof.Machine

/-- `SPI.CSA` (R142). -/
def execSpiCsa (s : State) : Host.Outcome State Fault Refusal := issue .spiCsa s

/-- `SPI.CSD` (R143). -/
def execSpiCsd (s : State) : Host.Outcome State Fault Refusal := issue .spiCsd s

/-- `SPI.WRITE b` (R144). -/
def execSpiWrite (b : Byte) (s : State) : Host.Outcome State Fault Refusal := issue (.spiWrite b) s

/-- `SPI.READ` (R145). -/
def execSpiRead (s : State) : Host.Outcome State Fault Refusal := issue .spiRead s

end Sys2Proof.Machine
end

