-- ==== Sys2Proof/Machine/Dispatch.lean ====
section
/-! DEFINITION. One arm per constructor of `Instr`. -/

namespace Sys2Proof.Machine

def exec (i : Instr) (s : State) : Host.Outcome State Fault Refusal :=
  match i with
  | .i2cStart => Sys2Proof.Machine.execI2cStart s
  | .i2cStop => Sys2Proof.Machine.execI2cStop s
  | .i2cWrite b => Sys2Proof.Machine.execI2cWrite b s
  | .i2cRead sendAck => Sys2Proof.Machine.execI2cRead sendAck s
  | .spiCsa => Sys2Proof.Machine.execSpiCsa s
  | .spiCsd => Sys2Proof.Machine.execSpiCsd s
  | .spiWrite b => Sys2Proof.Machine.execSpiWrite b s
  | .spiRead => Sys2Proof.Machine.execSpiRead s
  | .hostI2cRead alen d ah al n => Sys2Proof.Machine.execHostI2cRead alen d ah al n s
  | .hostI2cWrite alen d ah al n => Sys2Proof.Machine.execHostI2cWrite alen d ah al n s
  | .hostSpiRead ah al n => Sys2Proof.Machine.execHostSpiRead ah al n s
  | .hostSpiWrite ah al n => Sys2Proof.Machine.execHostSpiWrite ah al n s

end Sys2Proof.Machine
end

