-- ==== Sys2Proof/Machine/Fetch.lean ====
section
/-! DEFINITION. What the caller does next: the next request word (10_state.md R29, R203) or the next host command,
read byte by byte (45_bridges.md R171, R172, R174). -/

namespace Sys2Proof.Machine

/-- What a look at the bytes of a header gives. -/
inductive Header where
  /-- another field is to be read -/
  | more
  /-- the field just read is one R172 refuses -/
  | refuse (r : Refusal)
  /-- every field has been read -/
  | ready (i : Instr)
deriving DecidableEq, Repr

/-- R172: a field is judged as soon as it is read. -/
def headerOperation (o : Byte) : Header := if o = chR ∨ o = chW then .more else .refuse (.operationByte o)

def headerAlen (p : Params) (alen : Byte) : Header :=
  if alenOk p.alenCoding alen then .more else .refuse (.addressLengthByte alen)

/-- The whole header of a command. -/
def headerDone (hdr : List Byte) (n : Byte) : Header :=
  if lengthOk n then
    match decodeHost hdr with
    | .ok i => .ready i
    | .error _ => .more
  else .refuse .zeroLength

/-- The header bytes of an `'I'` command after its first (R78); earlier fields were judged when they were read. -/
def headerI2c (p : Params) (hdr : List Byte) : List Byte → Header
  | [] => .more
  | [o] => headerOperation o
  | [_, alen] => headerAlen p alen
  | [_, _, _] => .more
  | [_, _, _, _] => .more
  | [_, _, _, _, _] => .more
  | _ :: _ :: _ :: _ :: _ :: n :: _ => headerDone hdr n

/-- The header bytes of a `'P'` command after its first (R79). -/
def headerSpi (hdr : List Byte) : List Byte → Header
  | [] => .more
  | [o] => headerOperation o
  | [_, _] => .more
  | [_, _, _] => .more
  | _ :: _ :: _ :: n :: _ => headerDone hdr n

/-- What the header bytes read so far, oldest first, amount to (R78 to R81, R172). A first byte that is neither `'I'`
nor `'P'` is one of the Dispatcher's single-byte commands, out of scope (R5). -/
def headerStatus (p : Params) (hdr : List Byte) : Header :=
  match hdr with
  | [] => .more
  | c :: rest =>
    if c = chI then headerI2c p hdr rest
    else if c = chP then headerSpi hdr rest
    else .refuse (.singleByteCommand c)

/-- What the caller's next move is. -/
inductive Fetched where
  /-- the instruction to run, and the state it runs in -/
  | run (i : Instr) (s : State)
  /-- nothing to run now: the caller waits, the block faulted, or a reset came -/
  | stay (s : State)
  /-- a refused field -/
  | refuse (r : Refusal)
deriving DecidableEq, Repr

/-- Reading the header of a host command with HostRead, from the bytes that have come; with none left the caller waits
(R171, R174). -/
def readHeader : List Byte → State → Fetched
  | [], s => .stay s.countdown
  | b :: bs, s =>
    if s.resetDue then .stay s.hardwareReset
    else
      let t := s.countdown.takeHost b bs
      let u := t.setHdr (t.caller.hdr ++ [b])
      match headerStatus u.params u.caller.hdr with
      | .more => readHeader bs u
      | .refuse r => .refuse r
      | .ready i => .run i (u.setHdr [])

/-- A request word from the caller: decoded before any micro-operation (R76), run if legal, a fault if not (R201). The
point before its acceptance counts as one boundary (log entry 28). -/
def fetchRequest (w : Word16) (s : State) : Fetched :=
  match decodeRequest w with
  | .ok i => .run i s.countdown
  | .error _ => .stay (s.raiseIllegal w)

/-- The caller's next move when it is free (log entry 19): a header it has begun, else the head of its queue, else the
next host command. A `serve` entry is used up when the first byte of its command has come. -/
def fetch (s : State) : Fetched :=
  match s.caller.hdr with
  | _ :: _ => readHeader s.env.host s
  | [] =>
    match s.caller.queue with
    | .issue w :: q => fetchRequest w (s.setQueue q)
    | .serve :: q =>
      match s.env.host with
      | [] => .stay s.countdown
      | bs => readHeader bs (s.setQueue q)
    | [] => readHeader s.env.host s

end Sys2Proof.Machine
end

