-- ==== Sys2Proof/Machine/Cycle.lean ====
section
/-! DEFINITION. What one step does (00_scope.md R8, 10_state.md R28, 60_exceptions.md R203, R204, R206), and where an
instruction is put for the next step to take it. -/

namespace Sys2Proof.Machine

/-- What goes on after a request in progress has been resumed: once it is done, the rest of its bridge. -/
def afterResume : Run → State
  | .finished t => runBridge t.caller.bridge t
  | .paused t => t

/-- With the fault mark set there is no next step but a reset (R203, R208). -/
def stepFaulted (f : FaultReason) (s : State) : Host.Outcome State Fault Refusal :=
  match s.env.resets with
  | [] => .fault (.stuckUntilReset f)
  | _ :: _ => .next s.hardwareReset

/-- The caller is free: run its next instruction, or wait. -/
def stepFetched : Fetched → Host.Outcome State Fault Refusal
  | .run i t => exec i t
  | .stay t => .next t
  | .refuse r => .refused r

/-- The step of a block that is not faulted: a request in progress goes on, and with it its bridge; a bridge in
progress goes on; else the caller's next instruction is run. -/
def stepRunning (s : State) : Host.Outcome State Fault Refusal :=
  match s.phase with
  | .busy r k => .next (afterResume (resumeRequest r k s))
  | .idle =>
    match s.caller.bridge with
    | o :: rest => .next (runBridge (o :: rest) s)
    | [] => stepFetched (fetch s)

/-- One step: a reset that is due comes first (R206, R220); a faulted block is stuck (R203); else the machine goes on.
A step performs a whole request or bridge unless it has to wait (log entry 8). -/
def cycle (s : State) : Host.Outcome State Fault Refusal :=
  if s.resetDue then .next s.hardwareReset
  else
    match s.fault with
    | some f => stepFaulted f s
    | none => stepRunning s

/-- The machine made ready for its caller's next instruction: the caller is free, the block accepts, no reset is
coming. -/
def State.freed (s : State) : State :=
  { s with
    phase := .idle
    fault := none
    caller := { s.caller with hdr := [], bridge := [] }
    env := { s.env with resets := [] } }

/-- A table word put where the next step takes its instruction from (log entry 16): a host command's bytes at the head
of what the host has sent, a request word at the head of the caller's queue. -/
def State.placeTableWord (s : State) (nbits w : Nat) : State :=
  match tableHostInstr nbits w with
  | some _ => (s.freed.setQueue (.serve :: s.caller.queue)).setHost (tableHostBytes nbits w ++ s.env.host)
  | none => s.freed.setQueue (.issue (tableRequest nbits w) :: s.caller.queue)

end Sys2Proof.Machine
end

