-- ==== Sys2Proof/Machine/Assembly.lean ====
section
/-! DEFINITION. The assembly text of a request and its assembling (30_encoding.md R83). -/

namespace Sys2Proof.Machine

/-- One hexadecimal digit. -/
def hexDigit (n : Nat) : Char := "0123456789ABCDEF".toList.getD n '0'

/-- A byte as the literal `0xNN` (R83). -/
def byteText (b : Byte) : List Char := ['0', 'x', hexDigit (b.toNat / 16), hexDigit (b.toNat % 16)]

/-- The assembly text of a request (R83). -/
def Request.text : Request → List Char
  | .i2cStart => "I2C.START".toList
  | .i2cStop => "I2C.STOP".toList
  | .i2cWrite b => "I2C.WRITE ".toList ++ byteText b
  | .i2cRead true => "I2C.READ ACK".toList
  | .i2cRead false => "I2C.READ NACK".toList
  | .spiCsa => "SPI.CSA".toList
  | .spiCsd => "SPI.CSD".toList
  | .spiWrite b => "SPI.WRITE ".toList ++ byteText b
  | .spiRead => "SPI.READ".toList

/-- Every byte. -/
def allBytes : List Byte := (List.range 256).map (BitVec.ofNat 8)

/-- Every request: the 519 legal words of R76, as requests. -/
def allRequests : List Request :=
  [.i2cStart, .i2cStop] ++ allBytes.map .i2cWrite ++ [.i2cRead true, .i2cRead false]
    ++ [.spiCsa, .spiCsd] ++ allBytes.map .spiWrite ++ [.spiRead]

/-- Assembling one line: the word of the request whose text it is (R83). `I2C.RSTART` is `I2C.START` (R84). -/
def assemble (line : List Char) : Option Word16 :=
  if line = "I2C.RSTART".toList then some (requestWord .i2cStart)
  else (allRequests.find? (fun r => r.text == line)).map requestWord

end Sys2Proof.Machine
end

