-- ==== Sys2Proof/Machine/Gpio.lean ====
section
/-! DEFINITION. The GPIO pins the block owns, as a view of its lines (10_state.md R36, 60_exceptions.md R211,
70_reset_and_hazards.md R224, R226). -/

namespace Sys2Proof.Machine

/-- What the block does on a pin: an output at a level, or an input. -/
inductive PinState where
  | output (v : Bit)
  | input
deriving DecidableEq, Repr

/-- An I2C pin is an output at 0 when driven low and an input when released (R20, R224 step 3). -/
def drivePin : Drive → PinState
  | .low => .output false
  | .rel => .input

/-- What the block does on a pin: nothing (`none`) on a pin no bus line owns (R36, R226). -/
def State.pin (s : State) (q : Pin) : Option PinState :=
  let m := s.params.pins.lineMap
  if q = m.scl then some (drivePin s.lines.scl)
  else if q = m.sda then some (drivePin s.lines.sda)
  else if q = m.cs then some (.output (s.lines.out s.params .cs))
  else if q = m.sck then some (.output s.lines.sck)
  else if q = m.mosi then some (.output s.lines.mosi)
  else if q = m.miso then some .input
  else none

end Sys2Proof.Machine
end

