-- ==== Sys2Proof/Machine/Observe.lean ====
section
/-! DEFINITION. What can be read off a trace (00_scope.md R10, R12): the lines, the bus conditions (40_i2c_master.md
R103), the clock pulses (R112, 41_spi_master.md R146), the select intervals (45_bridges.md R184), the counts of R113
and R149 and the nominal durations of 70_reset_and_hazards.md R235. -/

namespace Sys2Proof.Machine

/-- The events of the block itself: all but the caller's (R31, R171; log entry 10). -/
def Event.ofBlock : Event → Bool
  | .hostIn _ => false
  | .hostOut _ => false
  | .delay .settle => false
  | _ => true

/-- The block's own trace (R31). -/
def State.blockTrace (s : State) : List Event := s.trace.filter Event.ofBlock

/-- Is the event a micro-operation of the block (R10)? -/
def Event.isMicro : Event → Bool
  | .low _ => true
  | .rel _ => true
  | .set _ _ => true
  | .delay .settle => false
  | .delay _ => true
  | .sample _ _ => true
  | _ => false

/-- What an event does to the lines (R10, R221). -/
def Lines.afterEvent (p : Params) (l : Lines) : Event → Lines
  | .low i => l.setDrive i .low
  | .rel i => l.setDrive i .rel
  | .set o v => l.setOut p o v
  | .reset => Lines.reset
  | _ => l

/-- The lines after a list of events. -/
def Lines.replay (p : Params) (l : Lines) (es : List Event) : Lines := es.foldl (Lines.afterEvent p) l

/-- The bus conditions of R103. -/
inductive BusCondition where
  | start
  | stop
deriving DecidableEq, Repr

/-- The condition an event makes on lines in a given state, on the master view (R103): a change of SDA while SCL is 1.
A reset makes none (R222). -/
def conditionOf (l : Lines) : Event → List BusCondition
  | .low .sda => if masterView l.sda && masterView l.scl then [.start] else []
  | .rel .sda => if !masterView l.sda && masterView l.scl then [.stop] else []
  | _ => []

/-- The bus conditions of a list of events, in order. -/
def busConditions (p : Params) : Lines → List Event → List BusCondition
  | _, [] => []
  | l, e :: es => conditionOf l e ++ busConditions p (l.afterEvent p e) es

/-- Does the event raise the master view of SCL? -/
def raisesScl (l : Lines) (e : Event) : Bool := e == .rel .scl && l.scl == .low

/-- Does the event lower the master view of SCL? -/
def lowersScl (l : Lines) (e : Event) : Bool := e == .low .scl && l.scl == .rel

/-- Does the event raise SCK? -/
def raisesSck (l : Lines) (e : Event) : Bool := e == .set .sck true && !l.sck

/-- Does the event lower SCK? -/
def lowersSck (l : Lines) (e : Event) : Bool := e == .set .sck false && l.sck

/-- Does the event change MOSI while SCK is 1? R148 says no event of a write does. -/
def movesMosiWhileSckHigh (l : Lines) (e : Event) : Bool :=
  match e with
  | .set .mosi v => l.sck && v != l.mosi
  | _ => false

/-- Does the event change the logical chip-select? -/
def movesCs (p : Params) (l : Lines) (e : Event) : Bool := (l.afterEvent p e).cs != l.cs

/-- How many events of a list satisfy a test that sees the lines before each event. -/
def countOn (p : Params) (test : Lines → Event → Bool) : Lines → List Event → Nat
  | _, [] => 0
  | l, e :: es => (if test l e then 1 else 0) + countOn p test (l.afterEvent p e) es

/-- The nominal duration of an event (R235): a delay lasts its parameter, every other event nothing. -/
def Event.time (p : Params) : Event → Nat
  | .delay .i2c => p.tI2c
  | .delay .spi => p.tSpi
  | .delay .settle => p.tSettle
  | _ => 0

/-- The nominal duration of a list of events, ignoring everything but its delays (R235). -/
def traceTime (p : Params) (es : List Event) : Nat := (es.map (Event.time p)).sum

/-- The nominal duration of a request (the table of R235). -/
def nominalDuration (p : Params) : Request → Nat
  | .i2cStart => 3 * p.tI2c
  | .i2cStop => 3 * p.tI2c
  | .i2cWrite _ => 27 * p.tI2c
  | .i2cRead _ => 20 * p.tI2c
  | .spiCsa => 0
  | .spiCsd => 0
  | .spiWrite _ => 16 * p.tSpi
  | .spiRead => 16 * p.tSpi

/-- The micro-operation counts of R113 and R149: line changes, delays, data samples, all. -/
def microCounts : Request → Nat × Nat × Nat × Nat
  | .i2cStart => (4, 3, 0, 7)
  | .i2cStop => (3, 3, 0, 6)
  | .i2cWrite _ => (27, 27, 1, 55)
  | .i2cRead _ => (20, 20, 8, 48)
  | .spiCsa => (1, 0, 0, 1)
  | .spiCsd => (1, 0, 0, 1)
  | .spiWrite _ => (24, 16, 0, 40)
  | .spiRead => (16, 16, 8, 40)

/-- Does the event change a line: a `LOW`, a `REL` or a `SET`? -/
def Event.isLineChange : Event → Bool
  | .low _ => true
  | .rel _ => true
  | .set _ _ => true
  | _ => false

/-- Is the event a delay? -/
def Event.isDelay : Event → Bool
  | .delay _ => true
  | _ => false

/-- Is the event a sample of a data line, SDA or MISO? -/
def Event.isDataSample : Event → Bool
  | .sample .sda _ => true
  | .sample .miso _ => true
  | _ => false

/-- The four counts of a list of events. -/
def countEvents (es : List Event) : Nat × Nat × Nat × Nat :=
  (es.countP Event.isLineChange, es.countP Event.isDelay, es.countP Event.isDataSample, es.countP Event.isMicro)

end Sys2Proof.Machine
end

