-- ==== Sys2Proof/Safety.lean ====
section
/-! DEFINITION. The terms claims are stated in: when a block is ready, the events each request's rule lists, the
conversation of a bridge, and the invariants. The event lists are written from the rules' text and the vectors of
95_test_vectors.md, not from Machine/Sequences.lean. -/

namespace Sys2Proof.Machine

/-- The block accepts a request: phase `IDLE` and no fault mark (R203). -/
abbrev State.Ready (s : State) : Prop := s.phase = .idle ∧ s.fault = none

/-- No hardware reset is coming. -/
abbrev State.Undisturbed (s : State) : Prop := s.env.resets = []

/-- The caller has no bridge in progress. -/
abbrev State.Free (s : State) : Prop := s.caller.bridge = []

/-- The engine never waits for SCL (`I2C_SCL_WAIT = false`, R104). -/
abbrev State.NoSclWait (s : State) : Prop := s.params.sclWait = false

/-- A step is safe when it ends in neither a fault nor a refusal. -/
def safeStep (s : State) : Prop := ∃ t, step s = .next t

/-! Bits and levels. -/

/-- The bits of a byte in the order they go on the wire (R52). -/
def bitsOf (b : Byte) : List Bit :=
  [b.getLsbD 7, b.getLsbD 6, b.getLsbD 5, b.getLsbD 4, b.getLsbD 3, b.getLsbD 2, b.getLsbD 1, b.getLsbD 0]

/-- The number whose binary digits are given, the first the most significant (R52, R109, R145). -/
def byteOfBits (bs : List Bit) : Byte := BitVec.ofNat 8 (bs.foldl (fun n b => 2 * n + b.toNat) 0)

/-- The next `n` levels the environment gives (R11). -/
def Env.levels : Nat → Env → List Bit
  | 0, _ => []
  | n + 1, e => e.bit :: Env.levels n e.afterBit

/-- The inputs after `n` levels have been taken. -/
def Env.advance : Nat → Env → Env
  | 0, e => e
  | n + 1, e => Env.advance n e.afterBit

/-! The events of each request with `I2C_SCL_WAIT = false` (V-I2C-1 to V-I2C-11, V-SPI-1 to V-SPI-5). -/

/-- The step that puts a bit on SDA (R108). -/
def sdaStep (b : Bit) : Event := if b then .rel .sda else .low .sda

/-- V-I2C-1 (R106). -/
def startEvents : List Event :=
  [.rel .sda, .rel .scl, .delay .i2c, .low .sda, .delay .i2c, .low .scl, .delay .i2c]

/-- V-I2C-4 (R107). -/
def stopEvents : List Event :=
  [.low .sda, .delay .i2c, .rel .scl, .delay .i2c, .rel .sda, .delay .i2c]

/-- V-I2C-6 (R108): eight data clocks and the acknowledge clock with its sample. -/
def writeEvents (b : Byte) (ack : Bit) : List Event :=
  (bitsOf b).flatMap (fun v =>
    [sdaStep v, .delay .i2c, .rel .scl, .delay .i2c, .low .scl, .delay .i2c])
  ++ [.rel .sda, .delay .i2c, .rel .scl, .sample .sda ack, .delay .i2c, .low .scl, .delay .i2c]

/-- V-I2C-10, V-I2C-11 (R109). -/
def readEvents (sendAck : Bool) (levels : List Bit) : List Event :=
  [.rel .sda, .delay .i2c]
  ++ levels.flatMap (fun v => [.rel .scl, .sample .sda v, .delay .i2c, .low .scl, .delay .i2c])
  ++ [sdaStep (!sendAck), .delay .i2c, .rel .scl, .delay .i2c, .low .scl, .delay .i2c]

/-- V-SPI-1 (R142). -/
def csaEvents (p : Params) : List Event := [.set .cs (if p.csActiveLow then false else true)]

/-- V-SPI-2 (R143). -/
def csdEvents (p : Params) : List Event := [.set .cs (if p.csActiveLow then true else false)]

/-- V-SPI-3 (R144). -/
def spiWriteEvents (b : Byte) : List Event :=
  (bitsOf b).flatMap (fun v => [.set .mosi v, .delay .spi, .set .sck true, .delay .spi, .set .sck false])

/-- V-SPI-5 (R145). -/
def spiReadEvents (levels : List Bit) : List Event :=
  levels.flatMap (fun v => [.delay .spi, .set .sck true, .delay .spi, .sample .miso v, .set .sck false])

/-- How many levels a request takes from the environment (R113, R149). -/
def samplesOf : Request → Nat
  | .i2cStart => 0
  | .i2cStop => 0
  | .i2cWrite _ => 1
  | .i2cRead _ => 8
  | .spiCsa => 0
  | .spiCsd => 0
  | .spiWrite _ => 0
  | .spiRead => 8

/-- The micro-operation events of a request, given the levels it samples. -/
def requestEvents (p : Params) (r : Request) (levels : List Bit) : List Event :=
  match r with
  | .i2cStart => startEvents
  | .i2cStop => stopEvents
  | .i2cWrite b => writeEvents b (levels.headD false)
  | .i2cRead a => readEvents a levels
  | .spiCsa => csaEvents p
  | .spiCsd => csdEvents p
  | .spiWrite b => spiWriteEvents b
  | .spiRead => spiReadEvents levels

/-- The response of a request, given the levels it samples (R74). -/
def requestResponse (r : Request) (levels : List Bit) : Option Byte :=
  match r with
  | .i2cStart => none
  | .i2cStop => none
  | .i2cWrite _ => some (if levels.headD false then 0x01 else 0x00)
  | .i2cRead _ => some (byteOfBits levels)
  | .spiCsa => none
  | .spiCsd => none
  | .spiWrite _ => none
  | .spiRead => some (byteOfBits levels)

/-- The words of R71 and R72. -/
def specWord : Request → Word16
  | .i2cStart => 0x1000
  | .i2cStop => 0x1100
  | .i2cWrite b => 0x12#8 ++ b
  | .i2cRead a => if a then 0x1301 else 0x1300
  | .spiCsa => 0x2000
  | .spiCsd => 0x2100
  | .spiWrite b => 0x22#8 ++ b
  | .spiRead => 0x2300

/-- The lines a request leaves, from the rules' end states (R106 to R109, R142 to R145). -/
def requestLines (l : Lines) : Request → Lines
  | .i2cStart => { l with scl := .low, sda := .low }
  | .i2cStop => { l with scl := .rel, sda := .rel }
  | .i2cWrite _ => { l with scl := .low, sda := .rel }
  | .i2cRead a => { l with scl := .low, sda := if a then .low else .rel }
  | .spiCsa => { l with cs := .asserted }
  | .spiCsd => { l with cs := .deasserted }
  | .spiWrite b => { l with sck := false, mosi := b.getLsbD 0 }
  | .spiRead => { l with sck := false }

/-- A request of the I2C engine (R71). -/
def Request.isI2c : Request → Bool
  | .i2cStart => true
  | .i2cStop => true
  | .i2cWrite _ => true
  | .i2cRead _ => true
  | .spiCsa => false
  | .spiCsd => false
  | .spiWrite _ => false
  | .spiRead => false

/-- The working values after a request (R27): a request without a byte writes none; a byte written has been shifted out
of its register (R108, R144), a byte read is the assembled one (R109, R145); the other working values stay. The
bit counter of the request's own engine is left out here, as is the bit sampled last (log entries 11, 12). -/
def WorkAfter (r : Request) (levels : List Bit) (w w' : Work) : Prop :=
  match r with
  | .i2cStart => w' = w
  | .i2cStop => w' = w
  | .i2cWrite _ => w' = { w with i2cSh := 0x00, i2cCnt := w'.i2cCnt, smp := w'.smp }
  | .i2cRead _ => w' = { w with i2cAcc := byteOfBits levels, i2cCnt := w'.i2cCnt, smp := w'.smp }
  | .spiCsa => w' = w
  | .spiCsd => w' = w
  | .spiWrite _ => w' = { w with spiSh := 0x00, spiCnt := w'.spiCnt }
  | .spiRead => w' = { w with spiAcc := byteOfBits levels, spiCnt := w'.spiCnt, smp := w'.smp }

/-- `t` is `s` after request `r` was performed whole, its samples being the environment's next levels: everything the
request's rule says, and nothing else changed. -/
structure Performed (r : Request) (s t : State) : Prop where
  lines : t.lines = requestLines s.lines r
  trace : t.trace = s.trace ++ [.req (specWord r)] ++ requestEvents s.params r (s.env.levels (samplesOf r))
    ++ [.resp (requestResponse r (s.env.levels (samplesOf r)))]
  phase : t.phase = .idle
  fault : t.fault = none
  params : t.params = s.params
  resp : t.caller = { s.caller with resp := requestResponse r (s.env.levels (samplesOf r)) }
  env : t.env = s.env.advance (samplesOf r)
  work : WorkAfter r (s.env.levels (samplesOf r)) s.work t.work

/-! Waiting for SCL (R104). A stretch is how often SCL reads 0 after one of its releases before it reads 1. -/

/-- How often a request releases SCL (the `SCL_UP` column of R113). -/
def sclReleases : Request → Nat
  | .i2cStart => 1
  | .i2cStop => 1
  | .i2cWrite _ => 9
  | .i2cRead _ => 9
  | .spiCsa => 0
  | .spiCsd => 0
  | .spiWrite _ => 0
  | .spiRead => 0

/-- The levels of the polls after one release of SCL that is stretched `n` times. -/
def stretched (n : Nat) : List Bit := List.replicate n false ++ [true]

/-- The events of a request with the polls after each release of SCL (R104, V-I2C-13); without stretches none is
polled. -/
def withSclPolls : List Nat → List Event → List Event
  | _, [] => []
  | stretches, e :: es =>
    if e = .rel .scl then
      match stretches with
      | [] => e :: withSclPolls [] es
      | n :: ns => e :: (stretched n).map (Event.sample .scl) ++ withSclPolls ns es
    else e :: withSclPolls stretches es

/-- The levels `I2C.READ` takes: after each release of SCL its polls, then the data sample (R109). -/
def readLevels : List Nat → List Bit → List Bit
  | [], levels => levels
  | n :: ns, [] => stretched n ++ readLevels ns []
  | n :: ns, v :: levels => stretched n ++ v :: readLevels ns levels

/-- All the levels a request takes, in order, for its stretches and its data samples. -/
def wireLevels (r : Request) (stretches : List Nat) (levels : List Bit) : List Bit :=
  match r with
  | .i2cStart => stretches.flatMap stretched ++ levels
  | .i2cStop => stretches.flatMap stretched ++ levels
  | .i2cWrite _ => stretches.flatMap stretched ++ levels
  | .i2cRead _ => readLevels stretches levels
  | .spiCsa => levels
  | .spiCsd => levels
  | .spiWrite _ => levels
  | .spiRead => levels

/-- The environment answers request `r` with these stretches and these data samples. With `I2C_SCL_WAIT = false` SCL is
not polled and there are no stretches (R104, R231). -/
abbrev State.Answers (s : State) (r : Request) (stretches : List Nat) (levels : List Bit) : Prop :=
  stretches.length = (if s.params.sclWait then sclReleases r else 0) ∧ levels.length = samplesOf r ∧
    s.env.levels (wireLevels r stretches levels).length = wireLevels r stretches levels

/-- Request `r`, given in `s`, completes in `t` after `n` further steps, one for each poll of SCL that read 0 (log entries
8, 9); a bridge in progress goes on in the last of these steps. -/
def Completes (r : Request) (n : Nat) (s t : State) : Prop :=
  t.phase = .idle ∧ t.caller.bridge = s.caller.bridge ∧
    ∃ u, exec r.toInstr s = .next u ∧ core.run n u = .next (if n = 0 then t else runBridge t.caller.bridge t)

/-! Resets inside a step (R220). -/

/-- A reset may come before every event but a response, which a request's last micro-operation brings with it (log entry
28). -/
def Event.atBoundary : Event → Bool
  | .resp _ => false
  | _ => true

/-- What is left of a step's events when a reset comes after `j` boundaries. -/
def beforeBoundary : Nat → List Event → List Event
  | _, [] => []
  | j, e :: es =>
    if e.atBoundary then
      match j with
      | 0 => []
      | j + 1 => e :: beforeBoundary j es
    else e :: beforeBoundary j es

/-- Is the event a byte read from the host? -/
def Event.isHostIn : Event → Bool
  | .hostIn _ => true
  | _ => false

/-! The conversation of a bridge: requests, host bytes and the settle delay, without the micro-operations. -/

/-- Is the event a request, a byte of the host channel or the settle delay? -/
def Event.ofCaller : Event → Bool
  | .req _ => true
  | .hostIn _ => true
  | .hostOut _ => true
  | .delay .settle => true
  | _ => false

/-- The conversation in a list of events. -/
def conversation (es : List Event) : List Event := es.filter Event.ofCaller

/-- `I2C.WRITE b` (R71). -/
def reqWrite (b : Byte) : Event := .req (0x12#8 ++ b)

/-- `SPI.WRITE b` (R72). -/
def reqSpi (b : Byte) : Event := .req (0x22#8 ++ b)

/-- The memory address on the I2C bus: the high byte with 2-byte addressing only (R51, R53, R175). -/
def reqAddress (alen : Nat) (ah al : Byte) : List Event :=
  if alen = 2 then [reqWrite ah, reqWrite al] else [reqWrite al]

/-- The `j`th byte a bridge reads, `before` levels having been taken before the first. -/
def readByte (e : Env) (before j : Nat) : Byte := byteOfBits (((e.advance (before + 8 * j)).levels 8))

/-- The conversation of the I2C read bridge (R175): each byte is written to the host just after it is read (R174), the
last is answered with NACK. -/
def i2cReadTalk (p : Params) (e : Env) (alen : Nat) (d ah al : Byte) (n : Nat) : List Event :=
  [.req 0x1000, reqWrite (addrByte p.addrForm d false)] ++ reqAddress alen ah al
  ++ [.req 0x1000, reqWrite (addrByte p.addrForm d true)]
  ++ (List.range n).flatMap (fun j =>
      [.req (if j + 1 < n then 0x1301 else 0x1300), .hostOut (readByte e (alen + 2) j)])
  ++ [.req 0x1100]

/-- The conversation of the I2C write bridge (R176). -/
def i2cWriteTalk (p : Params) (alen : Nat) (d ah al : Byte) (payload : List Byte) : List Event :=
  [.req 0x1000, reqWrite (addrByte p.addrForm d false)] ++ reqAddress alen ah al
  ++ payload.flatMap (fun b => [.hostIn b, reqWrite b])
  ++ [.req 0x1100, .delay .settle, .hostOut 0x4B]

/-- The conversation of the SPI read bridge (R181). -/
def spiReadTalk (p : Params) (e : Env) (ah al : Byte) (n : Nat) : List Event :=
  [.req 0x2000, reqSpi p.opRead, reqSpi ah, reqSpi al]
  ++ (List.range n).flatMap (fun j => [.req 0x2300, .hostOut (readByte e 0 j)])
  ++ [.req 0x2100]

/-- One pass of the busy-poll (R180). -/
def pollTalk (p : Params) : List Event := [.req 0x2000, reqSpi p.opRdsr, .req 0x2300, .req 0x2100]

/-- The conversation of the SPI write bridge up to the busy-poll (R179). -/
def spiProgramTalk (p : Params) (ah al : Byte) (payload : List Byte) : List Event :=
  [.req 0x2000, reqSpi p.opWren, .req 0x2100, .req 0x2000, reqSpi p.opPp, reqSpi ah, reqSpi al]
  ++ payload.flatMap (fun b => [.hostIn b, reqSpi b])
  ++ [.req 0x2100]

/-! Invariants. -/

/-- The trace tells the lines: replaying it from the reset lines gives the lines as they are (R10, R12, R61). -/
abbrev State.TraceTellsLines (s : State) : Prop := Lines.reset.replay s.params s.trace = s.lines

/-- A request in progress between two steps is an I2C request at a poll of `WAIT_HIGH`, the only place a request
waits (R104, R141). -/
def State.WaitsOnlyForScl (s : State) : Prop :=
  ∀ r k, s.phase = .busy r k → r.isI2c = true ∧ (microSeq s.params r)[k]? = some (op .waitHigh)

/-- SCK is 0 between steps (R146), whether the block is idle or waits for SCL. -/
abbrev State.SckLow (s : State) : Prop := s.lines.sck = false ∧ s.WaitsOnlyForScl

/-- The fault mark tells what the trace says: while it is set its event is in the trace and the block is idle (R30,
R201). -/
abbrev State.FaultTold (s : State) : Prop := ∀ f, s.fault = some f → s.phase = .idle ∧ .fault f ∈ s.trace

end Sys2Proof.Machine
end

