-- ==== Sys2Proof/WellFormed.lean ====
section
/-! DEFINITION. Which instructions the spec gives a meaning (30_encoding.md R81, 45_bridges.md R172). -/

namespace Sys2Proof

/-- Every request is well formed for every operand (R200); a host command is when R172 does not refuse a field. -/
def Instr.wellFormed (c : AlenCoding) : Instr → Bool
  | .i2cStart => true
  | .i2cStop => true
  | .i2cWrite _ => true
  | .i2cRead _ => true
  | .spiCsa => true
  | .spiCsd => true
  | .spiWrite _ => true
  | .spiRead => true
  | .hostI2cRead alen _ _ _ n => alenOk c alen && lengthOk n
  | .hostI2cWrite alen _ _ _ n => alenOk c alen && lengthOk n
  | .hostSpiRead _ _ n => lengthOk n
  | .hostSpiWrite _ _ n => lengthOk n

end Sys2Proof
end

