-- ==== Sys2Proof/Certificates/Slice0/Obligations.lean ====
section
/-! DEFINITION. The statements for the provers. Every statement about an instruction's result says the whole next state
(`Performed`, or field by field), so that it is also its frame and its completion. The block has no memory (R50), so no
statement speaks of one. The inputs `env` and `caller.queue` and the way a statement says they are used up are the
model's representation of what R11, R171 and R220 leave to the outside (log entries 1, 7, 16, 17, 19). -/

open Sys2Proof Sys2Proof.Machine

/-! ## Encoding -/

/-- Decoding the encoding of an instruction gives it back, for every operand (R70 to R73, R78, R79). -/
def Obligations.DecodeOfEncodeIsTheInstruction : Prop :=
  ∀ i : Instr, decode (encode i) = .ok i

/-- A request word that decodes is the encoding of what it decodes to: no bit of a legal word is dropped (R76). -/
def Obligations.DecodedWordIsTheEncoding : Prop :=
  ∀ (w : Word16) (i : Instr), decodeRequest w = .ok i → encode i = .request w

/-- A host command decodes from its header, whatever payload follows (R78 to R80, R174). -/
def Obligations.HostHeaderDecodesBeforeItsPayload : Prop :=
  ∀ (i : Instr) (hdr payload : List Byte), encode i = .host hdr → decodeHost (hdr ++ payload) = .ok i

/-- The ILLEGAL words are exactly those R77 lists: an engine value other than 1 and 2, an operation value of 4 or more,
a non-zero bit of `DATA` where R73 requires zero. -/
def Obligations.IllegalWordsAreThoseOfR77 : Prop :=
  ∀ w : Word16,
    decodeRequest w = .error (.illegalRequest w) ↔
      ((w.toNat / 4096 ≠ 1 ∧ w.toNat / 4096 ≠ 2) ∨ 4 ≤ w.toNat / 256 % 16 ∨
        (w.toNat / 256 % 16 = 0 ∧ w.toNat % 256 ≠ 0) ∨ (w.toNat / 256 % 16 = 1 ∧ w.toNat % 256 ≠ 0) ∨
        (w.toNat / 4096 = 1 ∧ w.toNat / 256 % 16 = 3 ∧ w.toNat % 256 / 2 ≠ 0) ∨
        (w.toNat / 4096 = 2 ∧ w.toNat / 256 % 16 = 3 ∧ w.toNat % 256 ≠ 0))

/-- Words of the vector V-DEC, written out, decode as it says; host commands as R78 and R79 lay them out. -/
def Obligations.WrittenOutWordsDecode : Prop :=
  decodeRequest 0x1000 = .ok .i2cStart ∧ decodeRequest 0x1100 = .ok .i2cStop ∧
  decodeRequest 0x12FF = .ok (.i2cWrite 0xFF) ∧ decodeRequest 0x1300 = .ok (.i2cRead false) ∧
  decodeRequest 0x1301 = .ok (.i2cRead true) ∧ decodeRequest 0x2000 = .ok .spiCsa ∧
  decodeRequest 0x2100 = .ok .spiCsd ∧ decodeRequest 0x22A5 = .ok (.spiWrite 0xA5) ∧
  decodeRequest 0x2300 = .ok .spiRead ∧ decodeRequest 0x1302 = .error (.illegalRequest 0x1302) ∧
  decodeHost [0x49, 0x52, 0x02, 0xA0, 0x01, 0x23, 0x02] = .ok (.hostI2cRead 0x02 0xA0 0x01 0x23 0x02) ∧
  decodeHost [0x50, 0x57, 0x01, 0x00, 0x01, 0x55] = .ok (.hostSpiWrite 0x01 0x00 0x01)

/-- Assembling the text of a request gives its word (R83). -/
def Obligations.AssembledTextIsTheRequestsWord : Prop :=
  ∀ r : Request, assemble r.text = some (specWord r)

/-- The I2C address byte (R173): the direction is bit 0; the other bits are the device byte's, in place with RAW8,
moved up by one with SHIFT7. -/
def Obligations.AddressByteCarriesDirectionInBitZero : Prop :=
  ∀ (d : Byte) (rw : Bit),
    (addrByte .raw8 d rw).getLsbD 0 = rw ∧ (addrByte .shift7 d rw).getLsbD 0 = rw ∧
    ∀ j, j < 7 → (addrByte .raw8 d rw).getLsbD (j + 1) = d.getLsbD (j + 1) ∧
      (addrByte .shift7 d rw).getLsbD (j + 1) = d.getLsbD j

/-! ## What each request does

A ready block, no reset coming, and for the I2C requests `I2C_SCL_WAIT = false`. -/

/-- `I2C.START` (R106). -/
def Obligations.I2cStartIsPerformed : Prop :=
  ∀ s : State, s.Ready → s.Undisturbed → s.NoSclWait →
    ∃ t, exec .i2cStart s = .next t ∧ Performed .i2cStart s t

/-- `I2C.STOP` (R107). -/
def Obligations.I2cStopIsPerformed : Prop :=
  ∀ s : State, s.Ready → s.Undisturbed → s.NoSclWait →
    ∃ t, exec .i2cStop s = .next t ∧ Performed .i2cStop s t

/-- `I2C.WRITE b` (R108): the bits of `b` most significant first, then the acknowledge clock; the response is the
sampled acknowledge bit. The model's choice (log entry 11, not a rule): the bit counter then stands at 8. -/
def Obligations.I2cWriteIsPerformed : Prop :=
  ∀ (b : Byte) (s : State), s.Ready → s.Undisturbed → s.NoSclWait →
    ∃ t, exec (.i2cWrite b) s = .next t ∧ Performed (.i2cWrite b) s t ∧ t.work.i2cCnt = 8

/-- `I2C.READ ACK|NACK` (R109): the response is the byte of the eight samples, the first sample bit 7. The model's choice
(log entry 11, not a rule): the bit counter then stands at 8. -/
def Obligations.I2cReadIsPerformed : Prop :=
  ∀ (a : Bool) (s : State), s.Ready → s.Undisturbed → s.NoSclWait →
    ∃ t, exec (.i2cRead a) s = .next t ∧ Performed (.i2cRead a) s t ∧ t.work.i2cCnt = 8

/-- `SPI.CSA` (R142): CS asserted, one `SET` at the level of the polarity, no delay, nothing else. -/
def Obligations.SpiCsaIsPerformed : Prop :=
  ∀ s : State, s.Ready → s.Undisturbed →
    ∃ t, exec .spiCsa s = .next t ∧ Performed .spiCsa s t ∧ t.lines.out t.params .cs = !s.params.csActiveLow

/-- `SPI.CSD` (R143). -/
def Obligations.SpiCsdIsPerformed : Prop :=
  ∀ s : State, s.Ready → s.Undisturbed →
    ∃ t, exec .spiCsd s = .next t ∧ Performed .spiCsd s t ∧ t.lines.out t.params .cs = s.params.csActiveLow

/-- `SPI.WRITE b` (R144): whatever CS is (R147). The model's choice (log entry 11, not a rule): the bit counter then
stands at 8. -/
def Obligations.SpiWriteIsPerformed : Prop :=
  ∀ (b : Byte) (s : State), s.Ready → s.Undisturbed →
    ∃ t, exec (.spiWrite b) s = .next t ∧ Performed (.spiWrite b) s t ∧ t.work.spiCnt = 8

/-- `SPI.READ` (R145): MOSI and CS are left as they were. The model's choice (log entry 11, not a rule): the bit counter
then stands at 8. -/
def Obligations.SpiReadIsPerformed : Prop :=
  ∀ s : State, s.Ready → s.Undisturbed →
    ∃ t, exec .spiRead s = .next t ∧ Performed .spiRead s t ∧ t.work.spiCnt = 8

/-! ## Waiting for SCL (R104) -/

/-- With `I2C_SCL_WAIT = true` an I2C request waits after each release of SCL for as long as SCL reads 0, goes on from
there once it reads 1, and is performed to its end; a bridge in progress then goes on (R104, R106 to R109, V-I2C-13). That
each poll that reads 0 is one step is the model's choice (log entry 8). -/
def Obligations.I2cRequestsCompleteWhenSclReadsHigh : Prop :=
  ∀ (r : Request) (stretches : List Nat) (levels : List Bit) (s : State), r.isI2c = true → s.Ready → s.Undisturbed →
    s.params.sclWait = true → s.Answers r stretches levels →
    ∃ t, Completes r stretches.sum s t ∧ t.lines = requestLines s.lines r ∧
      t.trace = s.trace ++ [.req (specWord r)] ++ withSclPolls stretches (requestEvents s.params r levels)
        ++ [.resp (requestResponse r levels)] ∧
      t.fault = none ∧ t.params = s.params ∧ t.caller = { s.caller with resp := requestResponse r levels } ∧
      t.env = s.env.advance (wireLevels r stretches levels).length ∧
      WorkAfter r levels s.work { t.work with smp := s.work.smp }

/-- A poll of `WAIT_HIGH` that reads 0 is recorded and the request waits where it is (R104). -/
def Obligations.SclPollThatReadsLowWaits : Prop :=
  ∀ (r : Request) (k : Nat) (s : State), s.phase = .busy r k → (microSeq s.params r)[k]? = some (op .waitHigh) →
    s.fault = none → s.Undisturbed → s.sampleValue .scl = false →
    ∃ t, step s = .next t ∧ t.phase = s.phase ∧ t.fault = none ∧ t.lines = s.lines ∧ t.params = s.params ∧
      t.caller = s.caller ∧ t.trace = s.trace ++ [.sample .scl false] ∧ t.env = s.env.afterBit

/-- A device that holds SCL low for any number of polls keeps the request waiting for as long, with no fault and no
response (R104, R204). That each poll is one step, and that a hang is a run of next states, is the model's choice (log
entries 8, 9). -/
def Obligations.SclHeldLowHangsTheRequest : Prop :=
  ∀ (r : Request) (k n : Nat) (rest : List Bit) (s : State), s.phase = .busy r k →
    (microSeq s.params r)[k]? = some (op .waitHigh) → s.fault = none → s.Undisturbed →
    s.env.samples = List.replicate n false ++ rest →
    ∃ t, core.run n s = .next t ∧ t.phase = s.phase ∧ t.fault = none ∧ t.lines = s.lines ∧
      t.trace = s.trace ++ List.replicate n (.sample .scl false) ∧ t.env = { s.env with samples := rest }

/-! ## What holds of every request -/

/-- No request raises an exception, for any operand and line state, waiting or disturbed by a reset or not (R200). -/
def Obligations.NoRequestRaisesAnException : Prop :=
  ∀ (r : Request) (s : State), s.Ready → ∃ t, exec r.toInstr s = .next t ∧ t.fault = none

/-- I2C requests leave CS, SCK and MOSI as they were, SPI requests SCL and SDA (R100, R140), also while they wait for
SCL; the parameters never change. -/
def Obligations.RequestsTouchOnlyTheirEnginesLines : Prop :=
  ∀ (r : Request) (s : State), s.Ready → s.Undisturbed →
    ∃ t, exec r.toInstr s = .next t ∧ t.params = s.params ∧
      (r.isI2c = true → t.lines.cs = s.lines.cs ∧ t.lines.sck = s.lines.sck ∧ t.lines.mosi = s.lines.mosi) ∧
      (r.isI2c = false → t.lines.scl = s.lines.scl ∧ t.lines.sda = s.lines.sda)

/-- An I2C request changes what the block does on no pin but those of SCL and SDA, an SPI request on none but those of
CS, SCK and MOSI (R226). -/
def Obligations.RequestsTouchOnlyTheirOwnPins : Prop :=
  ∀ (r : Request) (q : Pin) (s : State), s.Ready → s.Undisturbed →
    (r.isI2c = true → q ≠ s.params.pins.lineMap.scl ∧ q ≠ s.params.pins.lineMap.sda) →
    (r.isI2c = false →
      q ≠ s.params.pins.lineMap.cs ∧ q ≠ s.params.pins.lineMap.sck ∧ q ≠ s.params.pins.lineMap.mosi) →
    ∃ t, exec r.toInstr s = .next t ∧ t.pin q = s.pin q

/-- In every state each line has a pin of its own, on which the block does what that line says, and the block does nothing
on a task pin (R36, R226). What it does on an I2C pin is an output at 0 or an input (R224 step 3; log entry 18). -/
def Obligations.TaskPinsAreNotTheBlocks : Prop :=
  ∀ s : State,
    (∀ q ∈ s.params.pins.taskPins, s.pin q = none) ∧
    s.pin s.params.pins.lineMap.scl = some (drivePin s.lines.scl) ∧
    s.pin s.params.pins.lineMap.sda = some (drivePin s.lines.sda) ∧
    s.pin s.params.pins.lineMap.cs = some (.output (s.lines.out s.params .cs)) ∧
    s.pin s.params.pins.lineMap.sck = some (.output s.lines.sck) ∧
    s.pin s.params.pins.lineMap.mosi = some (.output s.lines.mosi) ∧
    s.pin s.params.pins.lineMap.miso = some .input

/-- A sample of an I2C line the block drives low reads 0; of a released one, what the environment gives; and whenever a
request samples SDA, the block has released it, under either value of `I2C_SCL_WAIT` and to the request's end (R22). -/
def Obligations.SamplesObeyTheWiredAnd : Prop :=
  (∀ s : State, (s.lines.sda = .low → s.sampleValue .sda = false) ∧
    (s.lines.scl = .low → s.sampleValue .scl = false) ∧
    (s.lines.sda = .rel → s.sampleValue .sda = s.env.bit) ∧
    (s.lines.scl = .rel → s.sampleValue .scl = s.env.bit)) ∧
  ∀ (r : Request) (stretches : List Nat) (levels : List Bit) (s : State), s.Ready → s.Undisturbed →
    s.Answers r stretches levels →
    ∃ t es, Completes r stretches.sum s t ∧ t.trace = s.trace ++ es ∧
      es.count (.sample .sda false) + es.count (.sample .sda true) = (if r.isI2c then samplesOf r else 0) ∧
      countOn s.params (fun l e => (e == .sample .sda false || e == .sample .sda true) && l.sda == .low) s.lines es = 0

/-- The micro-operation counts of the I2C requests with `I2C_SCL_WAIT = false` (R113). -/
def Obligations.I2cMicroOperationCounts : Prop :=
  ∀ (r : Request) (s : State), r.isI2c = true → s.Ready → s.Undisturbed → s.NoSclWait →
    ∃ t es, exec r.toInstr s = .next t ∧ t.trace = s.trace ++ es ∧ countEvents es = microCounts r ∧
      es.count (.rel .scl) = (if samplesOf r = 0 then 1 else 9)

/-- The micro-operation counts of the SPI requests (R149). -/
def Obligations.SpiMicroOperationCounts : Prop :=
  ∀ (r : Request) (s : State), r.isI2c = false → s.Ready → s.Undisturbed →
    ∃ t es, exec r.toInstr s = .next t ∧ t.trace = s.trace ++ es ∧ countEvents es = microCounts r

/-- The nominal durations of R235, under either value of `I2C_SCL_WAIT`: a wait for SCL counts nothing. -/
def Obligations.NominalDurationsFollowFromTheDelays : Prop :=
  ∀ (r : Request) (stretches : List Nat) (levels : List Bit) (s : State), s.Ready → s.Undisturbed →
    s.Answers r stretches levels →
    ∃ t es, Completes r stretches.sum s t ∧ t.trace = s.trace ++ es ∧
      traceTime s.params es = nominalDuration s.params r

/-- `I2C.WRITE` and `I2C.READ` started with SCL low make no START or STOP condition and leave SCL low, under either value
of `I2C_SCL_WAIT` (R110, R111). -/
def Obligations.ByteTransfersMakeNoBusCondition : Prop :=
  ∀ (r : Request) (stretches : List Nat) (levels : List Bit) (s : State),
    ((∃ b, r = .i2cWrite b) ∨ ∃ a, r = .i2cRead a) → s.Ready → s.Undisturbed → s.Answers r stretches levels →
    s.lines.scl = .low →
    ∃ t es, Completes r stretches.sum s t ∧ t.trace = s.trace ++ es ∧ busConditions s.params s.lines es = [] ∧
      t.lines.scl = .low

/-- The edges of SCL in the master view, under either value of `I2C_SCL_WAIT` (R112): `I2C.WRITE` and `I2C.READ` started
with SCL low make exactly nine pulses; `I2C.START` lowers SCL once, after raising it once if it was low; `I2C.STOP`
started with SCL low raises it once. -/
def Obligations.ByteTransfersMakeNinePulses : Prop :=
  ∀ (r : Request) (stretches : List Nat) (levels : List Bit) (s : State), s.Ready → s.Undisturbed →
    s.Answers r stretches levels →
    ∃ t es, Completes r stretches.sum s t ∧ t.trace = s.trace ++ es ∧
      (((∃ b, r = .i2cWrite b) ∨ ∃ a, r = .i2cRead a) → s.lines.scl = .low →
        countOn s.params raisesScl s.lines es = 9 ∧ countOn s.params lowersScl s.lines es = 9) ∧
      (r = .i2cStart → countOn s.params lowersScl s.lines es = 1 ∧
        countOn s.params raisesScl s.lines es = if s.lines.scl = .low then 1 else 0) ∧
      (r = .i2cStop → s.lines.scl = .low →
        countOn s.params raisesScl s.lines es = 1 ∧ countOn s.params lowersScl s.lines es = 0)

/-- `I2C.START` makes one START and no STOP from idle, after a write and after a read with ACK alike; `I2C.STOP` with
SCL low makes one STOP and no START, and from idle a START then a STOP; under either value of `I2C_SCL_WAIT` (R103, R106,
R107, V-I2C-1 to V-I2C-5). -/
def Obligations.StartAndStopMakeTheirConditions : Prop :=
  ∀ (stretches : List Nat) (s : State), s.Ready → s.Undisturbed → s.Answers .i2cStart stretches [] →
    (∃ t es, Completes .i2cStart stretches.sum s t ∧ t.trace = s.trace ++ es ∧
      (s.lines.scl = .low ∨ s.lines.sda = .rel → busConditions s.params s.lines es = [.start])) ∧
    (∃ t es, Completes .i2cStop stretches.sum s t ∧ t.trace = s.trace ++ es ∧
      (s.lines.scl = .low → busConditions s.params s.lines es = [.stop]) ∧
      (s.lines.scl = .rel ∧ s.lines.sda = .rel → busConditions s.params s.lines es = [.start, .stop]))

/-- `SPI.WRITE` and `SPI.READ` started with SCK 0 make exactly eight SCK pulses and end with SCK 0; no change of MOSI
happens while SCK is 1 (R146, R148). -/
def Obligations.SpiTransfersMakeEightPulses : Prop :=
  ∀ (r : Request) (s : State), ((∃ b, r = .spiWrite b) ∨ r = .spiRead) → s.Ready → s.Undisturbed →
    s.lines.sck = false →
    ∃ t es, exec r.toInstr s = .next t ∧ t.trace = s.trace ++ es ∧ countOn s.params raisesSck s.lines es = 8 ∧
      countOn s.params lowersSck s.lines es = 8 ∧ countOn s.params movesMosiWhileSckHigh s.lines es = 0 ∧
      t.lines.sck = false

/-! ## Bridges -/

/-- `HOST.I2C_READ` (R175, R177): every acknowledge bit ignored, the `N` bytes read written to the host in bus order,
the last answered with NACK, the bus left idle. The transmitter is free whenever it is polled. -/
def Obligations.HostI2cReadCompletes : Prop :=
  ∀ (alen d ah al n : Byte) (k : Nat) (tx : List Bool) (s : State), s.Ready → s.Free → s.Undisturbed → s.NoSclWait →
    addressLength s.params.alenCoding alen = some k → n ≠ 0 → s.env.tx = List.replicate n.toNat true ++ tx →
    ∃ t es, exec (.hostI2cRead alen d ah al n) s = .next t ∧ t.trace = s.trace ++ es ∧
      conversation es = i2cReadTalk s.params s.env k d ah al n.toNat ∧
      t.lines = { s.lines with scl := .rel, sda := .rel } ∧ t.phase = .idle ∧ t.fault = none ∧ t.params = s.params ∧
      t.caller = { s.caller with bridge := [], resp := none, v := readByte s.env (k + 2) (n.toNat - 1) } ∧
      t.env = { s.env.advance (k + 2 + 8 * n.toNat) with tx := tx }

/-- `HOST.I2C_WRITE` (R176, R177): each payload byte read just before it is sent, the acknowledge bits ignored, the
settle delay, then `'K'`. The payload has come and the transmitter is free. -/
def Obligations.HostI2cWriteCompletes : Prop :=
  ∀ (alen d ah al n : Byte) (k : Nat) (payload rest : List Byte) (tx : List Bool) (s : State),
    s.Ready → s.Free → s.Undisturbed → s.NoSclWait →
    addressLength s.params.alenCoding alen = some k → n ≠ 0 → payload.length = n.toNat →
    s.env.host = payload ++ rest → s.env.tx = true :: tx →
    ∃ t es, exec (.hostI2cWrite alen d ah al n) s = .next t ∧ t.trace = s.trace ++ es ∧
      conversation es = i2cWriteTalk s.params k d ah al payload ∧
      t.lines = { s.lines with scl := .rel, sda := .rel } ∧ t.phase = .idle ∧ t.fault = none ∧ t.params = s.params ∧
      t.caller = { s.caller with bridge := [], resp := none, p := payload.getLastD 0 } ∧
      t.env = { s.env.advance (k + 1 + n.toNat) with host := rest, tx := tx }

/-- `HOST.SPI_READ` (R181). -/
def Obligations.HostSpiReadCompletes : Prop :=
  ∀ (ah al n : Byte) (tx : List Bool) (s : State), s.Ready → s.Free → s.Undisturbed → n ≠ 0 →
    s.env.tx = List.replicate n.toNat true ++ tx →
    ∃ t es, exec (.hostSpiRead ah al n) s = .next t ∧ t.trace = s.trace ++ es ∧
      conversation es = spiReadTalk s.params s.env ah al n.toNat ∧
      t.lines = { s.lines with cs := .deasserted, sck := false, mosi := al.getLsbD 0 } ∧
      t.phase = .idle ∧ t.fault = none ∧ t.params = s.params ∧
      t.caller = { s.caller with bridge := [], resp := none, v := readByte s.env 0 (n.toNat - 1) } ∧
      t.env = { s.env.advance (8 * n.toNat) with tx := tx }

/-- `HOST.SPI_WRITE` whose first status byte is ready (R179, R180): write-enable in its own select interval, the
page-program, one pass of the busy-poll, then `'K'`. -/
def Obligations.HostSpiWriteCompletes : Prop :=
  ∀ (ah al n : Byte) (payload rest : List Byte) (tx : List Bool) (s : State),
    s.Ready → s.Free → s.Undisturbed → n ≠ 0 → payload.length = n.toNat → s.env.host = payload ++ rest →
    s.env.tx = true :: tx → readByte s.env 0 0 &&& s.params.busyMask = 0 →
    ∃ t es, exec (.hostSpiWrite ah al n) s = .next t ∧ t.trace = s.trace ++ es ∧
      conversation es = spiProgramTalk s.params ah al payload ++ pollTalk s.params ++ [.hostOut 0x4B] ∧
      t.lines = { s.lines with cs := .deasserted, sck := false, mosi := s.params.opRdsr.getLsbD 0 } ∧
      t.phase = .idle ∧ t.fault = none ∧ t.params = s.params ∧
      t.caller = { s.caller with bridge := [], resp := none, v := readByte s.env 0 0, p := payload.getLastD 0 } ∧
      t.env = { s.env.advance 8 with host := rest, tx := tx }

/-- `HOST.SPI_WRITE` whose first status byte is busy: no `'K'` yet, the busy-poll goes on (R180, R184). -/
def Obligations.HostSpiWriteKeepsPollingWhileBusy : Prop :=
  ∀ (ah al n : Byte) (payload rest : List Byte) (s : State),
    s.Ready → s.Free → s.Undisturbed → n ≠ 0 → payload.length = n.toNat → s.env.host = payload ++ rest →
    readByte s.env 0 0 &&& s.params.busyMask ≠ 0 →
    ∃ t es, exec (.hostSpiWrite ah al n) s = .next t ∧ t.trace = s.trace ++ es ∧
      conversation es = spiProgramTalk s.params ah al payload ++ pollTalk s.params ∧
      t.caller.bridge = pollPass s.params ++ [.hostWriteByte 0x4B] ∧ t.phase = .idle ∧ t.fault = none ∧
      t.params = s.params ∧ t.lines.cs = .deasserted ∧ t.env = { s.env.advance 8 with host := rest }

/-- Each further pass of the busy-poll that finds the device busy makes four requests and comes back to the same place,
with no `'K'`, however many passes there are; the first pass that finds it ready, the transmitter being free, writes `'K'`
and ends the write bridge (R180, R184, R204; the second pass of P3). That a busy pass is one step and that the loop is a run
of next states is the model's choice (log entries 8, 9). -/
def Obligations.BusyPollHasNoBound : Prop :=
  ∀ (n : Nat) (rest : List BridgeOp) (s : State), s.Ready → s.Undisturbed →
    s.caller.bridge = pollPass s.params ++ rest →
    (∀ j, j < n → readByte s.env 0 j &&& s.params.busyMask ≠ 0) →
    (∃ t es, core.run n s = .next t ∧ t.trace = s.trace ++ es ∧
      conversation es = (List.replicate n (pollTalk s.params)).flatten ∧
      t.caller.bridge = s.caller.bridge ∧ t.phase = .idle ∧ t.fault = none ∧ t.params = s.params ∧
      t.env = s.env.advance (8 * n)) ∧
    ∀ tx, rest = [.hostWriteByte 0x4B] → s.env.tx = true :: tx → readByte s.env 0 n &&& s.params.busyMask = 0 →
      ∃ t es, core.run (n + 1) s = .next t ∧ t.trace = s.trace ++ es ∧
        conversation es = (List.replicate (n + 1) (pollTalk s.params)).flatten ++ [.hostOut 0x4B] ∧
        t.lines = { s.lines with cs := .deasserted, sck := false, mosi := s.params.opRdsr.getLsbD 0 } ∧
        t.phase = .idle ∧ t.fault = none ∧ t.params = s.params ∧
        t.caller = { s.caller with bridge := [], resp := none, v := readByte s.env 0 n } ∧
        t.env = { s.env.advance (8 * (n + 1)) with tx := tx }

/-- An I2C write bridge whose payload has not all come waits in the middle of its transaction: the bytes that came were
sent, SCL is low and no STOP was made (R171, R185). -/
def Obligations.I2cWriteBridgeWaitsForItsPayload : Prop :=
  ∀ (alen d ah al n : Byte) (k : Nat) (payload : List Byte) (s : State),
    s.Ready → s.Free → s.Undisturbed → s.NoSclWait → addressLength s.params.alenCoding alen = some k →
    payload.length < n.toNat → s.env.host = payload →
    ∃ t es, exec (.hostI2cWrite alen d ah al n) s = .next t ∧ t.trace = s.trace ++ es ∧
      conversation es = [.req 0x1000, reqWrite (addrByte s.params.addrForm d false)] ++ reqAddress k ah al
        ++ payload.flatMap (fun b => [.hostIn b, reqWrite b]) ∧
      t.caller.bridge.head? = some .hostRead ∧ t.phase = .idle ∧ t.fault = none ∧ t.env.host = [] ∧
      t.lines.scl = .low ∧ (s.lines.sda = .rel → busConditions s.params s.lines es = [.start])

/-- An SPI write bridge whose payload has not all come waits with CS asserted (R171, R185). -/
def Obligations.SpiWriteBridgeWaitsForItsPayload : Prop :=
  ∀ (ah al n : Byte) (payload : List Byte) (s : State),
    s.Ready → s.Free → s.Undisturbed → payload.length < n.toNat → s.env.host = payload →
    ∃ t es, exec (.hostSpiWrite ah al n) s = .next t ∧ t.trace = s.trace ++ es ∧
      conversation es = [.req 0x2000, reqSpi s.params.opWren, .req 0x2100, .req 0x2000, reqSpi s.params.opPp,
        reqSpi ah, reqSpi al] ++ payload.flatMap (fun b => [.hostIn b, reqSpi b]) ∧
      t.caller.bridge.head? = some .hostRead ∧ t.phase = .idle ∧ t.fault = none ∧ t.env.host = [] ∧
      t.lines.cs = .asserted

/-- A caller in HostRead with no byte there, or in HostWrite with the transmitter busy, stays where it is: no event, no
line changes. Once a byte is there HostRead takes it, once the transmitter is free HostWrite transmits, and the rest of
the bridge goes on (R171, R204). That each wait is a next state, one poll to a step and one boundary nearer to a coming
reset, is the model's choice (log entries 7, 8, 9). -/
def Obligations.HostChannelWaitsChangeNothing : Prop :=
  ∀ (o : BridgeOp) (rest : List BridgeOp) (s : State), s.Ready → s.resetDue = false → s.caller.bridge = o :: rest →
    (((o = .hostRead ∧ s.env.host = []) ∨
        ((o = .hostWriteV ∨ ∃ b, o = .hostWriteByte b) ∧ s.env.txReady = false)) →
      ∃ t, step s = .next t ∧ t.caller = s.caller ∧ t.lines = s.lines ∧ t.trace = s.trace ∧ t.phase = .idle ∧
        t.fault = none ∧ t.params = s.params ∧ t.env.host = s.env.host ∧ t.env.resets = s.env.countdown.resets) ∧
    (∀ b bs, o = .hostRead → s.env.host = b :: bs →
      step s = .next (runBridge rest { s with
        trace := s.trace ++ [.hostIn b]
        caller := { s.caller with p := b }
        env := { s.env.countdown with host := bs } })) ∧
    (∀ b, (o = .hostWriteV ∧ b = s.caller.v ∨ o = .hostWriteByte b) → s.env.txReady = true →
      step s = .next (runBridge rest { s with
        trace := s.trace ++ [.hostOut b]
        env := s.env.countdown.afterTx }))

/-- From an idle bus an I2C read bridge makes exactly the conditions START, START, STOP, in that order (R183). -/
def Obligations.I2cReadBridgeMakesTwoStartsAndOneStop : Prop :=
  ∀ (alen d ah al n : Byte) (k : Nat) (tx : List Bool) (s : State), s.Ready → s.Free → s.Undisturbed → s.NoSclWait →
    addressLength s.params.alenCoding alen = some k → n ≠ 0 → s.env.tx = List.replicate n.toNat true ++ tx →
    s.lines.scl = .rel → s.lines.sda = .rel →
    ∃ t es, exec (.hostI2cRead alen d ah al n) s = .next t ∧ t.trace = s.trace ++ es ∧
      busConditions s.params s.lines es = [.start, .start, .stop]

/-- From an idle bus an I2C write bridge makes exactly one START and one STOP (R183). -/
def Obligations.I2cWriteBridgeMakesOneStartAndOneStop : Prop :=
  ∀ (alen d ah al n : Byte) (k : Nat) (payload rest : List Byte) (tx : List Bool) (s : State),
    s.Ready → s.Free → s.Undisturbed → s.NoSclWait →
    addressLength s.params.alenCoding alen = some k → n ≠ 0 → payload.length = n.toNat →
    s.env.host = payload ++ rest → s.env.tx = true :: tx → s.lines.scl = .rel → s.lines.sda = .rel →
    ∃ t es, exec (.hostI2cWrite alen d ah al n) s = .next t ∧ t.trace = s.trace ++ es ∧
      busConditions s.params s.lines es = [.start, .stop]

/-- R172: a bridge whose address-length is neither of the two values, or whose length is 0, is refused. -/
def Obligations.RefusedFieldsStopTheBridge : Prop :=
  ∀ (alen d ah al : Byte) (s : State),
    (addressLength s.params.alenCoding alen = none → ∀ n,
      exec (.hostI2cRead alen d ah al n) s = .refused (.addressLengthByte alen) ∧
      exec (.hostI2cWrite alen d ah al n) s = .refused (.addressLengthByte alen)) ∧
    (addressLength s.params.alenCoding alen ≠ none →
      exec (.hostI2cRead alen d ah al 0) s = .refused .zeroLength ∧
      exec (.hostI2cWrite alen d ah al 0) s = .refused .zeroLength) ∧
    exec (.hostSpiRead ah al 0) s = .refused .zeroLength ∧ exec (.hostSpiWrite ah al 0) s = .refused .zeroLength

/-- A refused field stops the run as soon as it is read, whatever bytes follow it or not (R172). -/
def Obligations.RefusedFieldsStopTheHeader : Prop :=
  ∀ (s : State) (rest : List Byte), s.Ready → s.Free → s.Undisturbed → s.caller.hdr = [] → s.caller.queue = [] →
    (∀ c o, (c = 0x49 ∨ c = 0x50) → o ≠ 0x52 → o ≠ 0x57 → s.env.host = c :: o :: rest →
      step s = .refused (.operationByte o)) ∧
    (∀ o alen, (o = 0x52 ∨ o = 0x57) → addressLength s.params.alenCoding alen = none →
      s.env.host = 0x49 :: o :: alen :: rest → step s = .refused (.addressLengthByte alen)) ∧
    (∀ o alen d ah al, (o = 0x52 ∨ o = 0x57) → addressLength s.params.alenCoding alen ≠ none →
      s.env.host = 0x49 :: o :: alen :: d :: ah :: al :: 0 :: rest → step s = .refused .zeroLength) ∧
    (∀ o ah al, (o = 0x52 ∨ o = 0x57) → s.env.host = 0x50 :: o :: ah :: al :: 0 :: rest →
      step s = .refused .zeroLength)

/-! ## Steps -/

/-- A step of a free, ready block whose caller is about to issue a legal word runs the decoded instruction, the word
taken off the queue and one boundary passed (R8, R29, R203; log entry 28). -/
def Obligations.StepRunsTheIssuedRequest : Prop :=
  ∀ (w : Word16) (i : Instr) (q : List CallerStep) (s : State), s.Ready → s.Free → s.resetDue = false →
    s.caller.hdr = [] → s.caller.queue = .issue w :: q → decodeRequest w = .ok i →
    step s = exec i (s.setQueue q).countdown

/-- A step of a free, ready block with the rest of a header on the host channel, `read` of it having been read before,
reads it, records its bytes and runs the command (R171, R174). -/
def Obligations.StepRunsTheHostCommand : Prop :=
  ∀ (i : Instr) (read hdr rest : List Byte) (q : List CallerStep) (s : State), s.Ready → s.Free → s.Undisturbed →
    s.caller.hdr = read →
    ((read ≠ [] ∧ q = s.caller.queue) ∨
      (read = [] ∧ (s.caller.queue = .serve :: q ∨ (s.caller.queue = [] ∧ q = [])))) →
    encode i = .host (read ++ hdr) → hdr ≠ [] → i.wellFormed s.params.alenCoding = true → s.env.host = hdr ++ rest →
    step s = exec i { s with
      trace := s.trace ++ hdr.map .hostIn
      caller := { s.caller with hdr := [], queue := q }
      env := { s.env with host := rest } }

/-- A caller with nothing to do waits (R171, R223); and one whose header has not all come, `read` of it having been read
before and `now` being there, reads and records what is there, keeps it, and waits for the rest (R171, R174). That waiting
is a next state is the model's choice (log entry 9). -/
def Obligations.IdleMachineWaits : Prop :=
  ∀ s : State, s.Ready → s.Free → s.Undisturbed →
    (s.caller.hdr = [] → s.caller.queue = [] → s.env.host = [] → step s = .next s) ∧
    ∀ (i : Instr) (read now more : List Byte) (q : List CallerStep), s.caller.hdr = read → s.env.host = now →
      encode i = .host (read ++ now ++ more) → more ≠ [] → i.wellFormed s.params.alenCoding = true →
      ((read ≠ [] ∧ q = s.caller.queue) ∨
        (read = [] ∧ ((s.caller.queue = [] ∧ q = []) ∨ (now ≠ [] ∧ s.caller.queue = .serve :: q) ∨
          (now = [] ∧ q = s.caller.queue ∧ s.caller.queue.head? = some .serve)))) →
      step s = .next { s with
        trace := s.trace ++ now.map .hostIn
        caller := { s.caller with hdr := read ++ now, queue := q }
        env := { s.env with host := [] } }

/-! ## The fault -/

/-- R201: an ILLEGAL word sets the fault mark with the word and records `Fault`, before any micro-operation: no line
changes, there is no `Req` and no `Resp`, the phase stays `IDLE`. -/
def Obligations.IllegalRequestFaults : Prop :=
  ∀ (w : Word16) (q : List CallerStep) (s : State), s.Ready → s.Free → s.resetDue = false → s.caller.hdr = [] →
    s.caller.queue = .issue w :: q → (∀ i, decodeRequest w ≠ .ok i) →
    ∃ t, step s = .next t ∧ t = { s with
      fault := some (.illegalRequest w)
      trace := s.trace ++ [.fault (.illegalRequest w)]
      caller := { s.caller with queue := q } }

/-- R203: a request is accepted only in `IDLE` with no fault mark. With the mark set none is accepted and the caller has
no next step until reset; while a request is in progress none can arrive (the model refuses it, I17, log entry 13). -/
def Obligations.RequestsAreAcceptedOnlyIdleAndUnfaulted : Prop :=
  ∀ (f : FaultReason) (r r' : Request) (k : Nat) (s : State),
    (s.Ready → ∃ t, exec r.toInstr s = .next t) ∧
    (s.fault = some f → exec r.toInstr s = .fault (.stuckUntilReset f) ∧
      (s.Undisturbed → step s = .fault (.stuckUntilReset f))) ∧
    (s.fault = none → s.phase = .busy r' k → exec r.toInstr s = .refused .callerBusy)

/-- R208: the only way out of a fault is a reset. -/
def Obligations.OnlyResetLeavesAFault : Prop :=
  ∀ (f : FaultReason) (s t : State), s.fault = some f → step s = .next t →
    t.fault = none ∧ t.phase = .idle ∧ t.lines = Lines.reset ∧ t.trace = s.trace ++ [.reset]

/-! ## Reset -/

/-- R38 to R40: the lines, the phase, the fault mark and the trace after power-on. -/
def Obligations.PowerOnState : Prop :=
  State.reset.lines.scl = .rel ∧ State.reset.lines.sda = .rel ∧ State.reset.lines.cs = .deasserted ∧
  State.reset.lines.sck = false ∧ State.reset.lines.mosi = false ∧ State.reset.phase = .idle ∧
  State.reset.fault = none ∧ State.reset.trace = []

/-- R221: a reset that comes takes every field to its reset value in one step, whatever is in progress, appends `Reset`
and keeps the trace; there is no response. -/
def Obligations.ResetTakesEveryFieldToItsResetValue : Prop :=
  ∀ s : State, s.resetDue = true →
    ∃ t, step s = .next t ∧ t.lines.scl = .rel ∧ t.lines.sda = .rel ∧ t.lines.cs = .deasserted ∧
      t.lines.sck = false ∧ t.lines.mosi = false ∧ t.phase = .idle ∧ t.fault = none ∧
      t.trace = s.trace ++ [.reset] ∧ t.params = s.params ∧ t.env.resets = s.env.resets.tail

/-- A reset after any number of a request's micro-operations, the polls of SCL among them, ends it there: exactly those
micro-operations were performed, the lines are the reset lines, there is no response (R220, R221), and the reset itself
makes no bus condition (R222). The same in every step, so inside a host command, between its requests, before a byte of
the host channel or the settle delay, and within a request: what the undisturbed step does up to that place has happened,
and nothing after it. The model's choices: that each poll that reads 0 is one step (log entry 8), which places count (log
entry 28), and that the header and the bridge in progress are dropped while what comes from outside stays (log entry 21).
-/
def Obligations.ResetCutsARequestAnywhere : Prop :=
  (∀ (r : Request) (j : Nat) (rest stretches : List Nat) (levels : List Bit) (s : State), s.Ready →
    s.env.resets = j :: rest → s.Answers r stretches levels →
    j < (withSclPolls stretches (requestEvents s.params r levels)).length →
    ∃ u t es, exec r.toInstr s = .next u ∧
      core.run (((withSclPolls stretches (requestEvents s.params r levels)).take j).count (.sample .scl false)) u
        = .next t ∧
      t.trace = s.trace ++ es ++ [.reset] ∧
      es = .req (specWord r) :: (withSclPolls stretches (requestEvents s.params r levels)).take j ∧
      busConditions s.params s.lines (es ++ [.reset]) = busConditions s.params s.lines es ∧
      t.lines = Lines.reset ∧ t.phase = .idle ∧ t.fault = none ∧ t.params = s.params ∧ t.env.resets = rest) ∧
  ∀ (j : Nat) (rest : List Nat) (es : List Event) (s u : State), s.WaitsOnlyForScl → s.env.resets = j :: rest →
    step { s with env := { s.env with resets := [] } } = .next u → u.trace = s.trace ++ es →
    j < es.countP Event.atBoundary →
    ∃ t, step s = .next t ∧ t.trace = s.trace ++ beforeBoundary j es ++ [.reset] ∧ t.lines = Lines.reset ∧
      t.phase = .idle ∧ t.fault = none ∧ t.params = s.params ∧ t.caller.hdr = [] ∧ t.caller.bridge = [] ∧
      t.caller.resp = none ∧ t.caller.queue = (if j = 0 then s.caller.queue else u.caller.queue) ∧
      t.env.host = s.env.host.drop ((beforeBoundary j es).countP Event.isHostIn) ∧ t.env.resets = rest

/-! ## Invariants that every step keeps -/

/-- R12: the trace is never shortened. -/
def Obligations.TraceIsNeverShortened : Prop :=
  ∀ s t : State, step s = .next t → ∃ es, t.trace = s.trace ++ es

/-- R2: the parameters are fixed. -/
def Obligations.ParametersNeverChange : Prop :=
  ∀ s t : State, step s = .next t → t.params = s.params

/-- R10, R12, R61: the trace order is the line order: replaying the trace gives the lines. Every step keeps it. -/
def Obligations.TraceTellsTheLinesIsKept : Prop :=
  ∀ s t : State, s.TraceTellsLines → step s = .next t → t.TraceTellsLines

/-- It holds at power-on. -/
def Obligations.TraceTellsTheLinesAtReset : Prop := State.reset.TraceTellsLines

/-- R146 with R104 and R141: between steps SCK is 0 and a request in progress is an I2C request that polls SCL. Every
step keeps it. -/
def Obligations.SckLowBetweenStepsIsKept : Prop :=
  ∀ s t : State, s.SckLow → step s = .next t → t.SckLow

/-- It holds at power-on. -/
def Obligations.SckLowAtReset : Prop := State.reset.SckLow

/-- R30, R201, R203: a set fault mark has its event in the trace and the block is idle. Every step keeps it. -/
def Obligations.FaultMarkIsToldIsKept : Prop :=
  ∀ s t : State, s.FaultTold → step s = .next t → t.FaultTold

/-- It holds at power-on. -/
def Obligations.FaultMarkIsToldAtReset : Prop := State.reset.FaultTold
end

