-- ==== Sys2Proof/Laws/State.lean ====
section
/-! SUPPORT. Each update of State, field by field: what it writes and what it leaves. -/

namespace Sys2Proof.Machine

variable (s : State)

@[simp] theorem State.setLines_lines (l : Lines) : (s.setLines l).lines = l := rfl
@[simp] theorem State.setLines_work (l : Lines) : (s.setLines l).work = s.work := rfl
@[simp] theorem State.setLines_phase (l : Lines) : (s.setLines l).phase = s.phase := rfl
@[simp] theorem State.setLines_fault (l : Lines) : (s.setLines l).fault = s.fault := rfl
@[simp] theorem State.setLines_trace (l : Lines) : (s.setLines l).trace = s.trace := rfl
@[simp] theorem State.setLines_params (l : Lines) : (s.setLines l).params = s.params := rfl
@[simp] theorem State.setLines_caller (l : Lines) : (s.setLines l).caller = s.caller := rfl
@[simp] theorem State.setLines_env (l : Lines) : (s.setLines l).env = s.env := rfl

@[simp] theorem State.setWork_lines (w : Work) : (s.setWork w).lines = s.lines := rfl
@[simp] theorem State.setWork_work (w : Work) : (s.setWork w).work = w := rfl
@[simp] theorem State.setWork_phase (w : Work) : (s.setWork w).phase = s.phase := rfl
@[simp] theorem State.setWork_fault (w : Work) : (s.setWork w).fault = s.fault := rfl
@[simp] theorem State.setWork_trace (w : Work) : (s.setWork w).trace = s.trace := rfl
@[simp] theorem State.setWork_params (w : Work) : (s.setWork w).params = s.params := rfl
@[simp] theorem State.setWork_caller (w : Work) : (s.setWork w).caller = s.caller := rfl
@[simp] theorem State.setWork_env (w : Work) : (s.setWork w).env = s.env := rfl

@[simp] theorem State.setPhase_lines (p : Phase) : (s.setPhase p).lines = s.lines := rfl
@[simp] theorem State.setPhase_work (p : Phase) : (s.setPhase p).work = s.work := rfl
@[simp] theorem State.setPhase_phase (p : Phase) : (s.setPhase p).phase = p := rfl
@[simp] theorem State.setPhase_fault (p : Phase) : (s.setPhase p).fault = s.fault := rfl
@[simp] theorem State.setPhase_trace (p : Phase) : (s.setPhase p).trace = s.trace := rfl
@[simp] theorem State.setPhase_params (p : Phase) : (s.setPhase p).params = s.params := rfl
@[simp] theorem State.setPhase_caller (p : Phase) : (s.setPhase p).caller = s.caller := rfl
@[simp] theorem State.setPhase_env (p : Phase) : (s.setPhase p).env = s.env := rfl

@[simp] theorem State.setFault_lines (f : Option FaultReason) : (s.setFault f).lines = s.lines := rfl
@[simp] theorem State.setFault_work (f : Option FaultReason) : (s.setFault f).work = s.work := rfl
@[simp] theorem State.setFault_phase (f : Option FaultReason) : (s.setFault f).phase = s.phase := rfl
@[simp] theorem State.setFault_fault (f : Option FaultReason) : (s.setFault f).fault = f := rfl
@[simp] theorem State.setFault_trace (f : Option FaultReason) : (s.setFault f).trace = s.trace := rfl
@[simp] theorem State.setFault_params (f : Option FaultReason) : (s.setFault f).params = s.params := rfl
@[simp] theorem State.setFault_caller (f : Option FaultReason) : (s.setFault f).caller = s.caller := rfl
@[simp] theorem State.setFault_env (f : Option FaultReason) : (s.setFault f).env = s.env := rfl

@[simp] theorem State.setCaller_lines (c : Caller) : (s.setCaller c).lines = s.lines := rfl
@[simp] theorem State.setCaller_work (c : Caller) : (s.setCaller c).work = s.work := rfl
@[simp] theorem State.setCaller_phase (c : Caller) : (s.setCaller c).phase = s.phase := rfl
@[simp] theorem State.setCaller_fault (c : Caller) : (s.setCaller c).fault = s.fault := rfl
@[simp] theorem State.setCaller_trace (c : Caller) : (s.setCaller c).trace = s.trace := rfl
@[simp] theorem State.setCaller_params (c : Caller) : (s.setCaller c).params = s.params := rfl
@[simp] theorem State.setCaller_caller (c : Caller) : (s.setCaller c).caller = c := rfl
@[simp] theorem State.setCaller_env (c : Caller) : (s.setCaller c).env = s.env := rfl

@[simp] theorem State.setEnv_lines (e : Env) : (s.setEnv e).lines = s.lines := rfl
@[simp] theorem State.setEnv_work (e : Env) : (s.setEnv e).work = s.work := rfl
@[simp] theorem State.setEnv_phase (e : Env) : (s.setEnv e).phase = s.phase := rfl
@[simp] theorem State.setEnv_fault (e : Env) : (s.setEnv e).fault = s.fault := rfl
@[simp] theorem State.setEnv_trace (e : Env) : (s.setEnv e).trace = s.trace := rfl
@[simp] theorem State.setEnv_params (e : Env) : (s.setEnv e).params = s.params := rfl
@[simp] theorem State.setEnv_caller (e : Env) : (s.setEnv e).caller = s.caller := rfl
@[simp] theorem State.setEnv_env (e : Env) : (s.setEnv e).env = e := rfl

@[simp] theorem State.log_lines (e : Event) : (s.log e).lines = s.lines := rfl
@[simp] theorem State.log_work (e : Event) : (s.log e).work = s.work := rfl
@[simp] theorem State.log_phase (e : Event) : (s.log e).phase = s.phase := rfl
@[simp] theorem State.log_fault (e : Event) : (s.log e).fault = s.fault := rfl
@[simp] theorem State.log_trace (e : Event) : (s.log e).trace = s.trace ++ [e] := rfl
@[simp] theorem State.log_params (e : Event) : (s.log e).params = s.params := rfl
@[simp] theorem State.log_caller (e : Event) : (s.log e).caller = s.caller := rfl
@[simp] theorem State.log_env (e : Event) : (s.log e).env = s.env := rfl

@[simp] theorem State.setBridge_lines (b : List BridgeOp) : (s.setBridge b).lines = s.lines := rfl
@[simp] theorem State.setBridge_work (b : List BridgeOp) : (s.setBridge b).work = s.work := rfl
@[simp] theorem State.setBridge_phase (b : List BridgeOp) : (s.setBridge b).phase = s.phase := rfl
@[simp] theorem State.setBridge_fault (b : List BridgeOp) : (s.setBridge b).fault = s.fault := rfl
@[simp] theorem State.setBridge_trace (b : List BridgeOp) : (s.setBridge b).trace = s.trace := rfl
@[simp] theorem State.setBridge_params (b : List BridgeOp) : (s.setBridge b).params = s.params := rfl
@[simp] theorem State.setBridge_caller (b : List BridgeOp) :
    (s.setBridge b).caller = { s.caller with bridge := b } := rfl
@[simp] theorem State.setBridge_env (b : List BridgeOp) : (s.setBridge b).env = s.env := rfl

@[simp] theorem State.setHdr_lines (h : List Byte) : (s.setHdr h).lines = s.lines := rfl
@[simp] theorem State.setHdr_work (h : List Byte) : (s.setHdr h).work = s.work := rfl
@[simp] theorem State.setHdr_phase (h : List Byte) : (s.setHdr h).phase = s.phase := rfl
@[simp] theorem State.setHdr_fault (h : List Byte) : (s.setHdr h).fault = s.fault := rfl
@[simp] theorem State.setHdr_trace (h : List Byte) : (s.setHdr h).trace = s.trace := rfl
@[simp] theorem State.setHdr_params (h : List Byte) : (s.setHdr h).params = s.params := rfl
@[simp] theorem State.setHdr_caller (h : List Byte) : (s.setHdr h).caller = { s.caller with hdr := h } := rfl
@[simp] theorem State.setHdr_env (h : List Byte) : (s.setHdr h).env = s.env := rfl

@[simp] theorem State.setQueue_lines (q : List CallerStep) : (s.setQueue q).lines = s.lines := rfl
@[simp] theorem State.setQueue_work (q : List CallerStep) : (s.setQueue q).work = s.work := rfl
@[simp] theorem State.setQueue_phase (q : List CallerStep) : (s.setQueue q).phase = s.phase := rfl
@[simp] theorem State.setQueue_fault (q : List CallerStep) : (s.setQueue q).fault = s.fault := rfl
@[simp] theorem State.setQueue_trace (q : List CallerStep) : (s.setQueue q).trace = s.trace := rfl
@[simp] theorem State.setQueue_params (q : List CallerStep) : (s.setQueue q).params = s.params := rfl
@[simp] theorem State.setQueue_caller (q : List CallerStep) :
    (s.setQueue q).caller = { s.caller with queue := q } := rfl
@[simp] theorem State.setQueue_env (q : List CallerStep) : (s.setQueue q).env = s.env := rfl

@[simp] theorem State.setResp_lines (v : Option Byte) : (s.setResp v).lines = s.lines := rfl
@[simp] theorem State.setResp_work (v : Option Byte) : (s.setResp v).work = s.work := rfl
@[simp] theorem State.setResp_phase (v : Option Byte) : (s.setResp v).phase = s.phase := rfl
@[simp] theorem State.setResp_fault (v : Option Byte) : (s.setResp v).fault = s.fault := rfl
@[simp] theorem State.setResp_trace (v : Option Byte) : (s.setResp v).trace = s.trace := rfl
@[simp] theorem State.setResp_params (v : Option Byte) : (s.setResp v).params = s.params := rfl
@[simp] theorem State.setResp_caller (v : Option Byte) : (s.setResp v).caller = { s.caller with resp := v } := rfl
@[simp] theorem State.setResp_env (v : Option Byte) : (s.setResp v).env = s.env := rfl

@[simp] theorem State.setHost_lines (bs : List Byte) : (s.setHost bs).lines = s.lines := rfl
@[simp] theorem State.setHost_work (bs : List Byte) : (s.setHost bs).work = s.work := rfl
@[simp] theorem State.setHost_phase (bs : List Byte) : (s.setHost bs).phase = s.phase := rfl
@[simp] theorem State.setHost_fault (bs : List Byte) : (s.setHost bs).fault = s.fault := rfl
@[simp] theorem State.setHost_trace (bs : List Byte) : (s.setHost bs).trace = s.trace := rfl
@[simp] theorem State.setHost_params (bs : List Byte) : (s.setHost bs).params = s.params := rfl
@[simp] theorem State.setHost_caller (bs : List Byte) : (s.setHost bs).caller = s.caller := rfl
@[simp] theorem State.setHost_env (bs : List Byte) : (s.setHost bs).env = { s.env with host := bs } := rfl

@[simp] theorem State.countdown_lines : (s.countdown).lines = s.lines := rfl
@[simp] theorem State.countdown_work : (s.countdown).work = s.work := rfl
@[simp] theorem State.countdown_phase : (s.countdown).phase = s.phase := rfl
@[simp] theorem State.countdown_fault : (s.countdown).fault = s.fault := rfl
@[simp] theorem State.countdown_trace : (s.countdown).trace = s.trace := rfl
@[simp] theorem State.countdown_params : (s.countdown).params = s.params := rfl
@[simp] theorem State.countdown_caller : (s.countdown).caller = s.caller := rfl
@[simp] theorem State.countdown_env : (s.countdown).env = s.env.countdown := rfl

@[simp] theorem State.driveLine_lines (l : I2cLine) (d : Drive) :
    (s.driveLine l d).lines = s.lines.setDrive l d := rfl
@[simp] theorem State.driveLine_work (l : I2cLine) (d : Drive) : (s.driveLine l d).work = s.work := rfl
@[simp] theorem State.driveLine_phase (l : I2cLine) (d : Drive) : (s.driveLine l d).phase = s.phase := rfl
@[simp] theorem State.driveLine_fault (l : I2cLine) (d : Drive) : (s.driveLine l d).fault = s.fault := rfl
@[simp] theorem State.driveLine_trace (l : I2cLine) (d : Drive) :
    (s.driveLine l d).trace = s.trace ++ [match d with | .low => .low l | .rel => .rel l] := rfl
@[simp] theorem State.driveLine_params (l : I2cLine) (d : Drive) : (s.driveLine l d).params = s.params := rfl
@[simp] theorem State.driveLine_caller (l : I2cLine) (d : Drive) : (s.driveLine l d).caller = s.caller := rfl
@[simp] theorem State.driveLine_env (l : I2cLine) (d : Drive) : (s.driveLine l d).env = s.env := rfl

@[simp] theorem State.setLine_lines (l : SpiOut) (v : Bit) :
    (s.setLine l v).lines = s.lines.setOut s.params l v := rfl
@[simp] theorem State.setLine_work (l : SpiOut) (v : Bit) : (s.setLine l v).work = s.work := rfl
@[simp] theorem State.setLine_phase (l : SpiOut) (v : Bit) : (s.setLine l v).phase = s.phase := rfl
@[simp] theorem State.setLine_fault (l : SpiOut) (v : Bit) : (s.setLine l v).fault = s.fault := rfl
@[simp] theorem State.setLine_trace (l : SpiOut) (v : Bit) : (s.setLine l v).trace = s.trace ++ [.set l v] := rfl
@[simp] theorem State.setLine_params (l : SpiOut) (v : Bit) : (s.setLine l v).params = s.params := rfl
@[simp] theorem State.setLine_caller (l : SpiOut) (v : Bit) : (s.setLine l v).caller = s.caller := rfl
@[simp] theorem State.setLine_env (l : SpiOut) (v : Bit) : (s.setLine l v).env = s.env := rfl

@[simp] theorem State.sample_lines (l : InputLine) : (s.sample l).lines = s.lines := rfl
@[simp] theorem State.sample_work (l : InputLine) : (s.sample l).work = { s.work with smp := s.sampleValue l } := rfl
@[simp] theorem State.sample_phase (l : InputLine) : (s.sample l).phase = s.phase := rfl
@[simp] theorem State.sample_fault (l : InputLine) : (s.sample l).fault = s.fault := rfl
@[simp] theorem State.sample_trace (l : InputLine) :
    (s.sample l).trace = s.trace ++ [.sample l (s.sampleValue l)] := rfl
@[simp] theorem State.sample_params (l : InputLine) : (s.sample l).params = s.params := rfl
@[simp] theorem State.sample_caller (l : InputLine) : (s.sample l).caller = s.caller := rfl
@[simp] theorem State.sample_env (l : InputLine) : (s.sample l).env = s.env.afterBit := rfl

@[simp] theorem State.assign_lines (ws : List WorkOp) : (s.assign ws).lines = s.lines := rfl
@[simp] theorem State.assign_work (ws : List WorkOp) : (s.assign ws).work = ws.foldl Work.apply s.work := rfl
@[simp] theorem State.assign_phase (ws : List WorkOp) : (s.assign ws).phase = s.phase := rfl
@[simp] theorem State.assign_fault (ws : List WorkOp) : (s.assign ws).fault = s.fault := rfl
@[simp] theorem State.assign_trace (ws : List WorkOp) : (s.assign ws).trace = s.trace := rfl
@[simp] theorem State.assign_params (ws : List WorkOp) : (s.assign ws).params = s.params := rfl
@[simp] theorem State.assign_caller (ws : List WorkOp) : (s.assign ws).caller = s.caller := rfl
@[simp] theorem State.assign_env (ws : List WorkOp) : (s.assign ws).env = s.env := rfl

@[simp] theorem State.raiseIllegal_lines (w : Word16) : (s.raiseIllegal w).lines = s.lines := rfl
@[simp] theorem State.raiseIllegal_work (w : Word16) : (s.raiseIllegal w).work = s.work := rfl
@[simp] theorem State.raiseIllegal_phase (w : Word16) : (s.raiseIllegal w).phase = s.phase := rfl
@[simp] theorem State.raiseIllegal_fault (w : Word16) : (s.raiseIllegal w).fault = some (.illegalRequest w) := rfl
@[simp] theorem State.raiseIllegal_trace (w : Word16) :
    (s.raiseIllegal w).trace = s.trace ++ [.fault (.illegalRequest w)] := rfl
@[simp] theorem State.raiseIllegal_params (w : Word16) : (s.raiseIllegal w).params = s.params := rfl
@[simp] theorem State.raiseIllegal_caller (w : Word16) : (s.raiseIllegal w).caller = s.caller := rfl
@[simp] theorem State.raiseIllegal_env (w : Word16) : (s.raiseIllegal w).env = s.env := rfl

@[simp] theorem State.hardwareReset_lines : (s.hardwareReset).lines = Lines.reset := rfl
@[simp] theorem State.hardwareReset_work : (s.hardwareReset).work = Work.unspecified s.env.draws := rfl
@[simp] theorem State.hardwareReset_phase : (s.hardwareReset).phase = .idle := rfl
@[simp] theorem State.hardwareReset_fault : (s.hardwareReset).fault = none := rfl
@[simp] theorem State.hardwareReset_trace : (s.hardwareReset).trace = s.trace ++ [.reset] := rfl
@[simp] theorem State.hardwareReset_params : (s.hardwareReset).params = s.params := rfl
@[simp] theorem State.hardwareReset_caller : (s.hardwareReset).caller = s.caller.afterReset s.env.draws := rfl
@[simp] theorem State.hardwareReset_env : (s.hardwareReset).env = s.env.afterReset := rfl

@[simp] theorem State.accept_lines (r : Request) : (s.accept r).lines = s.lines := rfl
@[simp] theorem State.accept_work (r : Request) : (s.accept r).work = (initialWork r).foldl Work.apply s.work := rfl
@[simp] theorem State.accept_phase (r : Request) : (s.accept r).phase = .busy r 0 := rfl
@[simp] theorem State.accept_fault (r : Request) : (s.accept r).fault = s.fault := rfl
@[simp] theorem State.accept_trace (r : Request) : (s.accept r).trace = s.trace ++ [.req (requestWord r)] := rfl
@[simp] theorem State.accept_params (r : Request) : (s.accept r).params = s.params := rfl
@[simp] theorem State.accept_caller (r : Request) : (s.accept r).caller = s.caller := rfl
@[simp] theorem State.accept_env (r : Request) : (s.accept r).env = s.env := rfl

@[simp] theorem State.complete_lines (r : Request) : (s.complete r).lines = s.lines := rfl
@[simp] theorem State.complete_work (r : Request) : (s.complete r).work = s.work := rfl
@[simp] theorem State.complete_phase (r : Request) : (s.complete r).phase = .idle := rfl
@[simp] theorem State.complete_fault (r : Request) : (s.complete r).fault = s.fault := rfl
@[simp] theorem State.complete_trace (r : Request) :
    (s.complete r).trace = s.trace ++ [.resp (response r s.work)] := rfl
@[simp] theorem State.complete_params (r : Request) : (s.complete r).params = s.params := rfl
@[simp] theorem State.complete_caller (r : Request) :
    (s.complete r).caller = { s.caller with resp := response r s.work } := rfl
@[simp] theorem State.complete_env (r : Request) : (s.complete r).env = s.env := rfl

@[simp] theorem State.takeHost_lines (b : Byte) (bs : List Byte) : (s.takeHost b bs).lines = s.lines := rfl
@[simp] theorem State.takeHost_work (b : Byte) (bs : List Byte) : (s.takeHost b bs).work = s.work := rfl
@[simp] theorem State.takeHost_phase (b : Byte) (bs : List Byte) : (s.takeHost b bs).phase = s.phase := rfl
@[simp] theorem State.takeHost_fault (b : Byte) (bs : List Byte) : (s.takeHost b bs).fault = s.fault := rfl
@[simp] theorem State.takeHost_trace (b : Byte) (bs : List Byte) :
    (s.takeHost b bs).trace = s.trace ++ [.hostIn b] := rfl
@[simp] theorem State.takeHost_params (b : Byte) (bs : List Byte) : (s.takeHost b bs).params = s.params := rfl
@[simp] theorem State.takeHost_caller (b : Byte) (bs : List Byte) : (s.takeHost b bs).caller = s.caller := rfl
@[simp] theorem State.takeHost_env (b : Byte) (bs : List Byte) :
    (s.takeHost b bs).env = { s.env with host := bs } := rfl

@[simp] theorem State.setP_lines (b : Byte) : (s.setP b).lines = s.lines := rfl
@[simp] theorem State.setP_work (b : Byte) : (s.setP b).work = s.work := rfl
@[simp] theorem State.setP_phase (b : Byte) : (s.setP b).phase = s.phase := rfl
@[simp] theorem State.setP_fault (b : Byte) : (s.setP b).fault = s.fault := rfl
@[simp] theorem State.setP_trace (b : Byte) : (s.setP b).trace = s.trace := rfl
@[simp] theorem State.setP_params (b : Byte) : (s.setP b).params = s.params := rfl
@[simp] theorem State.setP_caller (b : Byte) : (s.setP b).caller = { s.caller with p := b } := rfl
@[simp] theorem State.setP_env (b : Byte) : (s.setP b).env = s.env := rfl

@[simp] theorem State.capture_lines : (s.capture).lines = s.lines := rfl
@[simp] theorem State.capture_work : (s.capture).work = s.work := rfl
@[simp] theorem State.capture_phase : (s.capture).phase = s.phase := rfl
@[simp] theorem State.capture_fault : (s.capture).fault = s.fault := rfl
@[simp] theorem State.capture_trace : (s.capture).trace = s.trace := rfl
@[simp] theorem State.capture_params : (s.capture).params = s.params := rfl
@[simp] theorem State.capture_caller :
    (s.capture).caller = { s.caller with v := s.caller.resp.getD s.caller.v } := rfl
@[simp] theorem State.capture_env : (s.capture).env = s.env := rfl

end Sys2Proof.Machine
end

