-- ==== Sys2Proof/Laws/Ops.lean ====
section
/-! SUPPORT. What each shared operation does, said once: operands, inputs, lines, micro-operations, runs, acceptance,
bridges, headers and steps. -/

namespace Sys2Proof.Machine

/-! Operands. -/

theorem addrByte_bit0 (f : AddrForm) (d : Byte) (rw : Bit) : (addrByte f d rw).getLsbD 0 = rw := by
  cases f <;> cases rw <;> simp [addrByte, zext8, shl1]

theorem shiftIn_bit0 (acc : Byte) (s : Bit) : (shiftIn acc s).getLsbD 0 = s := by
  cases s <;> simp [shiftIn, zext8, shl1]

@[simp] theorem csOfLevel_csLevel (p : Params) (c : CsState) : csOfLevel p (csLevel p c) = c := by
  cases c <;> cases h : p.csActiveLow <;> simp [csOfLevel, csLevel, h]

/-! Boundaries (log entry 28). -/

/-- What a reset leaves of a step's events is the beginning of them. -/
theorem beforeBoundary_prefix (j : Nat) (es : List Event) : beforeBoundary j es <+: es := by
  induction es generalizing j with
  | nil => exact List.prefix_rfl
  | cons e es ih =>
    unfold beforeBoundary
    split
    · cases j with
      | zero => exact List.nil_prefix
      | succ j => exact List.cons_prefix_cons.2 ⟨rfl, ih j⟩
    · exact List.cons_prefix_cons.2 ⟨rfl, ih j⟩

/-- A reset after fewer boundaries than the first part of the events has leaves nothing of the second. -/
theorem beforeBoundary_append_lt {j : Nat} {xs : List Event} (ys : List Event) (h : j < xs.countP Event.atBoundary) :
    beforeBoundary j (xs ++ ys) = beforeBoundary j xs := by
  induction xs generalizing j with
  | nil => simp at h
  | cons x xs ih =>
    cases hx : x.atBoundary
    · simp only [List.countP_cons, hx] at h
      simp only [List.cons_append, beforeBoundary, hx]
      exact congrArg (x :: ·) (ih (by simpa using h))
    · cases j with
      | zero => simp [beforeBoundary, hx]
      | succ j =>
        simp only [List.countP_cons, hx] at h
        simp only [List.cons_append, beforeBoundary, hx, if_true]
        exact congrArg (x :: ·) (ih (by simpa using h))

/-- A reset after as many boundaries as the first part has, or more, leaves all of it. -/
theorem beforeBoundary_append_ge {j : Nat} {xs : List Event} (ys : List Event) (h : xs.countP Event.atBoundary ≤ j) :
    beforeBoundary j (xs ++ ys) = xs ++ beforeBoundary (j - xs.countP Event.atBoundary) ys := by
  induction xs generalizing j with
  | nil => simp
  | cons x xs ih =>
    cases hx : x.atBoundary
    · simp only [List.countP_cons, hx] at h ⊢
      simp only [List.cons_append, beforeBoundary, hx]
      simpa using ih (by simpa using h)
    · cases j with
      | zero => simp [hx] at h
      | succ j =>
        simp only [List.countP_cons, hx] at h ⊢
        simp only [List.cons_append, beforeBoundary, hx, if_true]
        simpa using ih (by simpa using h)

/-! Pins (R36). -/

/-- No two lines have one pin. -/
theorem linePins_nodup (a : PinAssignment) : a.lineMap.pins.Nodup := by
  have h := a.ok
  simp only [LineMap.ok, Bool.and_eq_true, decide_eq_true_eq] at h
  exact h.1

/-- No line has a task pin. -/
theorem taskPin_not_line (a : PinAssignment) {q : Pin} (h : q ∈ a.taskPins) : q ∉ a.lineMap.pins := fun hq => by
  have ho := a.ok
  simp only [LineMap.ok, Bool.and_eq_true, List.all_eq_true] at ho
  simpa [h] using ho.2 q hq

/-! Inputs. -/

@[simp] theorem Env.afterBit_resets (e : Env) : e.afterBit.resets = e.resets := by
  unfold Env.afterBit; split <;> rfl

@[simp] theorem Env.afterBit_host (e : Env) : e.afterBit.host = e.host := by
  unfold Env.afterBit; split <;> rfl

@[simp] theorem Env.afterBit_tx (e : Env) : e.afterBit.tx = e.tx := by
  unfold Env.afterBit; split <;> rfl

@[simp] theorem Env.afterTx_resets (e : Env) : e.afterTx.resets = e.resets := by
  unfold Env.afterTx; split <;> rfl

@[simp] theorem Env.afterTx_host (e : Env) : e.afterTx.host = e.host := by
  unfold Env.afterTx; split <;> rfl

theorem Env.resetDue_of_nil {e : Env} (h : e.resets = []) : e.resetDue = false := by
  simp [Env.resetDue, h]

theorem Env.countdown_of_nil {e : Env} (h : e.resets = []) : e.countdown = e := by
  simp [Env.countdown, h]

theorem State.resetDue_of_nil {s : State} (h : s.env.resets = []) : s.resetDue = false :=
  Env.resetDue_of_nil h

theorem State.countdown_of_nil {s : State} (h : s.env.resets = []) : s.countdown = s := by
  simp [State.countdown, State.setEnv, Env.countdown_of_nil h]

/-! Levels to come (Safety.lean). -/

@[simp] theorem Env.advance_resets (n : Nat) (e : Env) : (e.advance n).resets = e.resets := by
  induction n generalizing e with
  | zero => rfl
  | succ n ih => simp [Env.advance, ih]

@[simp] theorem Env.advance_host (n : Nat) (e : Env) : (e.advance n).host = e.host := by
  induction n generalizing e with
  | zero => rfl
  | succ n ih => simp [Env.advance, ih]

@[simp] theorem Env.advance_tx (n : Nat) (e : Env) : (e.advance n).tx = e.tx := by
  induction n generalizing e with
  | zero => rfl
  | succ n ih => simp [Env.advance, ih]

theorem Env.advance_add (m n : Nat) (e : Env) : e.advance (m + n) = (e.advance m).advance n := by
  induction m generalizing e with
  | zero => simp [Env.advance]
  | succ m ih => rw [Nat.succ_add]; exact ih e.afterBit

theorem Env.levels_length (n : Nat) (e : Env) : (e.levels n).length = n := by
  induction n generalizing e with
  | zero => rfl
  | succ n ih => simp [Env.levels, ih]

theorem Env.levels_add (m n : Nat) (e : Env) : e.levels (m + n) = e.levels m ++ (e.advance m).levels n := by
  induction m generalizing e with
  | zero => simp [Env.levels, Env.advance]
  | succ m ih => rw [Nat.succ_add]; exact congrArg (e.bit :: ·) (ih e.afterBit)

/-- Without polls of SCL the events are the request's own. -/
@[simp] theorem withSclPolls_nil (es : List Event) : withSclPolls [] es = es := by
  induction es with
  | nil => rfl
  | cons e es ih => simp [withSclPolls, ih]

/-- Without polls of SCL the levels are the data samples. -/
@[simp] theorem wireLevels_nil (r : Request) (levels : List Bit) : wireLevels r [] levels = levels := by
  cases r <;> simp [wireLevels, readLevels]

/-! Micro-operations. -/

/-- A micro-operation appends one event (R10), and touches nothing but the lines, the sampled bit, the trace and the
inputs. -/
theorem State.perform_spec (s : State) (o : MicroOp) :
    ∃ e, (s.perform o).trace = s.trace ++ [e] ∧ (s.perform o).lines = s.lines.afterEvent s.params e ∧
      (s.perform o).phase = s.phase ∧ (s.perform o).fault = s.fault ∧ (s.perform o).params = s.params ∧
      (s.perform o).caller = s.caller := by
  cases o with
  | low l => exact ⟨.low l, rfl, rfl, rfl, rfl, rfl, rfl⟩
  | rel l => exact ⟨.rel l, rfl, rfl, rfl, rfl, rfl, rfl⟩
  | sdaFromSh =>
    cases h : topBit s.work.i2cSh <;> simp only [State.perform, h, driveOf]
    · exact ⟨.low .sda, rfl, rfl, rfl, rfl, rfl, rfl⟩
    · exact ⟨.rel .sda, rfl, rfl, rfl, rfl, rfl, rfl⟩
  | set l v => exact ⟨.set l v, rfl, rfl, rfl, rfl, rfl, rfl⟩
  | mosiFromSh => exact ⟨.set .mosi _, rfl, rfl, rfl, rfl, rfl, rfl⟩
  | delay k => exact ⟨.delay k, rfl, rfl, rfl, rfl, rfl, rfl⟩
  | sample l => exact ⟨.sample l _, rfl, rfl, rfl, rfl, rfl, rfl⟩
  | waitHigh => exact ⟨.sample .scl _, rfl, rfl, rfl, rfl, rfl, rfl⟩

theorem State.perform_resets (s : State) (o : MicroOp) : (s.perform o).env.resets = s.env.resets := by
  cases o <;> simp [State.perform]

/-! Runs. -/

@[simp] theorem runMicros_nil (r : Request) (s : State) : runMicros r [] s = .finished (s.complete r) := rfl

/-- One micro-operation of a run: a reset comes first, or it is performed; a poll of SCL that reads 0 stops there. -/
theorem runMicros_cons (r : Request) (m : Micro) (ms : List Micro) (s : State) :
    runMicros r (m :: ms) s =
      if s.resetDue then .paused s.hardwareReset
      else if m.op.repeats (s.countdown.perform m.op) then .paused (s.countdown.perform m.op)
      else runMicros r ms (((s.countdown.perform m.op).assign m.after).setPhase s.phase.advance) := by
  have h : (s.countdown.perform m.op).phase = s.phase := by
    obtain ⟨_, _, _, h, _⟩ := State.perform_spec s.countdown m.op
    exact h
  simp only [runMicros, h]

/-- One micro-operation that is not disturbed and does not wait. -/
def doMicro (s : State) (m : Micro) : State := ((s.perform m.op).assign m.after).setPhase s.phase.advance

/-- With no reset coming and no poll of SCL in it, a sequence is performed to its end. -/
theorem runMicros_quiet (r : Request) (ms : List Micro) (s : State) (hr : s.env.resets = [])
    (hw : ∀ m ∈ ms, m.op ≠ .waitHigh) : runMicros r ms s = .finished ((ms.foldl doMicro s).complete r) := by
  induction ms generalizing s with
  | nil => rfl
  | cons m ms ih =>
    have hm : m.op.repeats (s.perform m.op) = false := by
      have := hw m (by simp)
      cases h : m.op <;> simp_all [MicroOp.repeats]
    rw [runMicros_cons, State.countdown_of_nil hr, State.resetDue_of_nil hr, hm]
    simpa [doMicro] using ih (doMicro s m) (by simp [doMicro, State.perform_resets, hr])
      (fun m' h => hw m' (by simp [h]))

/-- With no reset coming, a poll of SCL that reads 0 leaves the request at the poll. -/
theorem runMicros_poll_low (r : Request) (ms : List Micro) (s : State) (hr : s.env.resets = [])
    (h : s.sampleValue .scl = false) : runMicros r (op .waitHigh :: ms) s = .paused (s.sample .scl) := by
  rw [runMicros_cons, State.countdown_of_nil hr, State.resetDue_of_nil hr]
  simp [op, State.perform, MicroOp.repeats, h]

/-- With no reset coming, a poll of SCL that reads 1 lets the request go on. -/
theorem runMicros_poll_high (r : Request) (ms : List Micro) (s : State) (hr : s.env.resets = [])
    (h : s.sampleValue .scl = true) :
    runMicros r (op .waitHigh :: ms) s = runMicros r ms (doMicro s (op .waitHigh)) := by
  rw [runMicros_cons, State.countdown_of_nil hr, State.resetDue_of_nil hr]
  simp [doMicro, op, State.perform, MicroOp.repeats, h]

/-! Acceptance. -/

/-- What acceptance can answer. -/
theorem whenAccepting_next {s t u : State} {busy : Bool} (h : whenAccepting s busy t = .next u) :
    s.fault = none ∧ s.phase = .idle ∧ busy = false ∧ u = t := by
  unfold whenAccepting at h
  split at h
  · cases h
  · next hf =>
    split at h
    · cases h
    · next hp =>
      split at h
      · cases h
      · next hb => exact ⟨hf, hp, by simpa using hb, by injection h with h; exact h.symm⟩

/-- A ready block accepts. -/
theorem whenAccepting_ready {s : State} (t : State) (h : s.Ready) : whenAccepting s false t = .next t := by
  simp [whenAccepting, h.1, h.2]

/-- A faulted block accepts nothing. -/
theorem whenAccepting_faulted {s : State} {f : FaultReason} (busy : Bool) (t : State) (h : s.fault = some f) :
    whenAccepting s busy t = .fault (.stuckUntilReset f) := by
  simp [whenAccepting, h]

/-- The meaning of a request as an instruction is `issue`. -/
theorem exec_request (r : Request) (s : State) : exec r.toInstr s = issue r s := by
  cases r <;> rfl

/-! Bridges. -/

@[simp] theorem runBridge_nil (s : State) : runBridge [] s = s.setBridge [] := rfl

theorem runBridge_cons (o : BridgeOp) (rest : List BridgeOp) (s : State) :
    runBridge (o :: rest) s =
      match bridgeStep o rest s with
      | .finished t => runBridge rest t
      | .paused t => t := rfl

/-- What writing to the host can do. -/
theorem hostWrite_cases (self : List BridgeOp) (b : Byte) (s : State) :
    (s.countdown.env.txReady = true ∧
      hostWrite self b s = .finished ((s.countdown.setEnv s.countdown.env.afterTx).log (.hostOut b))) ∨
    (s.countdown.env.txReady = false ∧
      hostWrite self b s = .paused ((s.countdown.setEnv s.countdown.env.afterTx).setBridge self)) := by
  cases h : s.countdown.env.txReady
  · exact .inr ⟨rfl, by simp only [hostWrite, h]; rfl⟩
  · exact .inl ⟨rfl, by simp only [hostWrite, h]; rfl⟩

/-- What a caller step can do: a reset comes first, or it is done. -/
theorem callerStep_cases (s : State) (r : Run) :
    (s.resetDue = true ∧ callerStep s r = .paused s.hardwareReset) ∨ (s.resetDue = false ∧ callerStep s r = r) := by
  cases h : s.resetDue <;> simp [callerStep, h]

/-- What the meaning of a host command can answer as a next state: its fields were not refused, the block accepted, no
other bridge was in progress, and its own sequence was run. -/
theorem startBridge_next {ops : List BridgeOp} {s u : State} (h : startBridge ops s = .next u) :
    s.fault = none ∧ s.phase = .idle ∧ s.caller.bridge = [] ∧ u = runBridge ops s := by
  obtain ⟨hf, hp, hb, hu⟩ := whenAccepting_next h
  exact ⟨hf, hp, by simpa using hb, hu⟩

theorem withLength_next {n : Byte} {go : Host.Outcome State Fault Refusal} {u : State}
    (h : withLength n go = .next u) : lengthOk n = true ∧ go = .next u := by
  unfold withLength at h
  split at h
  · next hn => exact ⟨hn, h⟩
  · cases h

theorem withAddressLength_next {p : Params} {alen : Byte} {go : Nat → Host.Outcome State Fault Refusal} {u : State}
    (h : withAddressLength p alen go = .next u) : ∃ k, addressLength p.alenCoding alen = some k ∧ go k = .next u := by
  unfold withAddressLength at h
  split at h
  · next k hk => exact ⟨k, hk, h⟩
  · cases h

/-- Every next state of `exec` is a request's or a bridge's run, from a ready block. -/
theorem exec_next {i : Instr} {s u : State} (h : exec i s = .next u) :
    s.fault = none ∧ s.phase = .idle ∧
      ((∃ r, i = r.toInstr ∧ u = (runRequest r s).state) ∨
        (s.caller.bridge = [] ∧ ∃ ops, u = runBridge ops s)) := by
  have req : ∀ r : Request, issue r s = .next u →
      s.fault = none ∧ s.phase = .idle ∧ u = (runRequest r s).state := fun r hr => by
    obtain ⟨hf, hp, -, hu⟩ := whenAccepting_next hr
    exact ⟨hf, hp, hu⟩
  cases i with
  | i2cStart => obtain ⟨hf, hp, hu⟩ := req .i2cStart h; exact ⟨hf, hp, .inl ⟨.i2cStart, rfl, hu⟩⟩
  | i2cStop => obtain ⟨hf, hp, hu⟩ := req .i2cStop h; exact ⟨hf, hp, .inl ⟨.i2cStop, rfl, hu⟩⟩
  | i2cWrite b => obtain ⟨hf, hp, hu⟩ := req (.i2cWrite b) h; exact ⟨hf, hp, .inl ⟨.i2cWrite b, rfl, hu⟩⟩
  | i2cRead a => obtain ⟨hf, hp, hu⟩ := req (.i2cRead a) h; exact ⟨hf, hp, .inl ⟨.i2cRead a, rfl, hu⟩⟩
  | spiCsa => obtain ⟨hf, hp, hu⟩ := req .spiCsa h; exact ⟨hf, hp, .inl ⟨.spiCsa, rfl, hu⟩⟩
  | spiCsd => obtain ⟨hf, hp, hu⟩ := req .spiCsd h; exact ⟨hf, hp, .inl ⟨.spiCsd, rfl, hu⟩⟩
  | spiWrite b => obtain ⟨hf, hp, hu⟩ := req (.spiWrite b) h; exact ⟨hf, hp, .inl ⟨.spiWrite b, rfl, hu⟩⟩
  | spiRead => obtain ⟨hf, hp, hu⟩ := req .spiRead h; exact ⟨hf, hp, .inl ⟨.spiRead, rfl, hu⟩⟩
  | hostI2cRead alen d ah al n =>
    obtain ⟨k, -, h⟩ := withAddressLength_next h
    obtain ⟨-, h⟩ := withLength_next h
    obtain ⟨hf, hp, hb, hu⟩ := startBridge_next h
    exact ⟨hf, hp, .inr ⟨hb, _, hu⟩⟩
  | hostI2cWrite alen d ah al n =>
    obtain ⟨k, -, h⟩ := withAddressLength_next h
    obtain ⟨-, h⟩ := withLength_next h
    obtain ⟨hf, hp, hb, hu⟩ := startBridge_next h
    exact ⟨hf, hp, .inr ⟨hb, _, hu⟩⟩
  | hostSpiRead ah al n =>
    obtain ⟨-, h⟩ := withLength_next h
    obtain ⟨hf, hp, hb, hu⟩ := startBridge_next h
    exact ⟨hf, hp, .inr ⟨hb, _, hu⟩⟩
  | hostSpiWrite ah al n =>
    obtain ⟨-, h⟩ := withLength_next h
    obtain ⟨hf, hp, hb, hu⟩ := startBridge_next h
    exact ⟨hf, hp, .inr ⟨hb, _, hu⟩⟩

/-! Headers. -/

/-- Reading a header ends in waiting, a reset, a refused field or a whole command; the bytes it took are recorded, and
nothing but the trace, the header and the inputs changes unless a reset came. -/
theorem readHeader_cases (bs : List Byte) (s : State) :
    (∃ t, readHeader bs s = .stay t ∧
      ((∃ taken : List Byte, t.trace = s.trace ++ taken.map Event.hostIn ∧ t.lines = s.lines ∧ t.phase = s.phase ∧
          t.fault = s.fault ∧ t.params = s.params ∧ t.caller.bridge = s.caller.bridge ∧ t.work = s.work) ∨
        (∃ (u : State) (taken : List Byte), t = u.hardwareReset ∧ u.trace = s.trace ++ taken.map Event.hostIn ∧ u.lines = s.lines ∧
          u.params = s.params))) ∨
    (∃ r, readHeader bs s = .refuse r) ∨
    (∃ (i : Instr) (t : State) (taken : List Byte), readHeader bs s = .run i t ∧ t.trace = s.trace ++ taken.map Event.hostIn ∧ t.lines = s.lines ∧
      t.phase = s.phase ∧ t.fault = s.fault ∧ t.params = s.params ∧ t.caller.bridge = s.caller.bridge ∧
      t.work = s.work) := by
  induction bs generalizing s with
  | nil => exact .inl ⟨_, rfl, .inl ⟨[], by simp, rfl, rfl, rfl, rfl, rfl, rfl⟩⟩
  | cons b bs ih =>
    by_cases hd : s.resetDue = true
    · exact .inl ⟨s.hardwareReset, by simp [readHeader, hd], .inr ⟨s, [], rfl, by simp, rfl, rfl⟩⟩
    · have hd' : s.resetDue = false := by simpa using hd
      rw [readHeader, hd']
      simp only [Bool.false_eq_true, if_false]
      split
      · rcases ih _ with ⟨t, ht, ⟨tk, h1, h2, h3, h4, h5, h6, h7⟩ | ⟨u, tk, h1, h2, h3, h4⟩⟩ | ⟨r, hr⟩ |
          ⟨i, t, tk, ht, h1, h2, h3, h4, h5, h6, h7⟩
        · exact .inl ⟨t, ht, .inl ⟨b :: tk, by simpa using h1, h2, h3, h4, h5, h6, h7⟩⟩
        · exact .inl ⟨t, ht, .inr ⟨u, b :: tk, h1, by simpa using h2, h3, h4⟩⟩
        · exact .inr (.inl ⟨r, hr⟩)
        · exact .inr (.inr ⟨i, t, b :: tk, ht, by simpa using h1, h2, h3, h4, h5, h6, h7⟩)
      · exact .inr (.inl ⟨_, rfl⟩)
      · exact .inr (.inr ⟨_, _, [b], rfl, by simp, rfl, rfl, rfl, rfl, rfl, rfl⟩)

/-! Steps. -/

/-- With no reset coming, the step of a request in progress goes on from its index, and with its bridge after it. -/
theorem step_resumes {s : State} {r : Request} {k : Nat} (hp : s.phase = .busy r k) (hf : s.fault = none)
    (hr : s.env.resets = []) : step s = .next (afterResume (runMicros r ((microSeq s.params r).drop k) s)) := by
  simp [step, cycle, stepRunning, resumeRequest, State.resetDue_of_nil hr, hf, hp]

/-! Invariants over lines, trace and parameters, packaged once. -/

/-- A property of the lines, the trace and the parameters that every event of the machine keeps. -/
structure KeptByEvents (P : Lines → List Event → Params → Prop) : Prop where
  event : ∀ l es p e, P l es p → P (l.afterEvent p e) (es ++ [e]) p

/-- The property of a state. -/
def Holds (P : Lines → List Event → Params → Prop) (s : State) : Prop := P s.lines s.trace s.params

variable {P : Lines → List Event → Params → Prop}

theorem KeptByEvents.hardwareReset (k : KeptByEvents P) {s : State} (h : Holds P s) : Holds P s.hardwareReset :=
  k.event _ _ _ .reset h

theorem KeptByEvents.perform (k : KeptByEvents P) {s : State} (o : MicroOp) (h : Holds P s) :
    Holds P (s.perform o) := by
  obtain ⟨e, ht, hl, -, -, hp, -⟩ := State.perform_spec s o
  unfold Holds at *
  rw [ht, hl, hp]
  exact k.event _ _ _ e h

theorem KeptByEvents.log (k : KeptByEvents P) {s : State} {e : Event} (he : s.lines.afterEvent s.params e = s.lines)
    (h : Holds P s) : Holds P (s.log e) := by
  have := k.event _ _ _ e h
  rwa [he] at this

theorem KeptByEvents.runMicros (k : KeptByEvents P) (r : Request) (ms : List Micro) {s : State} (h : Holds P s) :
    Holds P (runMicros r ms s).state := by
  induction ms generalizing s with
  | nil => exact k.log (s := s) rfl h
  | cons m ms ih =>
    rw [runMicros_cons]
    split
    · exact k.hardwareReset h
    · split
      · exact k.perform (s := s.countdown) m.op h
      · exact ih (k.perform (s := s.countdown) m.op h)

theorem KeptByEvents.runRequest (k : KeptByEvents P) (r : Request) {s : State} (h : Holds P s) :
    Holds P (runRequest r s).state :=
  k.runMicros r _ (k.log (s := s) (e := .req (requestWord r)) rfl h)

theorem KeptByEvents.bridgeStep (k : KeptByEvents P) (o : BridgeOp) (rest : List BridgeOp) {s : State}
    (h : Holds P s) : Holds P (bridgeStep o rest s).state := by
  have caller : ∀ r : Run, Holds P r.state → Holds P (callerStep s r).state := fun r hr => by
    rcases callerStep_cases s r with ⟨-, e⟩ | ⟨-, e⟩ <;> rw [e]
    · exact k.hardwareReset h
    · exact hr
  have write : ∀ self b, Holds P (hostWrite self b s).state := fun self b => by
    rcases hostWrite_cases self b s with ⟨-, e⟩ | ⟨-, e⟩ <;> rw [e]
    · exact k.log (s := s.countdown.setEnv s.countdown.env.afterTx) rfl h
    · exact h
  cases o with
  | request r => exact caller _ (k.runRequest r (s := s.countdown.setBridge rest) h)
  | capture => exact h
  | hostRead =>
    refine caller _ ?_
    split
    · exact h
    · next b bs _ => exact k.log (s := s.countdown.setHost bs) (e := .hostIn b) rfl h
  | i2cWriteP => exact caller _ (k.runRequest _ (s := s.countdown.setBridge rest) h)
  | spiWriteP => exact caller _ (k.runRequest _ (s := s.countdown.setBridge rest) h)
  | hostWriteV => exact caller _ (write _ _)
  | hostWriteByte b => exact caller _ (write _ _)
  | settle => exact caller _ (k.log (s := s.countdown) rfl h)
  | pollUntilReady =>
    simp only [Machine.bridgeStep]
    split <;> exact h

theorem KeptByEvents.runBridge (k : KeptByEvents P) (ops : List BridgeOp) {s : State} (h : Holds P s) :
    Holds P (runBridge ops s) := by
  induction ops generalizing s with
  | nil => exact h
  | cons o rest ih =>
    have hs := k.bridgeStep o rest h
    rw [runBridge_cons]
    split
    · next t e => rw [e] at hs; exact ih hs
    · next t e => rw [e] at hs; exact hs

theorem KeptByEvents.exec (k : KeptByEvents P) {i : Instr} {s u : State} (h : Holds P s) (e : exec i s = .next u) :
    Holds P u := by
  obtain ⟨-, -, ⟨r, -, rfl⟩ | ⟨-, ops, rfl⟩⟩ := exec_next e
  · exact k.runRequest r h
  · exact k.runBridge ops h

theorem KeptByEvents.hostIns (k : KeptByEvents P) {l : Lines} {es : List Event} {p : Params} (bs : List Byte)
    (h : P l es p) : P l (es ++ bs.map Event.hostIn) p := by
  induction bs generalizing es with
  | nil => simpa using h
  | cons b bs ih =>
    have := ih (k.event l es p (.hostIn b) h)
    simpa using this

theorem KeptByEvents.readHeader (k : KeptByEvents P) (bs : List Byte) {s u : State} (h : Holds P s)
    (e : stepFetched (readHeader bs s) = .next u) : Holds P u := by
  rcases readHeader_cases bs s with ⟨t, ht, ⟨tk, h1, h2, -, -, h5, -, -⟩ | ⟨v, tk, h1, h2, h3, h4⟩⟩ | ⟨r, hr⟩ |
    ⟨i, t, tk, ht, h1, h2, -, -, h5, -, -⟩
  · rw [ht] at e
    simp only [stepFetched, Host.Outcome.next.injEq] at e
    subst e
    unfold Holds
    rw [h1, h2, h5]
    exact k.hostIns tk h
  · rw [ht] at e
    simp only [stepFetched, Host.Outcome.next.injEq] at e
    subst e h1
    refine k.hardwareReset ?_
    unfold Holds
    rw [h2, h3, h4]
    exact k.hostIns tk h
  · rw [hr] at e; cases e
  · rw [ht] at e
    refine k.exec (i := i) (s := t) ?_ e
    unfold Holds
    rw [h1, h2, h5]
    exact k.hostIns tk h

/-- What every event keeps, every step keeps. -/
theorem KeptByEvents.step (k : KeptByEvents P) {s u : State} (h : Holds P s) (e : step s = .next u) : Holds P u := by
  unfold Machine.step cycle at e
  split at e
  · cases e; exact k.hardwareReset h
  · split at e
    · unfold stepFaulted at e
      split at e
      · cases e
      · cases e; exact k.hardwareReset h
    · unfold stepRunning at e
      split at e
      · next r n _ =>
        cases e
        have hr := k.runMicros r ((microSeq s.params r).drop n) h
        unfold afterResume resumeRequest
        split
        · next t et => rw [et] at hr; exact k.runBridge _ hr
        · next t et => rw [et] at hr; exact hr
      · split at e
        · cases e; exact k.runBridge _ h
        · unfold fetch at e
          split at e
          · exact k.readHeader _ h e
          · split at e
            · next w q _ =>
              unfold fetchRequest at e
              split at e
              · exact k.exec (s := (s.setQueue q).countdown) h e
              · cases e
                exact k.log (s := (s.setQueue q).setFault _) (e := .fault (.illegalRequest w)) rfl h
            · next q _ =>
              split at e
              · cases e; exact h
              · exact k.readHeader _ (s := s.setQueue q) h e
            · exact k.readHeader _ h e

end Sys2Proof.Machine
end

