-- ==== Sys2Proof/Laws/PerInstr.lean ====
section
/-! SUPPORT. What holds of every instruction as syntax: the length of its encoding (30_encoding.md R70, R80). -/

namespace Sys2Proof.Laws

/-- The bytes a code carries. -/
def codeBytes : Code → Nat
  | .request _ => 2
  | .host bs => bs.length

/-- The payload bytes that follow a header (R80). -/
def payloadBytes : Instr → Nat
  | .hostI2cWrite _ _ _ _ n => n.toNat
  | .hostSpiWrite _ _ n => n.toNat
  | .i2cStart | .i2cStop | .i2cWrite _ | .i2cRead _ | .spiCsa | .spiCsd | .spiWrite _ | .spiRead => 0
  | .hostI2cRead .. | .hostSpiRead .. => 0

/-- The encoding and the payload make up the command's length (R70, R80), and the header fits the longest header. -/
def EncodedLength.Statement (i : Instr) : Prop :=
  codeBytes (encode i) + payloadBytes i = commandLength i ∧ codeBytes (encode i) ≤ maxHeader

theorem EncodedLength.i2cStart : EncodedLength.Statement .i2cStart := ⟨rfl, by decide⟩
theorem EncodedLength.i2cStop : EncodedLength.Statement .i2cStop := ⟨rfl, by decide⟩
theorem EncodedLength.i2cWrite (b : Byte) : EncodedLength.Statement (.i2cWrite b) := ⟨rfl, by simp [encode, codeBytes, maxHeader]⟩
theorem EncodedLength.i2cRead (a : Bool) : EncodedLength.Statement (.i2cRead a) := ⟨rfl, by simp [encode, codeBytes, maxHeader]⟩
theorem EncodedLength.spiCsa : EncodedLength.Statement .spiCsa := ⟨rfl, by decide⟩
theorem EncodedLength.spiCsd : EncodedLength.Statement .spiCsd := ⟨rfl, by decide⟩
theorem EncodedLength.spiWrite (b : Byte) : EncodedLength.Statement (.spiWrite b) := ⟨rfl, by simp [encode, codeBytes, maxHeader]⟩
theorem EncodedLength.spiRead : EncodedLength.Statement .spiRead := ⟨rfl, by decide⟩
theorem EncodedLength.hostI2cRead (alen d ah al n : Byte) :
    EncodedLength.Statement (.hostI2cRead alen d ah al n) := ⟨rfl, by simp [encode, codeBytes, maxHeader]⟩
theorem EncodedLength.hostI2cWrite (alen d ah al n : Byte) :
    EncodedLength.Statement (.hostI2cWrite alen d ah al n) :=
  ⟨by simp [encode, codeBytes, payloadBytes, commandLength], by simp [encode, codeBytes, maxHeader]⟩
theorem EncodedLength.hostSpiRead (ah al n : Byte) :
    EncodedLength.Statement (.hostSpiRead ah al n) := ⟨rfl, by simp [encode, codeBytes, maxHeader]⟩
theorem EncodedLength.hostSpiWrite (ah al n : Byte) :
    EncodedLength.Statement (.hostSpiWrite ah al n) :=
  ⟨by simp [encode, codeBytes, payloadBytes, commandLength], by simp [encode, codeBytes, maxHeader]⟩

end Sys2Proof.Laws
end

