-- ==== Sys2Proof/Tests/Slice0.lean ====
section
/-! SUPPORT. Tests on the vectors of 95_test_vectors.md, the smoke test of WellFormed, and a witness for the hypotheses
of every statement that has some. Expected values are the spec's. -/

namespace Sys2Proof.Tests

open Sys2Proof Sys2Proof.Machine

/-! Helpers. -/

/-- The default parameters of 95_test_vectors.md, durations and pins being any. -/
def params : Params where
  sclWait := false
  csActiveLow := true
  addrForm := .raw8
  alenCoding := .binary
  opWren := 0x06
  opPp := 0x02
  opRdsr := 0x05
  opRead := 0x03
  busyMask := 0x01
  tI2c := 5
  tSpi := 2
  tSettle := 9
  pins := {
    lineMap := ⟨⟨0, 0⟩, ⟨0, 1⟩, ⟨0, 2⟩, ⟨1, 0⟩, ⟨1, 1⟩, ⟨1, 2⟩⟩
    taskPins := [⟨0, 3⟩, ⟨0, 4⟩] }

/-- The reset state with those parameters and the given levels to come. -/
def idle (samples : List Bit) : State :=
  { State.reset with params := params, env := { Env.none with samples := samples } }

/-- The same with bytes from the host and a transmitter that is free at the given polls. -/
def served (host : List Byte) (tx : List Bool) (samples : List Bit) : State :=
  { State.reset with params := params, env := { Env.none with samples := samples, host := host, tx := tx } }

/-- The same with request words to issue. -/
def issuing (ws : List Word16) : State :=
  { State.reset with params := params, caller := { Caller.powerOn with queue := ws.map .issue } }

/-- The idle block after `I2C.START`: SCL and SDA low. -/
def started (samples : List Bit) : State := { idle samples with lines := { Lines.reset with scl := .low, sda := .low } }

/-- The block with the fault mark of P5. -/
def faulted : State := { idle [] with fault := some (.illegalRequest 0x1402) }

/-- A block that waits for SCL in `I2C.START` (V-I2C-13), the next polls reading 0. -/
def waiting (samples : List Bit) : State :=
  { idle samples with params := { params with sclWait := true }, phase := .busy .i2cStart 2 }

/-- An idle block that waits for SCL, the levels to come being what a request takes with the given stretches. -/
def stretching (r : Request) (stretches : List Nat) (levels : List Bit) : State :=
  { idle (wireLevels r stretches levels ++ [true]) with params := { params with sclWait := true } }

/-- The next state, where there is one. -/
def nextOf (o : Host.Outcome State Fault Refusal) : Option State :=
  match o with
  | .next s => some s
  | .fault _ => none
  | .refused _ => none

/-- The events an instruction adds to an empty trace. -/
def traceOf (i : Instr) (s : State) : Option (List Event) := (nextOf (exec i s)).map State.trace

/-- The lines an instruction leaves. -/
def linesOf (i : Instr) (s : State) : Option Lines := (nextOf (exec i s)).map State.lines

/-- The conversation of a step. -/
def talkOf (s : State) : Option (List Event) := (nextOf (step s)).map (fun t => conversation t.trace)

/-! Decoding: the words of V-DEC, bit by bit from R70 to R72, and the headers of P1 and P3. -/

theorem test_decode_start : decodeRequest 0b0001000000000000#16 = .ok .i2cStart := by decide
theorem test_decode_stop : decodeRequest 0b0001000100000000#16 = .ok .i2cStop := by decide
theorem test_decode_i2c_write : decodeRequest 0b0001001010100000#16 = .ok (.i2cWrite 0xA0) := by decide
theorem test_decode_i2c_read_ack : decodeRequest 0b0001001100000001#16 = .ok (.i2cRead true) := by decide
theorem test_decode_i2c_read_nack : decodeRequest 0b0001001100000000#16 = .ok (.i2cRead false) := by decide
theorem test_decode_csa : decodeRequest 0b0010000000000000#16 = .ok .spiCsa := by decide
theorem test_decode_csd : decodeRequest 0b0010000100000000#16 = .ok .spiCsd := by decide
theorem test_decode_spi_write : decodeRequest 0b0010001010100101#16 = .ok (.spiWrite 0xA5) := by decide
theorem test_decode_spi_read : decodeRequest 0b0010001100000000#16 = .ok .spiRead := by decide
theorem test_decode_illegal :
    [0x1001#16, 0x1302, 0x1380, 0x1400, 0x2001, 0x2301, 0x0000, 0x3000, 0xFFFF].all
      (fun w => decodeRequest w == .error (.illegalRequest w)) = true := by decide
theorem test_decode_host_i2c_read :
    decodeHost [0x49, 0x52, 0x02, 0xA0, 0x01, 0x23, 0x02] = .ok (.hostI2cRead 0x02 0xA0 0x01 0x23 0x02) := by decide
theorem test_decode_host_i2c_write :
    decodeHost [0x49, 0x57, 0x01, 0xA0, 0x00, 0x10, 0x01, 0x7E] = .ok (.hostI2cWrite 0x01 0xA0 0x00 0x10 0x01) := by
  decide
theorem test_decode_host_spi_read :
    decodeHost [0x50, 0x52, 0x12, 0x34, 0x03] = .ok (.hostSpiRead 0x12 0x34 0x03) := by decide
theorem test_decode_host_spi_write :
    decodeHost [0x50, 0x57, 0x01, 0x00, 0x01, 0x55] = .ok (.hostSpiWrite 0x01 0x00 0x01) := by decide
theorem test_decode_host_operation : decodeHost [0x50, 0x58] = .error (.unknownOperation 0x58) := by decide
theorem test_table_request : decodeTableWord 16 0x1301 = some (.i2cRead true) := by decide
theorem test_table_host : decodeTableWord 16 0x5052 = some (.hostSpiRead 0 0 0) := by decide
theorem test_table_none : decodeTableWord 16 0x5058 = none := by decide
theorem test_assemble : assemble "I2C.WRITE 0xA0".toList = some 0x12A0#16 := by decide +kernel

/-! WellFormed refuses an address-length that R81 does not give, and N = 0 (V-BR-3, V-BR-4). -/

theorem test_wf_alen_3 : (Instr.hostI2cRead 0x03 0xA0 0 0 1).wellFormed .binary = false := by decide
theorem test_wf_alen_ascii_under_binary : (Instr.hostI2cWrite 0x31 0xA0 0 0 1).wellFormed .binary = false := by decide
theorem test_wf_alen_binary_under_ascii : (Instr.hostI2cRead 0x01 0xA0 0 0 1).wellFormed .ascii = false := by decide
theorem test_wf_zero_length_i2c_read : (Instr.hostI2cRead 0x01 0xA0 0 0 0).wellFormed .binary = false := by decide
theorem test_wf_zero_length_i2c_write : (Instr.hostI2cWrite 0x01 0xA0 0 0 0).wellFormed .binary = false := by decide
theorem test_wf_zero_length_spi_read : (Instr.hostSpiRead 0 0 0).wellFormed .binary = false := by decide
theorem test_wf_zero_length_spi_write : (Instr.hostSpiWrite 0 0 0).wellFormed .binary = false := by decide
theorem test_wf_good : (Instr.hostI2cRead 0x02 0xA0 1 0x23 2).wellFormed .binary = true := by decide

/-! The requests (V-I2C, V-SPI). -/

/-- V-I2C-1. -/
theorem test_start_trace : traceOf .i2cStart (idle []) = some [.req 0x1000, .rel .sda, .rel .scl, .delay .i2c,
    .low .sda, .delay .i2c, .low .scl, .delay .i2c, .resp none] := by decide +kernel

/-- V-I2C-4. -/
theorem test_stop_trace : traceOf .i2cStop (started []) = some [.req 0x1100, .low .sda, .delay .i2c, .rel .scl,
    .delay .i2c, .rel .sda, .delay .i2c, .resp none] := by decide +kernel

/-- V-I2C-5: from idle, a START then a STOP. -/
theorem test_stop_from_idle : (traceOf .i2cStop (idle [])).map (busConditions params Lines.reset)
    = some [.start, .stop] := by decide +kernel

/-- V-I2C-6: the SDA steps of 0xA0 and the acknowledge clock; response 0x00. -/
theorem test_i2c_write_trace : (traceOf (.i2cWrite 0xA0) (started [false])).map (fun es =>
      (es.filter (fun e => e == .rel .sda || e == .low .sda), es.drop 49)) =
    some ([.rel .sda, .low .sda, .rel .sda, .low .sda, .low .sda, .low .sda, .low .sda, .low .sda, .rel .sda],
      [.rel .sda, .delay .i2c, .rel .scl, .sample .sda false, .delay .i2c, .low .scl, .delay .i2c,
        .resp (some 0x00)]) := by decide +kernel

/-- V-I2C-7: no device, NACK. -/
theorem test_i2c_write_nack : (traceOf (.i2cWrite 0xFF) (started [true])).map (fun es => es.getLast?)
    = some (some (.resp (some 0x01))) := by decide +kernel

/-- V-I2C-10. -/
theorem test_i2c_read_nack :
    ((traceOf (.i2cRead false) (started [true, false, true, false, false, true, false, true])).map (fun es =>
      (es.length, es.getLast?))) = some (50, some (.resp (some 0xA5))) := by decide +kernel

/-- V-I2C-11: the end state after ACK. -/
theorem test_i2c_read_ack_lines : linesOf (.i2cRead true) (started (List.replicate 8 true))
    = some { Lines.reset with scl := .low, sda := .low } := by decide +kernel

/-- V-I2C-13: a poll that reads 0 waits. -/
theorem test_scl_wait_low : (nextOf (step (waiting [false, true]))).map (fun s => (s.trace, s.phase)) =
    some ([.sample .scl false], .busy .i2cStart 2) := by decide +kernel

/-- V-I2C-13: a poll that reads 1 goes on. -/
theorem test_scl_wait_high : (nextOf (step (waiting [true]))).map (fun s => (s.trace, s.phase)) =
    some ([.sample .scl true, .delay .i2c, .low .sda, .delay .i2c, .low .scl, .delay .i2c, .resp none], .idle) := by
  decide +kernel

/-- V-I2C-13: the events of the rule's words are those the vector lists. -/
theorem test_scl_polls : withSclPolls [2] startEvents = [.rel .sda, .rel .scl, .sample .scl false,
    .sample .scl false, .sample .scl true, .delay .i2c, .low .sda, .delay .i2c, .low .scl, .delay .i2c] := by decide

/-- V-SPI-1, both polarities. -/
theorem test_csa : traceOf .spiCsa (idle []) = some [.req 0x2000, .set .cs false, .resp none] ∧
    traceOf .spiCsa { idle [] with params := { params with csActiveLow := false } } =
      some [.req 0x2000, .set .cs true, .resp none] := by decide +kernel

/-- V-SPI-2. -/
theorem test_csd : linesOf .spiCsd { idle [] with lines := { Lines.reset with cs := .asserted } } = some Lines.reset ∧
    traceOf .spiCsd (idle []) = some [.req 0x2100, .set .cs true, .resp none] := by decide +kernel

/-- V-SPI-3: MOSI of 0x06, and its first pass. -/
theorem test_spi_write : (traceOf (.spiWrite 0x06) (idle [])).map (fun es =>
      (es.filter (fun e => e == .set .mosi true || e == .set .mosi false), (es.drop 1).take 5, es.length)) =
    some ([.set .mosi false, .set .mosi false, .set .mosi false, .set .mosi false, .set .mosi false, .set .mosi true,
        .set .mosi true, .set .mosi false],
      [.set .mosi false, .delay .spi, .set .sck true, .delay .spi, .set .sck false], 42) := by decide +kernel

/-- V-SPI-5, V-SPI-6: the response, and MOSI kept. -/
theorem test_spi_read :
    (nextOf (exec .spiRead { idle [false, false, false, false, false, false, true, true] with
      lines := { Lines.reset with mosi := true } })).map (fun s => (s.trace.getLast?, s.lines.mosi, s.trace.length)) =
    some (some (.resp (some 0x03)), true, 42) := by decide +kernel

/-! Faults and reset (V-FLT, V-RST, P5). -/

/-- V-FLT-1. -/
theorem test_illegal : (nextOf (step (issuing [0x1402]))).map (fun s => (s.fault, s.trace, s.phase, s.lines)) =
    some (some (.illegalRequest 0x1402), [.fault (.illegalRequest 0x1402)], .idle, Lines.reset) := by decide +kernel

/-- V-FLT-2. -/
theorem test_stuck : step { faulted with caller := { Caller.powerOn with queue := [.issue 0x1000] } } =
    .fault (.stuckUntilReset (.illegalRequest 0x1402)) := by rfl

/-- P5: the reset clears the mark and keeps the trace. -/
theorem test_reset_clears_fault : (nextOf (step { faulted with
      trace := [.fault (.illegalRequest 0x1402)], env := { Env.none with resets := [3] } })).map
      (fun s => (s.fault, s.trace)) = some (none, [.fault (.illegalRequest 0x1402), .reset]) := by decide +kernel

/-- V-RST-2: a reset after the seventh micro-operation. -/
theorem test_reset_in_write :
    (nextOf (exec (.i2cWrite 0xA0) { started [] with env := { Env.none with resets := [7] } })).map
      (fun s => (s.trace, s.lines, s.phase)) =
    some ([.req 0x12A0, .rel .sda, .delay .i2c, .rel .scl, .delay .i2c, .low .scl, .delay .i2c, .low .sda, .reset],
      Lines.reset, .idle) := by decide +kernel

/-! Bridges (P1 to P4, V-BR). -/

/-- P1. -/
theorem test_p1 : talkOf (served [0x49, 0x52, 0x02, 0xA0, 0x01, 0x23, 0x02] [true, true]
      [false, false, false, false, false, true, false, true, true, false, true, false,
        true, true, false, false, false, false, true, true]) =
    some [.hostIn 0x49, .hostIn 0x52, .hostIn 0x02, .hostIn 0xA0, .hostIn 0x01, .hostIn 0x23, .hostIn 0x02,
      .req 0x1000, .req 0x12A0, .req 0x1201, .req 0x1223, .req 0x1000, .req 0x12A1, .req 0x1301, .hostOut 0x5A,
      .req 0x1300, .hostOut 0xC3, .req 0x1100] := by decide +kernel

/-- P2: `'K'` although the data byte was NACKed. -/
theorem test_p2 : talkOf (served [0x49, 0x57, 0x01, 0xA0, 0x00, 0x10, 0x01, 0x7E] [true] [false, false, true]) =
    some [.hostIn 0x49, .hostIn 0x57, .hostIn 0x01, .hostIn 0xA0, .hostIn 0x00, .hostIn 0x10, .hostIn 0x01,
      .req 0x1000, .req 0x12A0, .req 0x1210, .hostIn 0x7E, .req 0x127E, .req 0x1100, .delay .settle,
      .hostOut 0x4B] := by decide +kernel

/-- P3 up to its first status byte, which is busy: no `'K'` yet, and the poll is still to do. -/
theorem test_p3_busy :
    (nextOf (step (served [0x50, 0x57, 0x01, 0x00, 0x01, 0x55] [true]
      [false, false, false, false, false, false, true, true]))).map
        (fun t => ((conversation t.trace).drop 6, t.caller.bridge.length)) =
    some ([.req 0x2206, .req 0x2100, .req 0x2000, .req 0x2202, .req 0x2201, .req 0x2200, .hostIn 0x55, .req 0x2255,
      .req 0x2100, .req 0x2000, .req 0x2205, .req 0x2300, .req 0x2100], 7) := by decide +kernel

/-- P3's second pass: status 0x02, so `'K'`. -/
theorem test_p3_ready :
    talkOf { served [] [true] [false, false, false, false, false, false, true, false] with
      caller := { Caller.powerOn with bridge := pollPass params ++ [BridgeOp.hostWriteByte 0x4B] } } =
    some [.req 0x2000, .req 0x2205, .req 0x2300, .req 0x2100, .hostOut 0x4B] := by decide +kernel

/-- P4. -/
theorem test_p4 : talkOf (served [0x50, 0x52, 0x12, 0x34, 0x02] [true, true]
      [true, true, false, true, true, true, true, false, true, false, true, false, true, true, false, true]) =
    some [.hostIn 0x50, .hostIn 0x52, .hostIn 0x12, .hostIn 0x34, .hostIn 0x02, .req 0x2000, .req 0x2203, .req 0x2212,
      .req 0x2234, .req 0x2300, .hostOut 0xDE, .req 0x2300, .hostOut 0xAD, .req 0x2100] := by decide +kernel

/-- V-BR-1, V-BR-2. -/
theorem test_addr_byte : addrByte .raw8 0xA1 false = 0xA0 ∧ addrByte .raw8 0xA0 true = 0xA1 ∧
    addrByte .shift7 0x50 false = 0xA0 ∧ addrByte .shift7 0xD0 true = 0xA1 := by decide

/-- V-BR-3: refused at the field, whether the rest has come or not. -/
theorem test_refused_alen : step (served [0x49, 0x52, 0x03] [] []) = .refused (.addressLengthByte 0x03) := by rfl

/-- V-BR-4. -/
theorem test_refused_operation : step (served [0x50, 0x58] [] []) = .refused (.operationByte 0x58) := by rfl

/-- R5: a single-byte command of the Dispatcher is out of scope. -/
theorem test_refused_single_byte : step (served [0x3F] [] []) = .refused (.singleByteCommand 0x3F) := by rfl

/-- R224, R20: a released line's pin is an input, a low one's an output at 0; a task pin is not the block's. -/
theorem test_pins : (started []).pin ⟨0, 0⟩ = some (.output false) ∧ (idle []).pin ⟨0, 1⟩ = some .input ∧
    (idle []).pin ⟨0, 3⟩ = none := by decide

/-- The table word of a request, placed where the next step fetches, is run by it. -/
theorem test_fetch_word : (nextOf (step (State.reset.withFetchWord 16 0x2200))).map (fun s => s.trace.length)
    = some 42 := by decide +kernel

/-! Witnesses: for each statement with hypotheses, a state and operands that meet them all. -/

theorem witness_HostHeaderDecodesBeforeItsPayload :
    encode (.hostSpiRead 0x12 0x34 0x03) = .host [0x50, 0x52, 0x12, 0x34, 0x03] := by decide

theorem witness_DecodedWordIsTheEncoding : decodeRequest 0x12A0 = .ok (.i2cWrite 0xA0) := by decide

/-- I2cStartIsPerformed, I2cStopIsPerformed, I2cWriteIsPerformed, I2cReadIsPerformed, SpiCsaIsPerformed,
SpiCsdIsPerformed, SpiWriteIsPerformed, SpiReadIsPerformed, NoRequestRaisesAnException,
RequestsTouchOnlyTheirEnginesLines. -/
theorem witness_RequestsArePerformed :
    (idle []).Ready ∧ (idle []).Undisturbed ∧ (idle []).NoSclWait := by decide

/-- Both states of each line; and a read without and with waiting for SCL, its first clock stretched. -/
theorem witness_SamplesObeyTheWiredAnd :
    ((started []).lines.sda = .low ∧ (started []).lines.scl = .low) ∧
    ((idle []).lines.sda = .rel ∧ (idle []).lines.scl = .rel) ∧
    ∀ x ∈ [(idle (List.replicate 8 true), []),
        (stretching (.i2cRead true) (2 :: List.replicate 8 0) (List.replicate 8 true), 2 :: List.replicate 8 0)],
      x.1.Ready ∧ x.1.Undisturbed ∧ x.1.Answers (.i2cRead true) x.2 (List.replicate 8 true) := by decide +kernel

/-- One witness for each I2C request, SCL held low in several places. -/
theorem witness_I2cRequestsCompleteWhenSclReadsHigh :
    ∀ x ∈ [(Request.i2cStart, [2], []), (.i2cStop, [0], []), (.i2cWrite 0xA0, [0, 1, 0, 0, 0, 0, 0, 0, 3], [false]),
        (.i2cRead true, [1, 0, 0, 0, 2, 0, 0, 0, 1], [true, false, true, false, false, true, false, true])],
      let s := stretching x.1 x.2.1 x.2.2
      x.1.isI2c = true ∧ s.Ready ∧ s.Undisturbed ∧ s.params.sclWait = true ∧ s.Answers x.1 x.2.1 x.2.2 := by
  decide +kernel

theorem witness_SclPollThatReadsLowWaits :
    (waiting [false]).phase = .busy .i2cStart 2 ∧
    (microSeq (waiting [false]).params .i2cStart)[2]? = some (op .waitHigh) ∧ (waiting [false]).fault = none ∧
    (waiting [false]).Undisturbed ∧ (waiting [false]).sampleValue .scl = false := by decide

theorem witness_SclHeldLowHangsTheRequest :
    let s := waiting [false, false, true]
    s.phase = .busy .i2cStart 2 ∧ (microSeq s.params .i2cStart)[2]? = some (op .waitHigh) ∧ s.fault = none ∧
      s.Undisturbed ∧ s.env.samples = List.replicate 2 false ++ [true] := by decide

theorem witness_RequestsTouchOnlyTheirOwnPins :
    (idle []).Ready ∧ (idle []).Undisturbed ∧
    (Request.i2cStart.isI2c = true ∧ (⟨1, 0⟩ : Pin) ≠ (idle []).params.pins.lineMap.scl ∧
      (⟨1, 0⟩ : Pin) ≠ (idle []).params.pins.lineMap.sda) ∧
    (Request.spiCsa.isI2c = false ∧ (⟨0, 0⟩ : Pin) ≠ (idle []).params.pins.lineMap.cs ∧
      (⟨0, 0⟩ : Pin) ≠ (idle []).params.pins.lineMap.sck ∧
      (⟨0, 0⟩ : Pin) ≠ (idle []).params.pins.lineMap.mosi) := by decide

theorem witness_TaskPinsAreNotTheBlocks : (⟨0, 3⟩ : Pin) ∈ (idle []).params.pins.taskPins := by decide

/-- I2cMicroOperationCounts and SpiMicroOperationCounts. -/
theorem witness_MicroOperationCounts :
    (Request.i2cWrite 0xA0).isI2c = true ∧ Request.spiRead.isI2c = false ∧ (idle []).Ready ∧ (idle []).Undisturbed ∧
    (idle []).NoSclWait := by decide

/-- NominalDurationsFollowFromTheDelays, with and without waiting for SCL, and for an SPI request. -/
theorem witness_NominalDurationsFollowFromTheDelays :
    ∀ x ∈ [(idle [true], Request.i2cWrite 0xA0, [], [true]), (stretching .i2cStop [3] [], .i2cStop, [3], []),
        (stretching (.spiWrite 0x06) [] [], .spiWrite 0x06, [], [])],
      x.1.Ready ∧ x.1.Undisturbed ∧ x.1.Answers x.2.1 x.2.2.1 x.2.2.2 := by decide +kernel

/-- ByteTransfersMakeNoBusCondition, ByteTransfersMakeNinePulses and the clauses of StartAndStopMakeTheirConditions, with
and without waiting for SCL. -/
theorem witness_ByteTransfersStartWithSclLow :
    (∀ x ∈ [(Request.i2cStart, ([] : List Bit)), (.i2cStop, []), (.i2cWrite 0xA0, [true]),
        (.i2cRead false, List.replicate 8 true)],
      let s := started (x.2 ++ [false])
      s.Ready ∧ s.Undisturbed ∧ s.Answers x.1 [] x.2 ∧ s.lines.scl = .low) ∧
    (∀ x ∈ [(Request.i2cStart, [2], ([] : List Bit)), (.i2cStop, [1], []),
        (.i2cWrite 0xA0, List.replicate 9 1, [true]), (.i2cRead false, List.replicate 9 1, List.replicate 8 true)],
      let s := { stretching x.1 x.2.1 x.2.2 with lines := (started []).lines }
      s.Ready ∧ s.Undisturbed ∧ s.Answers x.1 x.2.1 x.2.2 ∧ s.lines.scl = .low) := by decide +kernel

theorem witness_StartAndStopMakeTheirConditions :
    (∀ x ∈ [(idle [], []), (stretching .i2cStart [2] [], [2])],
      x.1.Ready ∧ x.1.Undisturbed ∧ x.1.Answers .i2cStart x.2 [] ∧ x.1.lines.scl = .rel ∧ x.1.lines.sda = .rel) := by
  decide +kernel

theorem witness_SpiTransfersMakeEightPulses :
    (idle []).Ready ∧ (idle []).Undisturbed ∧ (idle []).lines.sck = false := by decide

/-- HostI2cReadCompletes and I2cReadBridgeMakesTwoStartsAndOneStop: the shortest and the longest transfer, both
address-lengths. -/
theorem witness_HostI2cReadCompletes :
    ∀ x ∈ [((0x01 : Byte), 1, (0x01 : Byte)), (0x02, 2, 0xFF)],
      let s := served [] (List.replicate x.2.2.toNat true ++ [false]) []
      s.Ready ∧ s.Free ∧ s.Undisturbed ∧ s.NoSclWait ∧ addressLength s.params.alenCoding x.1 = some x.2.1 ∧
        x.2.2 ≠ 0 ∧ s.env.tx = List.replicate x.2.2.toNat true ++ [false] ∧ s.lines.scl = .rel ∧
        s.lines.sda = .rel := by decide +kernel

/-- HostI2cWriteCompletes and I2cWriteBridgeMakesOneStartAndOneStop. -/
theorem witness_HostI2cWriteCompletes :
    ∀ x ∈ [((0x01 : Byte), 1, (0x01 : Byte)), (0x02, 2, 0xFF)],
      let payload := List.replicate x.2.2.toNat (0x7E : Byte)
      let s := served (payload ++ [0x49]) [true] []
      s.Ready ∧ s.Free ∧ s.Undisturbed ∧ s.NoSclWait ∧ addressLength s.params.alenCoding x.1 = some x.2.1 ∧
        x.2.2 ≠ 0 ∧ payload.length = x.2.2.toNat ∧ s.env.host = payload ++ [0x49] ∧ s.env.tx = true :: [] ∧
        s.lines.scl = .rel ∧ s.lines.sda = .rel := by decide +kernel

theorem witness_HostSpiReadCompletes :
    ∀ n ∈ [(0x01 : Byte), 0xFF],
      let s := served [] (List.replicate n.toNat true ++ [false]) []
      s.Ready ∧ s.Free ∧ s.Undisturbed ∧ n ≠ 0 ∧ s.env.tx = List.replicate n.toNat true ++ [false] := by
  decide +kernel

theorem witness_HostSpiWriteCompletes :
    ∀ n ∈ [(0x01 : Byte), 0xFF],
      let payload := List.replicate n.toNat (0x55 : Byte)
      let s := served (payload ++ [0x50]) [true] (List.replicate 6 false ++ [true, false])
      s.Ready ∧ s.Free ∧ s.Undisturbed ∧ n ≠ 0 ∧ payload.length = n.toNat ∧ s.env.host = payload ++ [0x50] ∧
        s.env.tx = true :: [] ∧ readByte s.env 0 0 &&& s.params.busyMask = 0 := by decide +kernel

theorem witness_HostSpiWriteKeepsPollingWhileBusy :
    ∀ n ∈ [(0x01 : Byte), 0xFF],
      let payload := List.replicate n.toNat (0x55 : Byte)
      let s := served (payload ++ [0x50]) [] (List.replicate 6 false ++ [true, true])
      s.Ready ∧ s.Free ∧ s.Undisturbed ∧ n ≠ 0 ∧ payload.length = n.toNat ∧ s.env.host = payload ++ [0x50] ∧
        readByte s.env 0 0 &&& s.params.busyMask ≠ 0 := by decide +kernel

/-- Two busy passes and a ready one. -/
theorem witness_BusyPollHasNoBound :
    let s := { served [] [true] (List.replicate 23 true ++ [false]) with
      caller := { Caller.powerOn with bridge := pollPass params ++ [BridgeOp.hostWriteByte 0x4B] } }
    s.Ready ∧ s.Undisturbed ∧ s.caller.bridge = pollPass s.params ++ [BridgeOp.hostWriteByte 0x4B] ∧
      (∀ j, j < 2 → readByte s.env 0 j &&& s.params.busyMask ≠ 0) ∧ s.env.tx = true :: [] ∧
      readByte s.env 0 2 &&& s.params.busyMask = 0 := by decide +kernel

theorem witness_I2cWriteBridgeWaitsForItsPayload :
    let s := served [0x7E] [] []
    s.Ready ∧ s.Free ∧ s.Undisturbed ∧ s.NoSclWait ∧ addressLength s.params.alenCoding 0x01 = some 1 ∧
      [(0x7E : Byte)].length < (0x02 : Byte).toNat ∧ s.env.host = [0x7E] ∧ s.lines.sda = .rel := by decide

theorem witness_SpiWriteBridgeWaitsForItsPayload :
    let s := served [] [] []
    s.Ready ∧ s.Free ∧ s.Undisturbed ∧ ([] : List Byte).length < (0x01 : Byte).toNat ∧ s.env.host = [] := by decide

/-- Each of the three waits, with a reset coming later, and the end of each. -/
theorem witness_HostChannelWaitsChangeNothing :
    let s := fun (o : BridgeOp) host tx => { served host [tx] [] with
      caller := { Caller.powerOn with bridge := [o, .settle] }
      env := { Env.none with host := host, tx := [tx], resets := [3] } }
    ∀ o ∈ [BridgeOp.hostRead, BridgeOp.hostWriteV, BridgeOp.hostWriteByte 0x4B],
      ((s o [] false).Ready ∧ (s o [] false).resetDue = false ∧ (s o [] false).caller.bridge = o :: [.settle] ∧
        (s o [] false).env.host = [] ∧ (s o [] false).env.txReady = false) ∧
      ((s o [0x7E] true).Ready ∧ (s o [0x7E] true).resetDue = false ∧ (s o [0x7E] true).caller.bridge = o :: [.settle] ∧
        (s o [0x7E] true).env.host = 0x7E :: [] ∧ (s o [0x7E] true).env.txReady = true) := by decide

theorem witness_RefusedFieldsStopTheBridge :
    addressLength params.alenCoding 0x00 = none ∧ addressLength params.alenCoding 0x03 = none ∧
    addressLength params.alenCoding 0x31 = none ∧ addressLength params.alenCoding 0x01 ≠ none ∧
    addressLength params.alenCoding 0x02 ≠ none := by decide

/-- The operation, the address-length and the length clauses. -/
theorem witness_RefusedFieldsStopTheHeader :
    let s := fun h => served h [] []
    (∀ h ∈ [[(0x49 : Byte), 0x53], [0x50, 0x56], [0x49, 0x52, 0x03], [0x49, 0x57, 0x01, 0, 0, 0, 0],
        [0x50, 0x52, 0, 0, 0]],
      (s h).Ready ∧ (s h).Free ∧ (s h).Undisturbed ∧ (s h).caller.hdr = [] ∧ (s h).caller.queue = [] ∧
        (s h).env.host = h) ∧
    addressLength params.alenCoding 0x03 = none ∧ addressLength params.alenCoding 0x01 ≠ none := by decide

/-- StepRunsTheIssuedRequest and, with the second word, IllegalRequestFaults. -/
theorem witness_StepRunsTheIssuedRequest :
    let s := issuing [0x12A0, 0x1402]
    s.Ready ∧ s.Free ∧ s.resetDue = false ∧ s.caller.hdr = [] ∧ s.caller.queue = .issue 0x12A0 :: [.issue 0x1402] ∧
      decodeRequest 0x12A0 = .ok (.i2cWrite 0xA0) := by decide

theorem witness_IllegalRequestFaults :
    let s := issuing [0x1402]
    s.Ready ∧ s.Free ∧ s.resetDue = false ∧ s.caller.hdr = [] ∧ s.caller.queue = .issue 0x1402 :: [] ∧
      decodeRequest 0x1402 = .error (.illegalRequest 0x1402) := by decide

/-- With an empty queue, with a `serve` entry, and with the first two bytes read before. -/
theorem witness_StepRunsTheHostCommand :
    let i := Instr.hostSpiWrite 0x01 0x00 0x01
    let s := served [0x50, 0x57, 0x01, 0x00, 0x01, 0x55] [] []
    let s' := { s with caller := { Caller.powerOn with queue := [.serve] } }
    let s'' := { served [0x01, 0x00, 0x01, 0x55] [] [] with caller := { Caller.powerOn with hdr := [0x50, 0x57] } }
    (s.Ready ∧ s.Free ∧ s.Undisturbed ∧ s.caller.hdr = [] ∧ s.caller.queue = [] ∧ s'.Ready ∧ s'.Free ∧
      s'.caller.queue = .serve :: [] ∧ s'.env.host = s.env.host) ∧
    (s''.Ready ∧ s''.Free ∧ s''.Undisturbed ∧ s''.caller.hdr = [0x50, 0x57] ∧
      s''.env.host = [0x01, 0x00, 0x01] ++ [0x55]) ∧
    encode i = .host ([0x50, 0x57] ++ [0x01, 0x00, 0x01]) ∧ i.wellFormed s.params.alenCoding = true ∧
      s.env.host = [0x50, 0x57, 0x01, 0x00, 0x01] ++ [0x55] := by decide

/-- Nothing to do; and each way a header can be incomplete. -/
theorem witness_IdleMachineWaits :
    let s := idle []
    let t := fun hdr queue host => { served host [] [] with caller := { Caller.powerOn with hdr := hdr, queue := queue } }
    (s.Ready ∧ s.Free ∧ s.Undisturbed ∧ s.caller.hdr = [] ∧ s.caller.queue = [] ∧ s.env.host = []) ∧
    (∀ x ∈ [([(0x50 : Byte)], [CallerStep.issue 0x1000], [(0x57 : Byte), 0x01]), ([], [], [0x50, 0x57, 0x01]),
        ([], [.serve], [0x50, 0x57, 0x01])],
      (t x.1 x.2.1 x.2.2).Ready ∧ (t x.1 x.2.1 x.2.2).Free ∧ (t x.1 x.2.1 x.2.2).Undisturbed ∧
        encode (.hostSpiWrite 0x01 0x00 0x01) = .host (x.1 ++ x.2.2 ++ [0x00, 0x01])) ∧
    (t [] [.serve] []).caller.queue.head? = some .serve ∧
    (Instr.hostSpiWrite 0x01 0x00 0x01).wellFormed params.alenCoding = true := by decide

/-- Each of the three clauses. -/
theorem witness_RequestsAreAcceptedOnlyIdleAndUnfaulted :
    (idle []).Ready ∧ (faulted.fault = some (.illegalRequest 0x1402) ∧ faulted.Undisturbed) ∧
    ((waiting []).fault = none ∧ (waiting []).phase = .busy .i2cStart 2) := by decide

theorem witness_OnlyResetLeavesAFault :
    let s := { faulted with env := { Env.none with resets := [3] } }
    s.fault = some (.illegalRequest 0x1402) ∧ step s = .next s.hardwareReset := ⟨rfl, rfl⟩

theorem witness_ResetTakesEveryFieldToItsResetValue :
    ({ waiting [] with env := { Env.none with resets := [0, 5] } } : State).resetDue = true := by decide

/-- The first and the last place of `I2C.WRITE`, without and with waiting for SCL. -/
theorem witness_ResetCutsARequestAnywhere :
    ∀ x ∈ [((started []).params, ([] : List Nat), [0, 54]),
        ({ params with sclWait := true }, List.replicate 9 1, [0, 72])], ∀ j ∈ x.2.2,
      let s := { started [] with
        params := x.1
        env := { Env.none with resets := [j, 5], samples := wireLevels (.i2cWrite 0xA0) x.2.1 [false] } }
      s.Ready ∧ s.env.resets = j :: [5] ∧ s.Answers (.i2cWrite 0xA0) x.2.1 [false] ∧
        j < (withSclPolls x.2.1 (requestEvents s.params (.i2cWrite 0xA0) [false])).length := by decide +kernel

/-- Inside `HOST.SPI_WRITE` of one byte, whose undisturbed step passes 306 boundaries: before its first host byte, before
its payload byte and before its `'K'`. -/
theorem witness_ResetCutsAHostCommandAnywhere :
    let s := fun resets => { served [] [] [] with
      env := { Env.none with
        host := [0x50, 0x57, 0x01, 0x00, 0x01, 0x55], tx := [true], samples := List.replicate 8 false,
        resets := resets } }
    (nextOf (step (s []))).map (fun u => u.trace.countP Event.atBoundary) = some 306 ∧
    (s []).phase = .idle ∧ ∀ j ∈ [0, 175, 305], (s [j, 5]).env.resets = j :: [5] ∧ j < 306 := by decide +kernel

/-- TraceIsNeverShortened, ParametersNeverChange, TraceTellsTheLinesIsKept, SckLowBetweenStepsIsKept: an idle block
takes a step and meets the invariants. -/

theorem witness_StepsAreTaken :
    (idle []).TraceTellsLines ∧ (idle []).lines.sck = false ∧ (idle []).phase = .idle ∧
    step (idle []) = .next (idle []) := ⟨by decide, rfl, rfl, rfl⟩

theorem witness_SckLowBetweenStepsIsKept : (idle []).SckLow :=
  ⟨rfl, fun _ _ h => Phase.noConfusion h⟩

/-- A faulted block that has a step. -/
theorem witness_FaultMarkIsToldIsKept :
    let s := { faulted with trace := [.fault (.illegalRequest 0x1402)], env := { Env.none with resets := [3] } }
    s.FaultTold ∧ step s = .next s.hardwareReset :=
  ⟨fun f h => by cases h; exact ⟨rfl, by simp⟩, rfl⟩

end Sys2Proof.Tests
end

section
/-! PROOFS. The family of 00_scope.md: what every step keeps of trace, lines and parameters (R2, R10, R12), and the
step that runs an issued word (R8, R29). Each invariant is a property of lines, trace and parameters that single events
keep (`KeptByEvents`); that steps then keep it is `KeptByEvents.step`. -/

namespace Sys2Proof.Machine

/-! Replaying a trace. -/

/-- Replaying a trace and one event more: replay the trace, then do what the event does to the lines. -/
theorem Lines.replay_concat (p : Params) (l : Lines) (es : List Event) (e : Event) :
    l.replay p (es ++ [e]) = (l.replay p es).afterEvent p e :=
  List.foldl_concat (Lines.afterEvent p) l e es

/-! The three properties of lines, trace and parameters, and that every event keeps them. -/

/-- Replaying the trace from the reset lines gives the lines. -/
def ReplayGivesLines (l : Lines) (es : List Event) (p : Params) : Prop := Lines.reset.replay p es = l

theorem State.traceTellsLines_iff (s : State) : s.TraceTellsLines ↔ Holds ReplayGivesLines s := Iff.rfl

/-- The lines change by what the event does to them, and the replay of the longer trace ends with just that (R10, R61);
a reset, too, is such an event (R221). -/
theorem replayGivesLines_keptByEvents : KeptByEvents ReplayGivesLines where
  event l es p e h := by
    have tells : Lines.reset.replay p es = l := h
    calc Lines.reset.replay p (es ++ [e])
        = (Lines.reset.replay p es).afterEvent p e := Lines.replay_concat p Lines.reset es e
      _ = l.afterEvent p e := by rw [tells]

/-- The trace begins with `es₀`. -/
def TraceBeginsWith (es₀ : List Event) (_ : Lines) (es : List Event) (_ : Params) : Prop := es₀ <+: es

/-- An event is appended at the end of the trace, so a beginning stays one (R12). -/
theorem traceBeginsWith_keptByEvents (es₀ : List Event) : KeptByEvents (TraceBeginsWith es₀) where
  event _ es _ e h := List.IsPrefix.trans h (List.prefix_append es [e])

/-- The parameters are `p₀`. -/
def ParamsAre (p₀ : Params) (_ : Lines) (_ : List Event) (p : Params) : Prop := p = p₀

/-- No event is about a parameter (R2). -/
theorem paramsAre_keptByEvents (p₀ : Params) : KeptByEvents (ParamsAre p₀) where
  event _ _ _ _ h := h

/-- Settles O55: a property of lines, trace and parameters that every event keeps. -/
theorem traceTellsTheLinesIsKept : Obligations.TraceTellsTheLinesIsKept := by
  intro s t tells hstep
  rw [State.traceTellsLines_iff] at tells ⊢
  exact replayGivesLines_keptByEvents.step tells hstep

/-- Settles O53: the trace a step begins with stays a beginning of the trace. -/
theorem traceIsNeverShortened : Obligations.TraceIsNeverShortened := by
  intro s t hstep
  have start : Holds (TraceBeginsWith s.trace) s := List.prefix_rfl
  obtain ⟨es, hes⟩ : s.trace <+: t.trace := (traceBeginsWith_keptByEvents s.trace).step start hstep
  exact ⟨es, hes.symm⟩

/-- Settles O54: the parameters a step begins with stay the parameters. -/
theorem parametersNeverChange : Obligations.ParametersNeverChange := by
  intro s t hstep
  have start : Holds (ParamsAre s.params) s := rfl
  exact (paramsAre_keptByEvents s.params).step start hstep

/-! The step of a free, ready block, in the order it is made: what the caller does next, then the word's decoding. -/

/-- With no reset due, the step of a ready block whose caller has no bridge in progress is the caller's next move. -/
theorem step_of_ready_free {s : State} (ready : s.Ready) (free : s.Free) (hreset : s.resetDue = false) :
    step s = stepFetched (fetch s) := by
  obtain ⟨hphase, hfault⟩ := ready
  simp [step, cycle, stepRunning, hreset, hfault, hphase, free]

/-- A caller with no header begun and a request word at the head of its queue takes it off the queue and issues it. -/
theorem fetch_issue {s : State} {w : Word16} {q : List CallerStep} (hhdr : s.caller.hdr = [])
    (hqueue : s.caller.queue = .issue w :: q) : fetch s = fetchRequest w (s.setQueue q) := by
  simp [fetch, hhdr, hqueue]

/-- A legal word is run as the instruction it decodes to, one boundary later (R76; log entry 28). -/
theorem fetchRequest_legal {w : Word16} {i : Instr} (s : State) (hdecode : decodeRequest w = .ok i) :
    fetchRequest w s = .run i s.countdown := by
  simp [fetchRequest, hdecode]

/-- Settles O44, by following the step from the caller's queue through the decoder to `exec`. -/
theorem stepRunsTheIssuedRequest : Obligations.StepRunsTheIssuedRequest := by
  intro w i q s ready free hreset hhdr hqueue hdecode
  calc step s
      = stepFetched (fetch s) := step_of_ready_free ready free hreset
    _ = stepFetched (fetchRequest w (s.setQueue q)) := by rw [fetch_issue hhdr hqueue]
    _ = stepFetched (.run i (s.setQueue q).countdown) := by rw [fetchRequest_legal _ hdecode]
    _ = exec i (s.setQueue q).countdown := rfl

end Sys2Proof.Machine
end

section
/-! PROOFS. A request performed to its end: the sequencer with its polls of SCL (R104), what a sequence does given the
environment's answers (R11), and from that the events, lines and response of every request (R106 to R109, R142 to
R145). -/

namespace Sys2Proof.Machine

/-! Performing a sequence to its end, the polls of SCL that read 0 counted (R104). -/

/-- With no reset coming, performing the sequence from `s` leaves `t`, after `n` polls of SCL that read 0. -/
inductive Performs : List Micro → State → Nat → State → Prop
  | nil (s : State) : Performs [] s 0 s
  /-- a poll that reads 0, and the poll again -/
  | again {m : Micro} {ms : List Micro} {s t : State} {n : Nat} : m.op.repeats (s.perform m.op) = true →
      Performs (m :: ms) (s.perform m.op) n t → Performs (m :: ms) s (n + 1) t
  /-- a micro-operation that is not repeated, and the rest -/
  | once {m : Micro} {ms : List Micro} {s t : State} {n : Nat} : m.op.repeats (s.perform m.op) = false →
      Performs ms (doMicro s m) n t → Performs (m :: ms) s n t

/-- A run of request `r` is completed in `t`, with the rest of its bridge after it, in `n` steps more. -/
def Run.CompletedIn (run : Run) (n : Nat) (t : State) : Prop :=
  if n = 0 then run = .finished t
  else ∃ u, run = .paused u ∧ core.run n u = .next (runBridge t.caller.bridge t)

theorem core_run_succ {s u : State} (n : Nat) (h : step s = .next u) : core.run (n + 1) s = core.run n u := by
  have h' : core.step s = .next u := h
  simp only [Host.Core.run, h']

/-- A request in progress is resumed at each step until it is completed. -/
theorem run_resumed {s t : State} {r : Request} {k n : Nat} (phase : s.phase = .busy r k) (fault : s.fault = none)
    (undisturbed : s.Undisturbed) (h : (runMicros r ((microSeq s.params r).drop k) s).CompletedIn n t) :
    core.run (n + 1) s = .next (runBridge t.caller.bridge t) := by
  rw [core_run_succ n (step_resumes phase fault undisturbed)]
  unfold Run.CompletedIn at h
  split at h
  · next hn => subst hn; rw [h]; rfl
  · obtain ⟨u, hu, hrun⟩ := h
    rw [hu]
    exact hrun

/-- What a sequence performs to its end, the sequencer completes, one step for each poll of SCL that reads 0. -/
theorem Performs.completedIn {ms : List Micro} {s t : State} {n : Nat} (h : Performs ms s n t) {r : Request} {k : Nat}
    (phase : s.phase = .busy r k) (fault : s.fault = none) (undisturbed : s.Undisturbed)
    (rest : (microSeq s.params r).drop k = ms) : (runMicros r ms s).CompletedIn n (t.complete r) := by
  induction h generalizing k with
  | nil s => rfl
  | @again m ms s t n low _ ih =>
    obtain ⟨_, _, _, hphase, hfault, hparams, _⟩ := s.perform_spec m.op
    have resets : (s.perform m.op).Undisturbed := (s.perform_resets m.op).trans undisturbed
    have rest' : (microSeq (s.perform m.op).params r).drop k = m :: ms := by rw [hparams, rest]
    have later := ih (hphase.trans phase) (hfault.trans fault) resets rest'
    refine ⟨s.perform m.op, ?_, run_resumed (hphase.trans phase) (hfault.trans fault) resets (rest' ▸ later)⟩
    rw [runMicros_cons, State.countdown_of_nil undisturbed, State.resetDue_of_nil undisturbed, low]
    rfl
  | @once m ms s t n done _ ih =>
    obtain ⟨_, _, _, -, hfault, hparams, _⟩ := s.perform_spec m.op
    rw [runMicros_cons, State.countdown_of_nil undisturbed, State.resetDue_of_nil undisturbed, done]
    refine ih (k := k + 1) ?_ (hfault.trans fault) ((s.perform_resets m.op).trans undisturbed) ?_
    · simp [doMicro, phase, Phase.advance]
    · have : (doMicro s m).params = s.params := hparams
      rw [this, ← List.tail_drop, rest]; rfl

/-! What a sequence does, given the environment's answers: the stretches of SCL and the levels of the data samples. -/

/-- What a piece of a sequence makes of the block: the lines and the working values it leaves, its events, and the
levels it takes from the environment. -/
structure Effect where
  lines : Lines
  work : Work
  events : List Event
  levels : List Bit

/-- One effect after another. -/
def Effect.andThen (e e' : Effect) : Effect :=
  { e' with events := e.events ++ e'.events, levels := e.levels ++ e'.levels }

/-- What a sample reads when the environment gives a level (R21, R26). -/
def InputLine.reading (l : Lines) (level : Bit) : InputLine → Bit
  | .scl => wire l.scl level
  | .sda => wire l.sda level
  | .miso => level

theorem State.sampleValue_eq (s : State) (i : InputLine) : s.sampleValue i = i.reading s.lines s.env.bit := by
  cases i <;> rfl

/-- The event of a micro-operation that takes no level from the environment. -/
def MicroOp.ownEvent (w : Work) : MicroOp → Option Event
  | .low i => some (.low i)
  | .rel i => some (.rel i)
  | .sdaFromSh => some (sdaStep (topBit w.i2cSh))
  | .set o v => some (.set o v)
  | .mosiFromSh => some (.set .mosi (topBit w.spiSh))
  | .delay k => some (.delay k)
  | .sample _ => none
  | .waitHigh => none

/-- The effect of one micro-operation, and the answers it leaves; none when an answer it needs is missing, or when it
polls SCL without having released it. -/
def Micro.effect (p : Params) (m : Micro) (stretches : List Nat) (levels : List Bit) (l : Lines) (w : Work) :
    Option (Effect × List Nat × List Bit) :=
  match m.op.ownEvent w with
  | some e => some (⟨l.afterEvent p e, m.after.foldl Work.apply w, [e], []⟩, stretches, levels)
  | none =>
    match m.op, stretches, levels with
    | .sample i, _, v :: vs =>
      some (⟨l, m.after.foldl Work.apply { w with smp := i.reading l v }, [.sample i (i.reading l v)], [v]⟩,
        stretches, vs)
    | .waitHigh, n :: ns, _ =>
      if l.scl = .rel then
        some (⟨l, m.after.foldl Work.apply { w with smp := true }, (stretched n).map (.sample .scl), stretched n⟩,
          ns, levels)
      else none
    | _, _, _ => none

/-- The effect of a sequence that uses up all the answers. -/
def seqEffect (p : Params) : List Micro → List Nat → List Bit → Lines → Work → Option Effect
  | [], ns, vs, l, w => if ns = [] ∧ vs = [] then some ⟨l, w, [], []⟩ else none
  | m :: ms, ns, vs, l, w =>
    (m.effect p ns vs l w).bind fun x => (seqEffect p ms x.2.1 x.2.2 x.1.lines x.1.work).map x.1.andThen

/-- `t` is `s` with the effect done to it; the phase is left out. -/
structure Advanced (s t : State) (e : Effect) : Prop where
  lines : t.lines = e.lines
  work : t.work = e.work
  trace : t.trace = s.trace ++ e.events
  env : t.env = s.env.advance e.levels.length
  params : t.params = s.params
  caller : t.caller = s.caller
  fault : t.fault = s.fault

theorem Advanced.andThen {s u t : State} {e e' : Effect} (h : Advanced s u e) (h' : Advanced u t e') :
    Advanced s t (e.andThen e') where
  lines := h'.lines
  work := h'.work
  trace := by rw [h'.trace, h.trace, List.append_assoc]; rfl
  env := by rw [h'.env, h.env, ← Env.advance_add, ← List.length_append]; rfl
  params := h'.params.trans h.params
  caller := h'.caller.trans h.caller
  fault := h'.fault.trans h.fault

/-- A micro-operation with an event of its own does what the event does to the lines, and takes no level. -/
theorem State.perform_ownEvent {s : State} {o : MicroOp} {e : Event} (h : o.ownEvent s.work = some e) :
    (s.perform o).lines = s.lines.afterEvent s.params e ∧ (s.perform o).work = s.work ∧
      (s.perform o).trace = s.trace ++ [e] ∧ (s.perform o).env = s.env ∧ o.repeats (s.perform o) = false := by
  cases o with
  | low i => cases h; exact ⟨rfl, rfl, rfl, rfl, rfl⟩
  | rel i => cases h; exact ⟨rfl, rfl, rfl, rfl, rfl⟩
  | sdaFromSh =>
    cases h
    cases bit : topBit s.work.i2cSh <;> simp [perform, driveOf, sdaStep, bit, Lines.afterEvent, MicroOp.repeats]
  | set o v => cases h; exact ⟨rfl, rfl, rfl, rfl, rfl⟩
  | mosiFromSh => cases h; exact ⟨rfl, rfl, rfl, rfl, rfl⟩
  | delay k => cases h; exact ⟨rfl, rfl, rfl, rfl, rfl⟩
  | sample i => cases h
  | waitHigh => cases h

/-- One micro-operation and the assignments after it. -/
theorem Advanced.doMicro {s : State} {m : Micro} {l : Lines} {w : Work} {es : List Event} {ls : List Bit}
    (lines : (s.perform m.op).lines = l) (work : (s.perform m.op).work = w)
    (trace : (s.perform m.op).trace = s.trace ++ es) (env : (s.perform m.op).env = s.env.advance ls.length) :
    Advanced s (doMicro s m) ⟨l, m.after.foldl Work.apply w, es, ls⟩ := by
  obtain ⟨_, _, _, _, fault, params, caller⟩ := s.perform_spec m.op
  exact ⟨lines, congrArg (m.after.foldl Work.apply) work, trace, env, params, caller, fault⟩

/-- One poll of released SCL reads the environment's level, and is made again when that is 0 (R104). -/
theorem State.perform_waitHigh {s : State} (released : s.lines.scl = .rel) :
    (s.perform .waitHigh).work = { s.work with smp := s.env.bit } ∧
      (s.perform .waitHigh).trace = s.trace ++ [.sample .scl s.env.bit] ∧
      MicroOp.waitHigh.repeats (s.perform .waitHigh) = !s.env.bit := by
  have reads : s.sampleValue .scl = s.env.bit := by simp [State.sampleValue, released, wire]
  simp [State.perform, MicroOp.repeats, reads]

/-- Polls of released SCL that read 0 `n` times and then 1 (R104). -/
theorem Performs.polls (n : Nat) (ws : List WorkOp) {s : State} (released : s.lines.scl = .rel)
    (levels : s.env.levels (stretched n).length = stretched n) :
    ∃ u, Advanced s u ⟨s.lines, ws.foldl Work.apply { s.work with smp := true },
        (stretched n).map (.sample .scl), stretched n⟩ ∧
      ∀ ms k t, Performs ms u k t → Performs (⟨.waitHigh, ws⟩ :: ms) s (n + k) t := by
  induction n generalizing s with
  | zero =>
    have high : s.env.bit = true := by simpa [stretched, Env.levels] using levels
    obtain ⟨work, trace, done⟩ := State.perform_waitHigh released
    rw [high] at work trace done
    refine ⟨Machine.doMicro s ⟨.waitHigh, ws⟩, .doMicro rfl work trace rfl, fun ms k t h => ?_⟩
    rw [Nat.zero_add]
    exact .once done h
  | succ n ih =>
    have split : stretched (n + 1) = false :: stretched n := rfl
    rw [split, List.length_cons, Env.levels, List.cons.injEq] at levels
    obtain ⟨low, levels⟩ := levels
    obtain ⟨work, trace, again⟩ := State.perform_waitHigh released
    rw [low] at trace again
    obtain ⟨u, adv, cont⟩ := ih (s := s.perform .waitHigh) released levels
    rw [work] at adv
    have first : Advanced s (s.perform .waitHigh) ⟨s.lines, _, [.sample .scl false], [false]⟩ :=
      ⟨rfl, rfl, trace, rfl, rfl, rfl, rfl⟩
    refine ⟨u, first.andThen adv, fun ms k t h => ?_⟩
    rw [Nat.add_right_comm]
    exact .again again (cont ms k t h)

/-- The effect of a micro-operation is what the block does when the environment gives its levels. -/
theorem Micro.effect_sound {m : Micro} {ns ns' : List Nat} {vs vs' : List Bit} {s : State} {e : Effect}
    (h : m.effect s.params ns vs s.lines s.work = some (e, ns', vs'))
    (levels : s.env.levels e.levels.length = e.levels) :
    ∃ u d, Advanced s u e ∧ ns.sum = d + ns'.sum ∧
      ∀ ms k t, Performs ms u k t → Performs (m :: ms) s (d + k) t := by
  unfold Micro.effect at h
  split at h
  · next ev hev =>
    obtain ⟨lines, work, trace, env, done⟩ := State.perform_ownEvent hev
    cases h
    exact ⟨doMicro s m, 0, .doMicro lines work trace env, (Nat.zero_add _).symm,
      fun ms k t h => by rw [Nat.zero_add]; exact .once done h⟩
  · split at h
    · next i v vs hop =>
      cases h
      have reads : s.sampleValue i = i.reading s.lines v := by
        have bit : s.env.bit = v := by simpa [Env.levels] using levels
        rw [State.sampleValue_eq, bit]
      have perform : s.perform m.op = s.sample i := by rw [hop]; rfl
      refine ⟨doMicro s m, 0, .doMicro ?_ ?_ ?_ ?_, (Nat.zero_add _).symm,
        fun ms k t h => by rw [Nat.zero_add]; exact .once (by rw [hop]; rfl) h⟩
      · rw [perform]; rfl
      · rw [perform, State.sample_work, reads]
      · rw [perform, State.sample_trace, reads]
      · rw [perform]; rfl
    · next n ns hop =>
      split at h
      · next released =>
        cases h
        obtain ⟨o, ws⟩ := m
        obtain rfl : o = .waitHigh := hop
        obtain ⟨u, adv, cont⟩ := Performs.polls n ws released levels
        exact ⟨u, n, adv, by simp, cont⟩
      · cases h
    · cases h

theorem Env.levels_append {e : Env} {xs ys : List Bit} (h : e.levels (xs ++ ys).length = xs ++ ys) :
    e.levels xs.length = xs ∧ (e.advance xs.length).levels ys.length = ys := by
  rw [List.length_append, Env.levels_add] at h
  exact List.append_inj h (Env.levels_length _ _)

/-- The effect of a sequence is what the block does, performing it to its end, when the environment gives its levels. -/
theorem seqEffect_sound {ms : List Micro} {ns : List Nat} {vs : List Bit} {s : State} {e : Effect}
    (h : seqEffect s.params ms ns vs s.lines s.work = some e) (levels : s.env.levels e.levels.length = e.levels) :
    ∃ t, Performs ms s ns.sum t ∧ Advanced s t e := by
  induction ms generalizing s ns vs e with
  | nil =>
    obtain ⟨⟨rfl, -⟩, he⟩ := Option.ite_none_right_eq_some.1 h
    cases he
    exact ⟨s, .nil s, rfl, rfl, by simp, rfl, rfl, rfl, rfl⟩
  | cons m ms ih =>
    obtain ⟨⟨e₁, ns', vs'⟩, hm, hmap⟩ := Option.bind_eq_some_iff.1 h
    obtain ⟨e₂, hms, rfl⟩ := Option.map_eq_some_iff.1 hmap
    obtain ⟨levels₁, levels₂⟩ := Env.levels_append levels
    obtain ⟨u, d, adv, sum, cont⟩ := Micro.effect_sound hm levels₁
    rw [← adv.lines, ← adv.work, ← adv.params] at hms
    rw [← adv.env] at levels₂
    obtain ⟨t, performs, adv'⟩ := ih hms levels₂
    exact ⟨t, sum ▸ cont _ _ _ performs, adv.andThen adv'⟩

/-- A request is completed, one step for each poll of SCL that reads 0, with the effect of its sequence. -/
theorem completes_of_effect {r : Request} {ns : List Nat} {vs : List Bit} {s : State} {e : Effect} (ready : s.Ready)
    (undisturbed : s.Undisturbed)
    (h : seqEffect s.params (microSeq s.params r) ns vs s.lines ((initialWork r).foldl Work.apply s.work) = some e)
    (levels : s.env.levels e.levels.length = e.levels) :
    ∃ t, Completes r ns.sum s (t.complete r) ∧ Advanced (s.accept r) t e := by
  obtain ⟨t, performs, adv⟩ := seqEffect_sound (s := s.accept r) h levels
  have completed := performs.completedIn (r := r) (k := 0) rfl ready.2 undisturbed rfl
  have exec : exec r.toInstr s = .next (runRequest r s).state :=
    (exec_request r s).trans (whenAccepting_ready _ ready)
  refine ⟨t, ⟨rfl, congrArg (·.bridge) adv.caller, _, exec, ?_⟩, adv⟩
  cases hn : ns.sum with
  | zero =>
    rw [hn] at completed
    have finished : runRequest r s = .finished (t.complete r) := completed
    rw [finished]; rfl
  | succ n =>
    rw [hn] at completed
    obtain ⟨u, paused, hrun⟩ := completed
    have paused : runRequest r s = .paused u := paused
    rw [paused]; exact hrun

/-! Pieces of a request's sequence, each with the events its rule lists. -/

/-- The micro-operations do the events of the rule, with the polls of SCL after its releases (R104), and take the given
levels; there are as many stretches as releases, or none when SCL is not polled. -/
structure Does (p : Params) (ms : List Micro) (es : List Event) (ns : List Nat) (vs ls : List Bit) (l l' : Lines)
    (w w' : Work) : Prop where
  length : ns.length = if p.sclWait then es.count (.rel .scl) else 0
  effect : seqEffect p ms ns vs l w = some ⟨l', w', withSclPolls ns es, ls⟩

/-- Answers that are left over stay left over. -/
theorem Micro.effect_append {p : Params} {m : Micro} {ns ns' : List Nat} {vs vs' : List Bit} {l : Lines} {w : Work}
    {e : Effect} (h : m.effect p ns vs l w = some (e, ns', vs')) (ns'' : List Nat) (vs'' : List Bit) :
    m.effect p (ns ++ ns'') (vs ++ vs'') l w = some (e, ns' ++ ns'', vs' ++ vs'') := by
  unfold Micro.effect at h ⊢
  split at h
  · cases h; rfl
  · split at h
    · next hop => cases h; simp [hop]
    · next hop =>
      split at h
      · next released => cases h; simp [hop, released]
      · cases h
    · cases h

theorem seqEffect_append {p : Params} {ms ms' : List Micro} {ns ns' : List Nat} {vs vs' : List Bit} {l : Lines}
    {w : Work} {e e' : Effect} (h : seqEffect p ms ns vs l w = some e)
    (h' : seqEffect p ms' ns' vs' e.lines e.work = some e') :
    seqEffect p (ms ++ ms') (ns ++ ns') (vs ++ vs') l w = some (e.andThen e') := by
  induction ms generalizing ns vs l w e with
  | nil =>
    obtain ⟨⟨rfl, rfl⟩, he⟩ := Option.ite_none_right_eq_some.1 h
    cases he
    exact h'
  | cons m ms ih =>
    obtain ⟨⟨e₁, ns₁, vs₁⟩, hm, hmap⟩ := Option.bind_eq_some_iff.1 h
    obtain ⟨e₂, hms, rfl⟩ := Option.map_eq_some_iff.1 hmap
    rw [List.cons_append, seqEffect, Micro.effect_append hm]
    simp only [Option.bind_some, ih hms h', Option.map_some]
    simp [Effect.andThen]

/-- The polls of two lists of events, one after the other. -/
theorem withSclPolls_append {wait : Bool} {ns ns' : List Nat} {es es' : List Event}
    (h : ns.length = if wait then es.count (.rel .scl) else 0)
    (h' : ns'.length = if wait then es'.count (.rel .scl) else 0) :
    withSclPolls (ns ++ ns') (es ++ es') = withSclPolls ns es ++ withSclPolls ns' es' := by
  cases wait with
  | false =>
    obtain ⟨rfl, rfl⟩ : ns = [] ∧ ns' = [] := ⟨List.length_eq_zero_iff.1 h, List.length_eq_zero_iff.1 h'⟩
    simp
  | true =>
    clear h'
    induction es generalizing ns with
    | nil =>
      obtain rfl : ns = [] := List.length_eq_zero_iff.1 h
      rfl
    | cons e es ih =>
      by_cases he : e = .rel .scl
      · subst he
        cases ns with
        | nil => simp at h
        | cons n ns => simp [withSclPolls, ih (ns := ns) (by simpa using h)]
      · simp [withSclPolls, he, ih (ns := ns) (by simpa [List.count_cons, he] using h)]

theorem Does.append {p : Params} {ms ms' : List Micro} {es es' : List Event} {ns ns' : List Nat}
    {vs vs' ls ls' : List Bit} {l l' l'' : Lines} {w w' w'' : Work} (h : Does p ms es ns vs ls l l' w w')
    (h' : Does p ms' es' ns' vs' ls' l' l'' w' w'') :
    Does p (ms ++ ms') (es ++ es') (ns ++ ns') (vs ++ vs') (ls ++ ls') l l'' w w'' where
  length := by rw [List.length_append, h.length, h'.length, List.count_append]; split <;> rfl
  effect := by rw [withSclPolls_append h.length h'.length]; exact seqEffect_append h.effect h'.effect

/-- One micro-operation that neither releases SCL nor takes a level. -/
theorem Does.single {p : Params} {o : MicroOp} {e : Event} {l : Lines} {w : Work} (h : o.ownEvent w = some e)
    (he : e ≠ .rel .scl) (ws : List WorkOp) :
    Does p [⟨o, ws⟩] [e] [] [] [] l (l.afterEvent p e) w (ws.foldl Work.apply w) where
  length := by simp [he]
  effect := by simp [seqEffect, Micro.effect, h, Effect.andThen]

/-- `SCL_UP` (R104). -/
theorem sclUp_does {p : Params} {ns : List Nat} (h : ns.length = if p.sclWait then 1 else 0) (l : Lines) (w : Work) :
    Does p (sclUp p) [.rel .scl] ns [] (ns.flatMap stretched) l { l with scl := .rel } w
      { w with smp := p.sclWait || w.smp } where
  length := by simpa using h
  effect := by
    cases wait : p.sclWait with
    | false =>
      obtain rfl : ns = [] := by simpa [wait] using h
      simp [sclUp, wait, op, seqEffect, Micro.effect, MicroOp.ownEvent, Lines.afterEvent, Lines.setDrive,
        Effect.andThen]
    | true =>
      obtain ⟨n, rfl⟩ : ∃ n, ns = [n] := List.length_eq_one_iff.1 (by simpa [wait] using h)
      simp [sclUp, wait, op, seqEffect, Micro.effect, MicroOp.ownEvent, Lines.afterEvent, Lines.setDrive,
        Effect.andThen, withSclPolls]

/-- `SAMPLE(SDA)` of released SDA (R22). -/
theorem sampleSda_does (p : Params) (v : Bit) {l : Lines} (released : l.sda = .rel) (w : Work) :
    Does p [op (.sample .sda)] [.sample .sda v] [] [v] [v] l l w { w with smp := v } where
  length := by simp
  effect := by simp [op, seqEffect, Micro.effect, MicroOp.ownEvent, InputLine.reading, released, wire, Effect.andThen]

/-- Micro-operations that neither release SCL nor take a level, run one after the other. -/
theorem Does.quiet {p : Params} {ms : List Micro} {es : List Event} {l l' : Lines} {w w' : Work}
    (h : seqEffect p ms [] [] l w = some ⟨l', w', es, []⟩) (he : .rel .scl ∉ es) : Does p ms es [] [] [] l l' w w' where
  length := by simp [List.count_eq_zero_of_not_mem he]
  effect := by rw [withSclPolls_nil]; exact h

theorem i2cStart_does {p : Params} {ns : List Nat} (h : ns.length = if p.sclWait then 1 else 0) (l : Lines) (w : Work) :
    Does p (i2cStartSeq p) startEvents ns [] (ns.flatMap stretched) l (requestLines l .i2cStart) w
      { w with smp := p.sclWait || w.smp } := by
  have before : Does p [op (.rel .sda)] [.rel .sda] [] [] [] l { l with sda := .rel } w w := .quiet rfl (by simp)
  have after : ∀ l w, Does p ([dI2c [], op (.low .sda), dI2c []] ++ sclDown [])
      [.delay .i2c, .low .sda, .delay .i2c, .low .scl, .delay .i2c] [] [] [] l
      { l with scl := .low, sda := .low } w w :=
    fun l w => .quiet rfl (by simp)
  simpa [i2cStartSeq, startEvents, requestLines] using (before.append (sclUp_does h _ _)).append (after _ _)

theorem i2cStop_does {p : Params} {ns : List Nat} (h : ns.length = if p.sclWait then 1 else 0) (l : Lines) (w : Work) :
    Does p (i2cStopSeq p) stopEvents ns [] (ns.flatMap stretched) l (requestLines l .i2cStop) w
      { w with smp := p.sclWait || w.smp } := by
  have before : Does p [op (.low .sda), dI2c []] [.low .sda, .delay .i2c] [] [] [] l { l with sda := .low } w w :=
    .quiet rfl (by simp)
  have after : ∀ l w, Does p [dI2c [], op (.rel .sda), dI2c []] [.delay .i2c, .rel .sda, .delay .i2c] [] [] [] l
      { l with sda := .rel } w w := fun l w => .quiet rfl (by simp)
  simpa [i2cStopSeq, stopEvents, requestLines] using (before.append (sclUp_does h _ _)).append (after _ _)

/-! Bytes on the wire, most significant bit first (R52). -/

/-- The first `k` bits shifted out of a register (R108, R144). -/
def shiftedOut : Nat → Byte → List Bit
  | 0, _ => []
  | k + 1, b => topBit b :: shiftedOut k (shl1 b)

theorem shiftedOut_eight (b : Byte) : shiftedOut 8 b = bitsOf b := by
  simp [shiftedOut, bitsOf, topBit, shl1]

theorem shl1_eight (b : Byte) : shl1^[8] b = 0x00#8 := by
  simp [shl1, ← BitVec.shiftLeft_add]

theorem topBit_shl1_seven (b : Byte) : topBit (shl1^[7] b) = b.getLsbD 0 := by
  simp [shl1, topBit]

/-- A bit more is one more shifted in (R109, R145). -/
theorem byteOfBits_concat (vs : List Bit) (v : Bit) : byteOfBits (vs ++ [v]) = shiftIn (byteOfBits vs) v := by
  simp only [byteOfBits, List.foldl_append, List.foldl_cons, List.foldl_nil, shiftIn, shl1]
  generalize List.foldl _ 0 vs = n
  have double : 2 * n + v.toNat = n <<< 1 ||| v.toNat := by
    rw [← Nat.shiftLeft_add_eq_or_of_lt (by cases v <;> simp), Nat.shiftLeft_eq, Nat.mul_comm, Nat.pow_one]
  rw [double, BitVec.ofNat_or]
  apply BitVec.eq_of_toNat_eq
  cases v <;> simp [zext8, Nat.shiftLeft_eq]

theorem byteOfBits_eq_foldl (vs : List Bit) : byteOfBits vs = vs.foldl shiftIn 0x00#8 := by
  induction vs using List.reverseRecOn with
  | nil => rfl
  | append_singleton vs v ih => rw [byteOfBits_concat, List.foldl_concat, ih]

/-- The step that puts a bit on SDA (R108). -/
theorem Lines.afterEvent_sdaStep (p : Params) (l : Lines) (v : Bit) :
    l.afterEvent p (sdaStep v) = { l with sda := driveOf v } := by
  cases v <;> rfl

theorem sdaStep_ne_relScl (v : Bit) : sdaStep v ≠ .rel .scl := by
  cases v <;> simp [sdaStep]

theorem sclDown_does (p : Params) (ws : List WorkOp) (l : Lines) (w : Work) :
    Does p (sclDown ws) [.low .scl, .delay .i2c] [] [] [] l { l with scl := .low } w (ws.foldl Work.apply w) :=
  .quiet rfl (by simp)

theorem delayI2c_does (p : Params) (ws : List WorkOp) (l : Lines) (w : Work) :
    Does p [dI2c ws] [.delay .i2c] [] [] [] l l w (ws.foldl Work.apply w) :=
  .quiet rfl (by simp)

/-- The events of one bit that the engine sends (R108, R109). -/
def sentBitEvents (v : Bit) : List Event := [sdaStep v, .delay .i2c, .rel .scl, .delay .i2c, .low .scl, .delay .i2c]

/-- A bit put on SDA, and its clock (R108, R109). -/
theorem sentBit_does {p : Params} {ns : List Nat} (h : ns.length = if p.sclWait then 1 else 0) {o : MicroOp} {v : Bit}
    {w : Work} (ho : o.ownEvent w = some (sdaStep v)) (ws : List WorkOp) (l : Lines) :
    Does p ([op o, dI2c []] ++ sclUp p ++ [dI2c []] ++ sclDown ws) (sentBitEvents v) ns [] (ns.flatMap stretched) l
      { l with scl := .low, sda := driveOf v } w (ws.foldl Work.apply { w with smp := p.sclWait || w.smp }) := by
  have put : Does p [op o] [sdaStep v] [] [] [] l { l with sda := driveOf v } w w := by
    rw [← l.afterEvent_sdaStep p]
    exact .single ho (sdaStep_ne_relScl v) []
  simpa [sentBitEvents] using
    (((put.append (delayI2c_does p [] _ _)).append (sclUp_does h _ _)).append (delayI2c_does p [] _ _)).append
      (sclDown_does p ws _ _)

/-- The answers of a first release and of the others. -/
theorem exists_append_of_length {wait : Bool} {ns : List Nat} {j k : Nat}
    (h : ns.length = if wait then j + k else 0) :
    ∃ ns₁ ns₂, ns = ns₁ ++ ns₂ ∧ (ns₁.length = if wait then j else 0) ∧ (ns₂.length = if wait then k else 0) := by
  cases wait with
  | false => exact ⟨[], [], by simpa using h, rfl, rfl⟩
  | true => exact ⟨ns.take j, ns.drop j, (List.take_append_drop j ns).symm, by simp_all, by simp_all⟩

/-- The loop of `I2C.WRITE` (R108): it sends the bits it shifts out. -/
theorem i2cWriteLoop_does {p : Params} (k : Nat) {ns : List Nat} (h : ns.length = if p.sclWait then k + 1 else 0)
    (l : Lines) (w : Work) :
    Does p (List.replicate (k + 1) (i2cWriteBit p)).flatten ((shiftedOut (k + 1) w.i2cSh).flatMap sentBitEvents) ns []
      (ns.flatMap stretched) l { l with scl := .low, sda := driveOf (topBit (shl1^[k] w.i2cSh)) } w
      { w with i2cSh := shl1^[k + 1] w.i2cSh, i2cCnt := (· + 1)^[k + 1] w.i2cCnt, smp := p.sclWait || w.smp } := by
  induction k generalizing ns l w with
  | zero =>
    have only := sentBit_does h (o := .sdaFromSh) rfl [.i2cShift, .i2cBitDone] l (w := w)
    simpa [i2cWriteBit, shiftedOut, Work.apply] using only
  | succ k ih =>
    rw [Nat.add_comm] at h
    obtain ⟨ns₁, ns₂, rfl, h₁, h₂⟩ := exists_append_of_length h
    have first := sentBit_does h₁ (o := .sdaFromSh) rfl [.i2cShift, .i2cBitDone] l (w := w)
    have all := first.append (ih h₂ _ _)
    rw [← List.flatMap_append] at all
    simp only [List.foldl_cons, List.foldl_nil, Work.apply, Bool.or_self_left] at all
    exact all

/-- The events of the acknowledge clock of `I2C.WRITE` (R108). -/
def ackEvents (v : Bit) : List Event :=
  [.rel .sda, .delay .i2c, .rel .scl, .sample .sda v, .delay .i2c, .low .scl, .delay .i2c]

/-- The acknowledge clock of `I2C.WRITE` (R108). -/
theorem i2cWriteAck_does {p : Params} {ns : List Nat} (h : ns.length = if p.sclWait then 1 else 0) (v : Bit) (l : Lines)
    (w : Work) :
    Does p (i2cWriteAck p) (ackEvents v) ns [v] (ns.flatMap stretched ++ [v]) l { l with scl := .low, sda := .rel } w
      { w with smp := v } := by
  have release : Does p [op (.rel .sda), dI2c []] [.rel .sda, .delay .i2c] [] [] [] l { l with sda := .rel } w w :=
    .quiet rfl (by simp)
  have clocked := (release.append (sclUp_does h _ _)).append (sampleSda_does p v rfl _)
  simpa [i2cWriteAck, ackEvents] using (clocked.append (delayI2c_does p [] _ _)).append (sclDown_does p [] _ _)

/-- `I2C.WRITE b` (R108). -/
theorem i2cWrite_does {p : Params} {ns : List Nat} (h : ns.length = if p.sclWait then 9 else 0) (b : Byte) (v : Bit)
    (l : Lines) (w : Work) (loaded : w.i2cSh = b) :
    Does p (i2cWriteSeq p) (writeEvents b v) ns [v] (ns.flatMap stretched ++ [v]) l (requestLines l (.i2cWrite b)) w
      { w with i2cSh := 0x00, i2cCnt := (· + 1)^[8] w.i2cCnt, smp := v } := by
  obtain ⟨ns₁, ns₂, rfl, h₁, h₂⟩ := exists_append_of_length (j := 8) (k := 1) h
  have all := (i2cWriteLoop_does 7 h₁ l w).append (i2cWriteAck_does h₂ v _ _)
  rw [loaded, shiftedOut_eight, shl1_eight, ← List.append_assoc, ← List.flatMap_append] at all
  exact all

/-- The events of one bit that the engine receives (R109). -/
def receivedBitEvents (v : Bit) : List Event := [.rel .scl, .sample .sda v, .delay .i2c, .low .scl, .delay .i2c]

/-- One clock of `I2C.READ`, SDA released (R109). -/
theorem i2cReadBit_does {p : Params} {ns : List Nat} (h : ns.length = if p.sclWait then 1 else 0) (v : Bit) {l : Lines}
    (released : l.sda = .rel) (w : Work) :
    Does p (i2cReadBit p) (receivedBitEvents v) ns [v] (ns.flatMap stretched ++ [v]) l { l with scl := .low } w
      { w with i2cAcc := shiftIn w.i2cAcc v, i2cCnt := w.i2cCnt + 1, smp := v } := by
  have sampled := (sclUp_does h l w).append (sampleSda_does p v (l := { l with scl := .rel }) released _)
  simpa [i2cReadBit, receivedBitEvents, Work.apply] using
    (sampled.append (delayI2c_does p [.i2cAccIn] _ _)).append (sclDown_does p [.i2cBitDone] _ _)

/-- `I2C.READ` sends the acknowledge bit like a bit of a byte (R109). -/
theorem i2cReadAck_does {p : Params} {ns : List Nat} (h : ns.length = if p.sclWait then 1 else 0) (a : Bool) (l : Lines)
    (w : Work) :
    Does p (i2cReadAck p a) (sentBitEvents (!a)) ns [] (ns.flatMap stretched) l
      { l with scl := .low, sda := driveOf (!a) } w { w with smp := p.sclWait || w.smp } := by
  have ack : MicroOp.ownEvent w (if a then .low .sda else .rel .sda) = some (sdaStep (!a)) := by cases a <;> rfl
  exact sentBit_does h ack [] l

theorem readLevels_nil (ns : List Nat) : readLevels ns [] = ns.flatMap stretched := by
  induction ns with
  | nil => rfl
  | cons n ns ih => rw [readLevels, ih, List.flatMap_cons]

theorem readLevels_cons {wait : Bool} {ns₁ ns₂ : List Nat} {v : Bit} {vs : List Bit}
    (h₁ : ns₁.length = if wait then 1 else 0) (h₂ : ns₂.length = if wait then vs.length + 1 else 0) :
    readLevels (ns₁ ++ ns₂) (v :: vs) = (ns₁.flatMap stretched ++ [v]) ++ readLevels ns₂ vs := by
  cases wait with
  | false =>
    obtain ⟨rfl, rfl⟩ : ns₁ = [] ∧ ns₂ = [] := ⟨List.length_eq_zero_iff.1 h₁, List.length_eq_zero_iff.1 h₂⟩
    simp [readLevels]
  | true =>
    obtain ⟨n, rfl⟩ := List.length_eq_one_iff.1 h₁
    simp [readLevels]

/-- The loop of `I2C.READ` with its acknowledge clock (R109). -/
theorem i2cReadLoop_does {p : Params} {ns : List Nat} {vs : List Bit}
    (h : ns.length = if p.sclWait then vs.length + 1 else 0) (a : Bool) {l : Lines} (released : l.sda = .rel)
    (w : Work) :
    ∃ v, Does p ((List.replicate vs.length (i2cReadBit p)).flatten ++ i2cReadAck p a)
      (vs.flatMap receivedBitEvents ++ sentBitEvents (!a)) ns vs (readLevels ns vs) l
      { l with scl := .low, sda := driveOf (!a) } w
      { w with i2cAcc := vs.foldl shiftIn w.i2cAcc, i2cCnt := (· + 1)^[vs.length] w.i2cCnt, smp := v } := by
  induction vs generalizing ns l w with
  | nil => exact ⟨p.sclWait || w.smp, readLevels_nil ns ▸ i2cReadAck_does h a l w⟩
  | cons v vs ih =>
    rw [List.length_cons, Nat.add_comm] at h
    obtain ⟨ns₁, ns₂, rfl, h₁, h₂⟩ := exists_append_of_length h
    have first := i2cReadBit_does h₁ v released w
    obtain ⟨v', rest⟩ := ih h₂ (l := { l with scl := .low }) released
      { w with i2cAcc := shiftIn w.i2cAcc v, i2cCnt := w.i2cCnt + 1, smp := v }
    refine ⟨v', ?_⟩
    rw [readLevels_cons h₁ h₂, List.flatMap_cons, List.append_assoc, List.length_cons, List.replicate_succ,
      List.flatten_cons, List.append_assoc]
    exact first.append rest

/-- `I2C.READ ACK|NACK` (R109). -/
theorem i2cRead_does {p : Params} {ns : List Nat} {vs : List Bit} (h : ns.length = if p.sclWait then 9 else 0)
    (hv : vs.length = 8) (a : Bool) (l : Lines) (w : Work) :
    ∃ v, Does p (i2cReadSeq p a) (readEvents a vs) ns vs (readLevels ns vs) l (requestLines l (.i2cRead a)) w
      { w with i2cAcc := byteOfBits vs, i2cCnt := (· + 1)^[8] w.i2cCnt, smp := v } := by
  have release : Does p [op (.rel .sda), dI2c [.i2cAccClear]] [.rel .sda, .delay .i2c] [] [] [] l
    { l with sda := .rel } w { w with i2cAcc := 0x00 } := .quiet rfl (by simp)
  obtain ⟨v, loop⟩ := i2cReadLoop_does (vs := vs) (by rw [hv]; exact h) a (l := { l with sda := .rel }) rfl
    { w with i2cAcc := 0x00 }
  refine ⟨v, ?_⟩
  have all := release.append loop
  have lines : requestLines l (.i2cRead a) = { l with scl := .low, sda := driveOf (!a) } := by cases a <;> rfl
  rw [hv] at all
  rw [lines, byteOfBits_eq_foldl, i2cReadSeq, readEvents, List.append_assoc, List.append_assoc]
  exact all

/-! SPI (R142 to R145). -/

/-- `SET(CS, v)` at the level of a logical value (R142, R143). -/
theorem setCs_does (p : Params) (c : CsState) (l : Lines) (w : Work) :
    Does p [op (.set .cs (csLevel p c))] [.set .cs (csLevel p c)] [] [] [] l { l with cs := c } w w := by
  have set := Does.single (p := p) (o := .set .cs (csLevel p c)) (l := l) (w := w) rfl (by simp) []
  simpa [op, Lines.afterEvent, Lines.setOut] using set

/-- The events of one bit of `SPI.WRITE` (R144). -/
def spiSentBitEvents (v : Bit) : List Event :=
  [.set .mosi v, .delay .spi, .set .sck true, .delay .spi, .set .sck false]

/-- One bit of `SPI.WRITE` (R144). -/
theorem spiWriteBit_does (p : Params) (l : Lines) (w : Work) :
    Does p spiWriteBit (spiSentBitEvents (topBit w.spiSh)) [] [] [] l
      { l with sck := false, mosi := topBit w.spiSh } w { w with spiSh := shl1 w.spiSh, spiCnt := w.spiCnt + 1 } :=
  .quiet rfl (by simp [spiSentBitEvents])

/-- The loop of `SPI.WRITE` (R144). -/
theorem spiWriteLoop_does (p : Params) (k : Nat) (l : Lines) (w : Work) :
    Does p (List.replicate (k + 1) spiWriteBit).flatten ((shiftedOut (k + 1) w.spiSh).flatMap spiSentBitEvents)
      [] [] [] l { l with sck := false, mosi := topBit (shl1^[k] w.spiSh) } w
      { w with spiSh := shl1^[k + 1] w.spiSh, spiCnt := (· + 1)^[k + 1] w.spiCnt } := by
  induction k generalizing l w with
  | zero => exact spiWriteBit_does p l w
  | succ k ih =>
    have rest := ih { l with sck := false, mosi := topBit w.spiSh }
      { w with spiSh := shl1 w.spiSh, spiCnt := w.spiCnt + 1 }
    exact (spiWriteBit_does p l w).append rest

/-- `SPI.WRITE b` (R144). -/
theorem spiWrite_does (p : Params) (b : Byte) (l : Lines) (w : Work) (loaded : w.spiSh = b) :
    Does p spiWriteSeq (spiWriteEvents b) [] [] [] l (requestLines l (.spiWrite b)) w
      { w with spiSh := 0x00, spiCnt := (· + 1)^[8] w.spiCnt } := by
  have loop := spiWriteLoop_does p 7 l w
  rw [loaded, shiftedOut_eight, shl1_eight, topBit_shl1_seven] at loop
  exact loop

/-- The events of one bit of `SPI.READ` (R145). -/
def spiReceivedBitEvents (v : Bit) : List Event :=
  [.delay .spi, .set .sck true, .delay .spi, .sample .miso v, .set .sck false]

/-- One bit of `SPI.READ` (R145). -/
theorem spiReadBit_does (p : Params) (v : Bit) (l : Lines) (w : Work) :
    Does p spiReadBit (spiReceivedBitEvents v) [] [v] [v] l
      { l with sck := false } w { w with spiAcc := shiftIn w.spiAcc v, spiCnt := w.spiCnt + 1, smp := v } where
  length := by simp [spiReceivedBitEvents]
  effect := rfl

/-- The loop of `SPI.READ` (R145). -/
theorem spiReadLoop_does (p : Params) (v : Bit) (vs : List Bit) (l : Lines) (w : Work) :
    ∃ v', Does p (List.replicate (v :: vs).length spiReadBit).flatten (spiReadEvents (v :: vs)) [] (v :: vs) (v :: vs) l
      { l with sck := false } w
      { w with
        spiAcc := (v :: vs).foldl shiftIn w.spiAcc
        spiCnt := (· + 1)^[(v :: vs).length] w.spiCnt
        smp := v' } := by
  induction vs generalizing v l w with
  | nil => exact ⟨v, spiReadBit_does p v l w⟩
  | cons v₂ vs ih =>
    obtain ⟨v', rest⟩ := ih v₂ { l with sck := false }
      { w with spiAcc := shiftIn w.spiAcc v, spiCnt := w.spiCnt + 1, smp := v }
    exact ⟨v', (spiReadBit_does p v l w).append rest⟩

/-- `SPI.READ` (R145). -/
theorem spiRead_does (p : Params) {vs : List Bit} (hv : vs.length = 8) (l : Lines) (w : Work)
    (cleared : w.spiAcc = 0x00) :
    ∃ v, Does p spiReadSeq (spiReadEvents vs) [] vs vs l (requestLines l .spiRead) w
      { w with spiAcc := byteOfBits vs, spiCnt := (· + 1)^[8] w.spiCnt, smp := v } := by
  obtain ⟨v₀, vs, rfl⟩ := List.exists_cons_of_length_eq_add_one hv
  obtain ⟨v, loop⟩ := spiReadLoop_does p v₀ vs l w
  rw [hv, cleared] at loop
  rw [byteOfBits_eq_foldl]
  exact ⟨v, loop⟩

/-! Every request, given the answers of the environment. -/

theorem requestWord_eq_specWord (r : Request) : requestWord r = specWord r := by
  cases r with
  | i2cWrite b => simp [requestWord, codeWord, Request.toInstr, encode, mkWord, specWord]
  | i2cRead a => cases a <;> rfl
  | spiWrite b => simp [requestWord, codeWord, Request.toInstr, encode, mkWord, specWord]
  | _ => rfl

/-- A request's sequence does the events its rule lists, leaves the lines it says, and answers the response (R74). -/
theorem microSeq_does {p : Params} {r : Request} {ns : List Nat} {vs : List Bit}
    (hn : ns.length = if p.sclWait then sclReleases r else 0) (hv : vs.length = samplesOf r) (l : Lines) (w : Work) :
    ∃ w', Does p (microSeq p r) (requestEvents p r vs) ns vs (wireLevels r ns vs) l (requestLines l r)
        ((initialWork r).foldl Work.apply w) w' ∧
      response r w' = requestResponse r vs := by
  have noneSpi : sclReleases r = 0 → ns = [] := fun h => List.length_eq_zero_iff.1 (by simpa [h] using hn)
  cases r with
  | i2cStart =>
    obtain rfl := List.length_eq_zero_iff.1 hv
    rw [wireLevels, List.append_nil]
    exact ⟨_, i2cStart_does hn l w, rfl⟩
  | i2cStop =>
    obtain rfl := List.length_eq_zero_iff.1 hv
    rw [wireLevels, List.append_nil]
    exact ⟨_, i2cStop_does hn l w, rfl⟩
  | i2cWrite b =>
    obtain ⟨v, rfl⟩ := List.length_eq_one_iff.1 hv
    exact ⟨_, i2cWrite_does hn b v l _ rfl, rfl⟩
  | i2cRead a =>
    obtain ⟨v, does⟩ := i2cRead_does hn hv a l _
    exact ⟨_, does, rfl⟩
  | spiCsa =>
    obtain rfl := noneSpi rfl
    obtain rfl := List.length_eq_zero_iff.1 hv
    have events : requestEvents p .spiCsa [] = [.set .cs (csLevel p .asserted)] := by
      cases h : p.csActiveLow <;> simp [requestEvents, csaEvents, csLevel, h]
    exact ⟨w, events ▸ setCs_does p .asserted l w, rfl⟩
  | spiCsd =>
    obtain rfl := noneSpi rfl
    obtain rfl := List.length_eq_zero_iff.1 hv
    have events : requestEvents p .spiCsd [] = [.set .cs (csLevel p .deasserted)] := by
      cases h : p.csActiveLow <;> simp [requestEvents, csdEvents, csLevel, h]
    exact ⟨w, events ▸ setCs_does p .deasserted l w, rfl⟩
  | spiWrite b =>
    obtain rfl := noneSpi rfl
    obtain rfl := List.length_eq_zero_iff.1 hv
    exact ⟨_, spiWrite_does p b l _ rfl, rfl⟩
  | spiRead =>
    obtain rfl := noneSpi rfl
    obtain ⟨v, does⟩ := spiRead_does p hv l (Work.apply (Work.apply w .spiAccClear) .spiCntClear) rfl
    exact ⟨_, does, rfl⟩

/-- `t` is `s` after request `r` was performed to its end with the given answers of the environment: `Performed`, with
the polls of SCL, one step for each that reads 0; the working values are left out. -/
structure PerformedWithPolls (r : Request) (ns : List Nat) (vs : List Bit) (s t : State) : Prop where
  completes : Completes r ns.sum s t
  lines : t.lines = requestLines s.lines r
  trace : t.trace = s.trace ++ ([.req (specWord r)] ++ withSclPolls ns (requestEvents s.params r vs)
    ++ [.resp (requestResponse r vs)])
  fault : t.fault = none
  params : t.params = s.params
  caller : t.caller = { s.caller with resp := requestResponse r vs }
  env : t.env = s.env.advance (wireLevels r ns vs).length

/-- A ready block completes a request with what its sequence does. -/
theorem Does.performed {r : Request} {ns : List Nat} {vs : List Bit} {s : State} {w : Work}
    (does : Does s.params (microSeq s.params r) (requestEvents s.params r vs) ns vs (wireLevels r ns vs) s.lines
      (requestLines s.lines r) ((initialWork r).foldl Work.apply s.work) w)
    (resp : response r w = requestResponse r vs) (ready : s.Ready) (undisturbed : s.Undisturbed)
    (levels : s.env.levels (wireLevels r ns vs).length = wireLevels r ns vs) :
    ∃ t, PerformedWithPolls r ns vs s t ∧ t.work = w := by
  obtain ⟨t, completes, adv⟩ := completes_of_effect ready undisturbed does.effect levels
  have answer : response r t.work = requestResponse r vs := by rw [adv.work]; exact resp
  refine ⟨t.complete r, ⟨completes, adv.lines, ?_, adv.fault.trans ready.2, adv.params, ?_, adv.env⟩, adv.work⟩
  · simp [answer, adv.trace, requestWord_eq_specWord]
  · simp [answer, adv.caller]

/-- A ready block completes every request that the environment answers. -/
theorem request_performed {r : Request} {ns : List Nat} {vs : List Bit} {s : State} (ready : s.Ready)
    (undisturbed : s.Undisturbed) (answers : s.Answers r ns vs) : ∃ t, PerformedWithPolls r ns vs s t := by
  obtain ⟨hn, hv, levels⟩ := answers
  obtain ⟨w, does, resp⟩ := microSeq_does hn hv s.lines s.work
  obtain ⟨t, performed, -⟩ := does.performed resp ready undisturbed levels
  exact ⟨t, performed⟩

end Sys2Proof.Machine
end

section
/-! PROOFS. The family of 10_state.md: power-on (R38 to R40), the fault mark (R30), pins (R36), and what a sample reads
(R22). -/

namespace Sys2Proof.Machine

/-! Power-on. -/

/-- Settles O50: the fields of the state after power-on, read off. -/
theorem powerOnState : Obligations.PowerOnState := ⟨rfl, rfl, rfl, rfl, rfl, rfl, rfl, rfl⟩

/-- Settles O56: the trace is empty, and the lines are the reset lines. -/
theorem traceTellsTheLinesAtReset : Obligations.TraceTellsTheLinesAtReset := rfl

/-- An idle block waits for nothing. -/
theorem State.waitsOnlyForScl_of_idle {s : State} (idle : s.phase = .idle) : s.WaitsOnlyForScl := fun r k busy => by
  rw [idle] at busy
  cases busy

/-- Settles O58: SCK is 0, and the block is idle. -/
theorem sckLowAtReset : Obligations.SckLowAtReset := ⟨rfl, State.waitsOnlyForScl_of_idle rfl⟩

/-- Without a fault mark there is nothing to tell. -/
theorem State.faultTold_of_none {s : State} (hf : s.fault = none) : s.FaultTold := fun f h => by
  rw [hf] at h
  cases h

/-- Settles O60: there is no fault mark. -/
theorem faultMarkIsToldAtReset : Obligations.FaultMarkIsToldAtReset := State.faultTold_of_none rfl

/-! No piece of work but the refusal of an ILLEGAL word sets the fault mark (R200, R201). -/

theorem runMicros_fault_none (r : Request) (ms : List Micro) {s : State} (hf : s.fault = none) :
    (runMicros r ms s).state.fault = none := by
  induction ms generalizing s with
  | nil => exact hf
  | cons m ms ih =>
    have performed : (s.countdown.perform m.op).fault = none := by
      obtain ⟨_, _, _, _, h, _⟩ := State.perform_spec s.countdown m.op
      exact h.trans hf
    rw [runMicros_cons]
    split
    · rfl
    · split
      · exact performed
      · exact ih performed

theorem runRequest_fault_none (r : Request) {s : State} (hf : s.fault = none) :
    (runRequest r s).state.fault = none :=
  runMicros_fault_none r (microSeq s.params r) (s := s.accept r) hf

theorem callerStep_fault_none {s : State} {r : Run} (hf : r.state.fault = none) :
    (callerStep s r).state.fault = none := by
  rcases callerStep_cases s r with ⟨-, e⟩ | ⟨-, e⟩ <;> rw [e]
  · rfl
  · exact hf

theorem hostWrite_fault_none (self : List BridgeOp) (b : Byte) {s : State} (hf : s.fault = none) :
    (hostWrite self b s).state.fault = none := by
  rcases hostWrite_cases self b s with ⟨-, e⟩ | ⟨-, e⟩ <;> rw [e] <;> exact hf

theorem bridgeStep_fault_none (o : BridgeOp) (rest : List BridgeOp) {s : State} (hf : s.fault = none) :
    (bridgeStep o rest s).state.fault = none := by
  have request : ∀ r, (runRequest r (s.countdown.setBridge rest)).state.fault = none := fun r =>
    runRequest_fault_none r hf
  cases o with
  | request r => exact callerStep_fault_none (request r)
  | capture => exact hf
  | hostRead =>
    refine callerStep_fault_none ?_
    split <;> exact hf
  | i2cWriteP => exact callerStep_fault_none (request _)
  | spiWriteP => exact callerStep_fault_none (request _)
  | hostWriteV => exact callerStep_fault_none (hostWrite_fault_none _ _ hf)
  | hostWriteByte b => exact callerStep_fault_none (hostWrite_fault_none _ _ hf)
  | settle => exact callerStep_fault_none hf
  | pollUntilReady =>
    simp only [bridgeStep]
    split <;> exact hf

theorem runBridge_fault_none (ops : List BridgeOp) {s : State} (hf : s.fault = none) :
    (runBridge ops s).fault = none := by
  induction ops generalizing s with
  | nil => exact hf
  | cons o rest ih =>
    have hs := bridgeStep_fault_none o rest hf
    rw [runBridge_cons]
    split
    · next t e => rw [e] at hs; exact ih hs
    · next t e => rw [e] at hs; exact hs

/-- A next state of `exec` has no fault mark: it accepted the instruction, and performed it. -/
theorem exec_fault_none {i : Instr} {s t : State} (h : exec i s = .next t) : t.fault = none := by
  obtain ⟨hf, -, ⟨r, -, rfl⟩ | ⟨-, ops, rfl⟩⟩ := exec_next h
  · exact runRequest_fault_none r hf
  · exact runBridge_fault_none ops hf

theorem afterResume_fault_none {r : Run} (hf : r.state.fault = none) : (afterResume r).fault = none := by
  cases r with
  | finished t => exact runBridge_fault_none _ hf
  | paused t => exact hf

theorem stepFetched_readHeader_fault_none (bs : List Byte) {s t : State} (hf : s.fault = none)
    (h : stepFetched (readHeader bs s) = .next t) : t.fault = none := by
  rcases readHeader_cases bs s with
    ⟨u, e, ⟨_, _, _, _, kept, _⟩ | ⟨v, _, rfl, _⟩⟩ | ⟨r, e⟩ | ⟨i, u, _, e, _⟩ <;> rw [e] at h
  · cases h; exact kept.trans hf
  · cases h; rfl
  · cases h
  · exact exec_fault_none h

/-! The step, branch by branch. -/

/-- What a step can do: a reset; the rest of a request in progress, and of its bridge; the rest of a bridge; the
caller's next move. Only the first is possible with the fault mark set (R203, R208). -/
theorem step_next {s t : State} (h : step s = .next t) :
    t = s.hardwareReset ∨
    (s.fault = none ∧ ∃ r k, s.phase = .busy r k ∧ t = afterResume (resumeRequest r k s)) ∨
    (s.fault = none ∧ s.phase = .idle ∧ t = runBridge s.caller.bridge s) ∨
    (s.fault = none ∧ s.phase = .idle ∧ s.caller.bridge = [] ∧ stepFetched (fetch s) = .next t) := by
  unfold step cycle at h
  split at h
  · cases h; exact .inl rfl
  · split at h
    · unfold stepFaulted at h
      split at h
      · cases h
      · cases h; exact .inl rfl
    · next hf =>
      unfold stepRunning at h
      split at h
      · next r k hp => cases h; exact .inr (.inl ⟨hf, r, k, hp, rfl⟩)
      · next hp =>
        split at h
        · next o rest hb => cases h; exact .inr (.inr (.inl ⟨hf, hp, by rw [hb]⟩))
        · next hb => exact .inr (.inr (.inr ⟨hf, hp, hb, h⟩))

/-- What the caller's next move can be: an issued word, taken off its queue; waiting for the host; reading a header, a
`serve` entry being taken off the queue when its first byte has come. -/
theorem fetch_cases (s : State) :
    (∃ w q, s.caller.queue = .issue w :: q ∧ fetch s = fetchRequest w (s.setQueue q)) ∨
    fetch s = .stay s.countdown ∨
    ∃ q, fetch s = readHeader s.env.host (s.setQueue q) := by
  unfold fetch
  split
  · exact .inr (.inr ⟨s.caller.queue, rfl⟩)
  · split
    · next w q hq => exact .inl ⟨w, q, hq, rfl⟩
    · next q _ =>
      split
      · exact .inr (.inl rfl)
      · exact .inr (.inr ⟨q, rfl⟩)
    · exact .inr (.inr ⟨s.caller.queue, rfl⟩)

/-- Issuing a word runs it, or raises the fault on it (R76, R201). -/
theorem stepFetched_fetchRequest {w : Word16} {s t : State} (h : stepFetched (fetchRequest w s) = .next t) :
    (∃ i, decodeRequest w = .ok i ∧ exec i s.countdown = .next t) ∨ t = s.raiseIllegal w := by
  unfold fetchRequest at h
  split at h
  · next i hi => exact .inl ⟨i, hi, h⟩
  · cases h; exact .inr rfl

/-- A raised fault is told: its event is the last of the trace (R201). -/
theorem State.raiseIllegal_faultTold {s : State} (w : Word16) (idle : s.phase = .idle) :
    (s.raiseIllegal w).FaultTold := fun f hf => by
  obtain rfl : FaultReason.illegalRequest w = f := by simpa using hf
  exact ⟨idle, by simp⟩

/-- Settles O59: a step ends with no fault mark, unless it raised the fault itself, from an idle block. -/
theorem faultMarkIsToldIsKept : Obligations.FaultMarkIsToldIsKept := by
  intro s t _ hstep
  rcases step_next hstep with rfl | ⟨hf, r, k, -, rfl⟩ | ⟨hf, -, rfl⟩ | ⟨hf, idle, -, hfetch⟩
  · exact State.faultTold_of_none rfl
  · exact State.faultTold_of_none (afterResume_fault_none (runMicros_fault_none r _ hf))
  · exact State.faultTold_of_none (runBridge_fault_none _ hf)
  · rcases fetch_cases s with ⟨w, q, -, e⟩ | e | ⟨q, e⟩ <;> rw [e] at hfetch
    · rcases stepFetched_fetchRequest hfetch with ⟨i, -, hexec⟩ | rfl
      · exact State.faultTold_of_none (exec_fault_none hexec)
      · exact State.raiseIllegal_faultTold w idle
    · cases hfetch; exact State.faultTold_of_none hf
    · exact State.faultTold_of_none (stepFetched_readHeader_fault_none _ (s := s.setQueue q) hf hfetch)

/-! Pins (R36, R226). -/

/-- Each line has its pin for itself (R36): the map is injective. -/
theorem State.pin_lineMap (s : State) :
    s.pin s.params.pins.lineMap.scl = some (drivePin s.lines.scl) ∧
    s.pin s.params.pins.lineMap.sda = some (drivePin s.lines.sda) ∧
    s.pin s.params.pins.lineMap.cs = some (.output (s.lines.out s.params .cs)) ∧
    s.pin s.params.pins.lineMap.sck = some (.output s.lines.sck) ∧
    s.pin s.params.pins.lineMap.mosi = some (.output s.lines.mosi) ∧
    s.pin s.params.pins.lineMap.miso = some .input := by
  have distinct := linePins_nodup s.params.pins
  simp only [LineMap.pins, List.nodup_cons, List.mem_cons, List.not_mem_nil, or_false, not_or] at distinct
  obtain ⟨scl, sda, cs, sck, mosi, -⟩ := distinct
  simp [State.pin, Ne.symm, scl, sda, cs, sck, mosi]

/-- On a pin that no line has, the block does nothing. -/
theorem State.pin_of_not_mem {s : State} {q : Pin} (h : q ∉ s.params.pins.lineMap.pins) : s.pin q = none := by
  simp only [LineMap.pins, List.mem_cons, List.not_mem_nil, or_false, not_or] at h
  obtain ⟨scl, sda, cs, sck, mosi, miso⟩ := h
  simp [State.pin, scl, sda, cs, sck, mosi, miso]

/-- Settles O22: the map is injective, and no line has a task pin. -/
theorem taskPinsAreNotTheBlocks : Obligations.TaskPinsAreNotTheBlocks := fun s =>
  ⟨fun _ task => State.pin_of_not_mem (taskPin_not_line s.params.pins task), s.pin_lineMap⟩

/-! The lines of the other engine (R100, R140). -/

/-- Does the micro-operation leave the lines of the other engine alone? -/
def MicroOp.ofEngine (i2c : Bool) : MicroOp → Bool
  | .low _ => i2c
  | .rel _ => i2c
  | .sdaFromSh => i2c
  | .set _ _ => !i2c
  | .mosiFromSh => !i2c
  | .delay _ => true
  | .sample _ => true
  | .waitHigh => true

/-- The lines of the other engine are the same: those of the SPI engine for the I2C engine, and the reverse. -/
def Lines.SameForOther (i2c : Bool) (l l' : Lines) : Prop :=
  if i2c then l'.cs = l.cs ∧ l'.sck = l.sck ∧ l'.mosi = l.mosi else l'.scl = l.scl ∧ l'.sda = l.sda

theorem Lines.SameForOther.refl (i2c : Bool) (l : Lines) : l.SameForOther i2c l := by
  cases i2c <;> simp [SameForOther]

theorem Lines.SameForOther.trans {i2c : Bool} {l l' l'' : Lines} (h : l.SameForOther i2c l')
    (h' : l'.SameForOther i2c l'') : l.SameForOther i2c l'' := by
  cases i2c <;> simp_all [SameForOther]

theorem Lines.setDrive_sameForOther (l : Lines) (i : I2cLine) (d : Drive) : l.SameForOther true (l.setDrive i d) := by
  cases i <;> simp [SameForOther, setDrive]

theorem Lines.setOut_sameForOther (l : Lines) (p : Params) (o : SpiOut) (v : Bit) :
    l.SameForOther false (l.setOut p o v) := by
  cases o <;> simp [SameForOther, setOut]

theorem State.perform_sameForOther (s : State) {i2c : Bool} {o : MicroOp} (h : o.ofEngine i2c = true) :
    s.lines.SameForOther i2c (s.perform o).lines := by
  cases o with
  | low l => cases h; exact Lines.setDrive_sameForOther ..
  | rel l => cases h; exact Lines.setDrive_sameForOther ..
  | sdaFromSh => cases h; exact Lines.setDrive_sameForOther ..
  | set l v =>
    obtain rfl : i2c = false := by simpa [MicroOp.ofEngine] using h
    exact Lines.setOut_sameForOther ..
  | mosiFromSh =>
    obtain rfl : i2c = false := by simpa [MicroOp.ofEngine] using h
    exact Lines.setOut_sameForOther ..
  | delay k => exact .refl i2c _
  | sample l => exact .refl i2c _
  | waitHigh => exact .refl i2c _

theorem runMicros_sameForOther (r : Request) {i2c : Bool} {ms : List Micro} {s : State}
    (undisturbed : s.Undisturbed) (engine : ∀ m ∈ ms, m.op.ofEngine i2c = true) :
    s.lines.SameForOther i2c (runMicros r ms s).state.lines := by
  induction ms generalizing s with
  | nil => exact .refl i2c _
  | cons m ms ih =>
    have first := s.perform_sameForOther (engine m (by simp))
    rw [runMicros_cons, State.countdown_of_nil undisturbed, State.resetDue_of_nil undisturbed]
    simp only [Bool.false_eq_true, if_false]
    split
    · exact first
    · refine first.trans (ih (s := doMicro s m) ?_ fun m' h => engine m' (by simp [h]))
      simpa [doMicro, State.Undisturbed, State.perform_resets] using undisturbed

theorem runMicros_params (r : Request) (ms : List Micro) (s : State) :
    (runMicros r ms s).state.params = s.params :=
  (paramsAre_keptByEvents s.params).runMicros r ms (s := s) rfl

/-- Every micro-operation of a request's sequence is one of its own engine's. -/
theorem microSeq_ofEngine (p : Params) (r : Request) : ∀ m ∈ microSeq p r, m.op.ofEngine r.isI2c = true := by
  rw [← List.all_eq_true]
  cases wait : p.sclWait <;> cases r with
  | i2cStart => simp only [microSeq, i2cStartSeq, sclUp, wait]; rfl
  | i2cStop => simp only [microSeq, i2cStopSeq, sclUp, wait]; rfl
  | i2cWrite b => simp only [microSeq, i2cWriteSeq, i2cWriteBit, i2cWriteAck, sclUp, wait]; rfl
  | i2cRead a => cases a <;> simp only [microSeq, i2cReadSeq, i2cReadBit, i2cReadAck, sclUp, wait] <;> rfl
  | spiCsa => rfl
  | spiCsd => rfl
  | spiWrite b => rfl
  | spiRead => rfl

/-- A request, performed whole or waiting for SCL, leaves the parameters and the lines of the other engine. -/
theorem exec_sameForOther (r : Request) {s : State} (ready : s.Ready) (undisturbed : s.Undisturbed) :
    ∃ t, exec r.toInstr s = .next t ∧ t.params = s.params ∧ s.lines.SameForOther r.isI2c t.lines :=
  ⟨(runRequest r s).state, (exec_request r s).trans (whenAccepting_ready _ ready), runMicros_params ..,
    runMicros_sameForOther r (s := s.accept r) undisturbed (microSeq_ofEngine s.params r)⟩

/-- What the block does on a pin is its line's doing: on a pin of no line of one engine, it is the same when the lines
of the other engine are. -/
theorem State.pin_congr {i2c : Bool} {s t : State} {q : Pin} (hp : t.params = s.params)
    (hl : s.lines.SameForOther i2c t.lines)
    (hi : i2c = true → q ≠ s.params.pins.lineMap.scl ∧ q ≠ s.params.pins.lineMap.sda)
    (hs : i2c = false →
      q ≠ s.params.pins.lineMap.cs ∧ q ≠ s.params.pins.lineMap.sck ∧ q ≠ s.params.pins.lineMap.mosi) :
    t.pin q = s.pin q := by
  cases i2c with
  | false =>
    obtain ⟨scl, sda⟩ : t.lines.scl = s.lines.scl ∧ t.lines.sda = s.lines.sda := hl
    simp [State.pin, hp, scl, sda, hs rfl]
  | true =>
    obtain ⟨cs, sck, mosi⟩ : t.lines.cs = s.lines.cs ∧ t.lines.sck = s.lines.sck ∧ t.lines.mosi = s.lines.mosi := hl
    simp [State.pin, hp, Lines.out, cs, sck, mosi, hi rfl]

/-- Settles O21: a pin that is not the engine's shows lines the request leaves as they were. -/
theorem requestsTouchOnlyTheirOwnPins : Obligations.RequestsTouchOnlyTheirOwnPins := by
  intro r q s ready undisturbed hi hs
  obtain ⟨t, hexec, hparams, hlines⟩ := exec_sameForOther r ready undisturbed
  exact ⟨t, hexec, State.pin_congr hparams hlines hi hs⟩

/-! Counting events (R10, R22). -/

theorem countOn_append (p : Params) (test : Lines → Event → Bool) (l : Lines) (es es' : List Event) :
    countOn p test l (es ++ es') = countOn p test l es + countOn p test (l.replay p es) es' := by
  induction es generalizing l with
  | nil => simp [countOn, Lines.replay]
  | cons e es ih => simp [countOn, ih, Lines.replay, Nat.add_assoc]

/-- A test that no poll of SCL passes counts the same with the polls and without. -/
theorem countOn_withSclPolls (p : Params) {test : Lines → Event → Bool} (h : ∀ l v, test l (.sample .scl v) = false)
    (ns : List Nat) (l : Lines) (es : List Event) :
    countOn p test l (withSclPolls ns es) = countOn p test l es := by
  have polls : ∀ (vs : List Bit) (l : Lines) (es : List Event),
      countOn p test l (vs.map (Event.sample .scl) ++ es) = countOn p test l es := by
    intro vs l es
    induction vs with
    | nil => rfl
    | cons v vs ih => simpa [countOn, h, Lines.afterEvent] using ih
  induction es generalizing ns l with
  | nil => rfl
  | cons e es ih =>
    unfold withSclPolls
    split
    · split
      · simp only [countOn, ih]
      · simp only [List.cons_append, countOn, polls, ih]
    · simp only [countOn, ih]

theorem countP_withSclPolls {test : Event → Bool} (h : ∀ v, test (.sample .scl v) = false) (ns : List Nat)
    (es : List Event) : (withSclPolls ns es).countP test = es.countP test := by
  induction es generalizing ns with
  | nil => rfl
  | cons e es ih =>
    have polls : ∀ vs : List Bit, (vs.map (Event.sample .scl)).countP test = 0 := fun vs => by
      simp [List.countP_eq_zero, h]
    unfold withSclPolls
    split
    · split
      · simp only [List.countP_cons, ih]
      · simp only [List.cons_append, List.countP_cons, List.countP_append, polls, ih, Nat.zero_add]
    · simp only [List.countP_cons, ih]

/-- Is the event a sample of SDA? -/
def Event.isSdaSample : Event → Bool
  | .sample .sda _ => true
  | _ => false

theorem Event.isSdaSample_eq (e : Event) : e.isSdaSample = (e == .sample .sda false || e == .sample .sda true) := by
  cases e with
  | sample i v => cases i <;> cases v <;> rfl
  | _ => rfl

/-- Is the event a sample of SDA, the block driving it low? -/
def samplesDrivenSda (l : Lines) (e : Event) : Bool := e.isSdaSample && l.sda == .low

theorem count_sample_sda (es : List Event) :
    es.count (.sample .sda false) + es.count (.sample .sda true) = es.countP Event.isSdaSample := by
  induction es with
  | nil => rfl
  | cons e es ih =>
    have one : (if e == .sample .sda false then 1 else 0) + (if e == .sample .sda true then 1 else 0) =
        if e.isSdaSample then 1 else 0 := by
      cases e with
      | sample i v => cases i <;> cases v <;> rfl
      | _ => rfl
    rw [List.count_cons, List.count_cons, List.countP_cons]
    omega

/-- Events without a sample of SDA contain none of SDA driven low. -/
theorem countOn_samplesDrivenSda_of_none {p : Params} {es : List Event} (h : ∀ e ∈ es, e.isSdaSample = false)
    (l : Lines) : countOn p samplesDrivenSda l es = 0 := by
  induction es generalizing l with
  | nil => rfl
  | cons e es ih =>
    simp [countOn, samplesDrivenSda, h e (by simp), ih fun e' he => h e' (by simp [he])]

/-- While no event drives SDA low, a released SDA is released at each sample. -/
theorem countOn_samplesDrivenSda_of_released {p : Params} {es : List Event} (h : .low .sda ∉ es) {l : Lines}
    (released : l.sda = .rel) : countOn p samplesDrivenSda l es = 0 := by
  induction es generalizing l with
  | nil => rfl
  | cons e es ih =>
    rw [List.mem_cons, not_or] at h
    have still : (l.afterEvent p e).sda = .rel := by
      cases e with
      | low i => cases i <;> simp_all [Lines.afterEvent, Lines.setDrive]
      | rel i => cases i <;> simp_all [Lines.afterEvent, Lines.setDrive]
      | set o v => cases o <;> simp_all [Lines.afterEvent, Lines.setOut]
      | reset => rfl
      | _ => exact released
    simp [countOn, samplesDrivenSda, released, ih h.2 still]

/-- When the events of each bit contain no sample of SDA, those of many bits contain none. -/
theorem flatMap_no_sample {f : Bit → List Event} (h : ∀ v, ∀ e ∈ f v, e.isSdaSample = false) (vs : List Bit) :
    ∀ e ∈ vs.flatMap f, e.isSdaSample = false := fun e he => by
  obtain ⟨v, -, he⟩ := List.mem_flatMap.1 he
  exact h v e he

/-- The bits the engine sends are not sampled. -/
theorem sentBits_no_sample (vs : List Bit) : ∀ e ∈ vs.flatMap sentBitEvents, e.isSdaSample = false :=
  flatMap_no_sample (by decide) vs

/-- Each bit received is one sample of SDA, and SDA is not driven meanwhile. -/
theorem receivedBits_sdaSamples (vs : List Bit) :
    (vs.flatMap receivedBitEvents).countP Event.isSdaSample = vs.length ∧ .low .sda ∉ vs.flatMap receivedBitEvents := by
  induction vs with
  | nil => simp
  | cons v vs ih =>
    rw [List.flatMap_cons, List.countP_append, List.mem_append, ih.1, List.length_cons, Nat.add_comm]
    exact ⟨rfl, fun h => h.elim (by simp [receivedBitEvents]) ih.2⟩

/-- SPI requests never sample SDA. -/
theorem spiEvents_no_sample (p : Params) {r : Request} (spi : r.isI2c = false) (vs : List Bit) :
    ∀ e ∈ requestEvents p r vs, e.isSdaSample = false := by
  cases r with
  | spiCsa => simp [requestEvents, csaEvents, Event.isSdaSample]
  | spiCsd => simp [requestEvents, csdEvents, Event.isSdaSample]
  | spiWrite b => exact flatMap_no_sample (f := spiSentBitEvents) (by decide) (bitsOf b)
  | spiRead => exact flatMap_no_sample (f := spiReceivedBitEvents) (by decide) vs
  | _ => cases spi

theorem writeEvents_eq (b : Byte) (v : Bit) :
    writeEvents b v = (bitsOf b).flatMap sentBitEvents ++ ackEvents v := rfl

theorem readEvents_eq (a : Bool) (vs : List Bit) :
    readEvents a vs = [.rel .sda, .delay .i2c] ++ vs.flatMap receivedBitEvents ++ [!a].flatMap sentBitEvents := rfl

/-- The samples of SDA in a request's events: I2C requests sample nothing else, SPI requests never sample SDA. -/
theorem requestEvents_sdaSamples (p : Params) {r : Request} {vs : List Bit} (hv : vs.length = samplesOf r) :
    (requestEvents p r vs).countP Event.isSdaSample = if r.isI2c then samplesOf r else 0 := by
  have none : ∀ {es : List Event}, (∀ e ∈ es, e.isSdaSample = false) → es.countP Event.isSdaSample = 0 := fun h => by
    simpa [List.countP_eq_zero] using h
  cases r with
  | i2cStart => rfl
  | i2cStop => rfl
  | i2cWrite b =>
    rw [requestEvents, writeEvents_eq, List.countP_append, none (sentBits_no_sample _)]
    rfl
  | i2cRead a =>
    rw [requestEvents, readEvents_eq, List.countP_append, List.countP_append, none (sentBits_no_sample _),
      (receivedBits_sdaSamples vs).1, hv]
    rfl
  | _ => exact none (spiEvents_no_sample p rfl vs)

/-- In a request's events every sample of SDA finds it released: `I2C.WRITE` and `I2C.READ` release it before (R108,
R109), the others do not sample it. -/
theorem requestEvents_samplesReleased (p : Params) (r : Request) (vs : List Bit) (l : Lines) :
    countOn p samplesDrivenSda l (requestEvents p r vs) = 0 := by
  cases r with
  | i2cStart => exact countOn_samplesDrivenSda_of_none (es := startEvents) (by decide) l
  | i2cStop => exact countOn_samplesDrivenSda_of_none (es := stopEvents) (by decide) l
  | i2cWrite b =>
    have release : ∀ l v, countOn p samplesDrivenSda l (ackEvents v) = 0 := fun l v =>
      countOn_samplesDrivenSda_of_released (es := (ackEvents v).tail) (l := { l with sda := .rel })
        (by simp [ackEvents]) rfl
    rw [requestEvents, writeEvents_eq, countOn_append, countOn_samplesDrivenSda_of_none (sentBits_no_sample _), release]
  | i2cRead a =>
    have release : countOn p samplesDrivenSda l [.rel .sda, .delay .i2c] = 0 := rfl
    rw [requestEvents, readEvents_eq, countOn_append, countOn_append, release,
      countOn_samplesDrivenSda_of_released (receivedBits_sdaSamples vs).2 rfl,
      countOn_samplesDrivenSda_of_none (sentBits_no_sample _)]
  | _ => exact countOn_samplesDrivenSda_of_none (spiEvents_no_sample p rfl vs) l

/-- Settles O23: the wired-AND, case by case; and every sample of a request performed to its end, with its polls of
SCL. -/
theorem samplesObeyTheWiredAnd : Obligations.SamplesObeyTheWiredAnd := by
  refine ⟨fun s => ?_, fun r ns vs s ready undisturbed answers => ?_⟩
  · refine ⟨fun h => ?_, fun h => ?_, fun h => ?_, fun h => ?_⟩ <;> simp [State.sampleValue, h, wire]
  · obtain ⟨t, performed⟩ := request_performed ready undisturbed answers
    refine ⟨t, _, performed.completes, performed.trace, ?_, ?_⟩
    · rw [count_sample_sda, List.countP_append, List.countP_append, countP_withSclPolls fun _ => rfl,
        requestEvents_sdaSamples _ answers.2.1]
      exact Nat.zero_add _
    · simp only [← Event.isSdaSample_eq]
      change countOn s.params samplesDrivenSda s.lines _ = 0
      rw [countOn_append, countOn_append, countOn_withSclPolls _ fun _ _ => rfl, requestEvents_samplesReleased]
      rfl

end Sys2Proof.Machine
end

section
/-! PROOFS. The family of 30_encoding.md: the decoders and the encoder undo each other (R70 to R80), the ILLEGAL words
by number (R76, R77), and the assembly text of a request (R83). -/

namespace Sys2Proof

/-! The fields of a request word, as numbers (R70). -/

theorem engField_toNat (w : Word16) : (engField w).toNat = w.toNat / 4096 := by
  rw [engField, BitVec.extractLsb'_toNat, Nat.shiftRight_eq_div_pow]
  omega

theorem opField_toNat (w : Word16) : (opField w).toNat = w.toNat / 256 % 16 := by
  rw [opField, BitVec.extractLsb'_toNat, Nat.shiftRight_eq_div_pow]

theorem dataField_toNat (w : Word16) : (dataField w).toNat = w.toNat % 256 := by
  rw [dataField, BitVec.extractLsb'_toNat, Nat.shiftRight_zero]

theorem mkWord_toNat (eng op : BitVec 4) (d : Byte) :
    (mkWord eng op d).toNat = eng.toNat * 4096 + op.toNat * 256 + d.toNat := by
  rw [mkWord, BitVec.toNat_append, BitVec.toNat_append, ← Nat.shiftLeft_add_eq_or_of_lt op.isLt,
    ← Nat.shiftLeft_add_eq_or_of_lt d.isLt, Nat.shiftLeft_eq, Nat.shiftLeft_eq]
  omega

/-- The three fields are all of the word. -/
theorem mkWord_fields (w : Word16) : mkWord (engField w) (opField w) (dataField w) = w := by
  apply BitVec.eq_of_toNat_eq
  rw [mkWord_toNat, engField_toNat, opField_toNat, dataField_toNat]
  omega

@[simp] theorem engField_mkWord (eng op : BitVec 4) (d : Byte) : engField (mkWord eng op d) = eng := by
  apply BitVec.eq_of_toNat_eq
  rw [engField_toNat, mkWord_toNat]
  omega

@[simp] theorem opField_mkWord (eng op : BitVec 4) (d : Byte) : opField (mkWord eng op d) = op := by
  apply BitVec.eq_of_toNat_eq
  rw [opField_toNat, mkWord_toNat]
  omega

@[simp] theorem dataField_mkWord (eng op : BitVec 4) (d : Byte) : dataField (mkWord eng op d) = d := by
  apply BitVec.eq_of_toNat_eq
  rw [dataField_toNat, mkWord_toNat]
  omega

/-! Request words: decoding undoes encoding, and every word that decodes is an encoding. -/

theorem mkWord_eq_of_fields {w : Word16} {eng op : BitVec 4} {d : Byte} (heng : engField w = eng) (hop : opField w = op)
    (hdata : dataField w = d) : mkWord eng op d = w := by
  rw [← heng, ← hop, ← hdata, mkWord_fields]

theorem highBits_eq_zero_iff (d : Byte) : d.extractLsb' 1 7 = 0#7 ↔ d.toNat < 2 := by
  rw [← BitVec.toNat_inj, BitVec.extractLsb'_toNat, Nat.shiftRight_eq_div_pow, BitVec.toNat_ofNat]
  omega

/-- A `DATA` byte with bits 7 to 1 zero is its bit 0, the operand of `I2C.READ` (R73). -/
theorem eq_readOperand {d : Byte} (h : d.extractLsb' 1 7 = 0#7) : d = if d.getLsbD 0 then 0x01 else 0x00 := by
  have small : d.toNat = 0 ∨ d.toNat = 1 := by
    rw [highBits_eq_zero_iff] at h
    omega
  obtain zero | one := small
  · rw [BitVec.eq_of_toNat_eq (y := 0#8) zero]
    rfl
  · rw [BitVec.eq_of_toNat_eq (y := 1#8) one]
    rfl

/-- Each of the decoder's eight rows fixes all three fields of the word, so that they are the encoder's. -/
theorem encode_of_decodeRequest {w : Word16} {i : Instr} (h : decodeRequest w = .ok i) : encode i = .request w := by
  simp only [decodeRequest] at h
  split_ifs at h with start stop write read csa csd spiWrite spiRead <;> cases h <;> apply congrArg Code.request
  · exact mkWord_eq_of_fields start.1 start.2.1 start.2.2
  · exact mkWord_eq_of_fields stop.1 stop.2.1 stop.2.2
  · exact mkWord_eq_of_fields write.1 write.2 rfl
  · exact mkWord_eq_of_fields read.1 read.2.1 (eq_readOperand read.2.2)
  · exact mkWord_eq_of_fields csa.1 csa.2.1 csa.2.2
  · exact mkWord_eq_of_fields csd.1 csd.2.1 csd.2.2
  · exact mkWord_eq_of_fields spiWrite.1 spiWrite.2 rfl
  · exact mkWord_eq_of_fields spiRead.1 spiRead.2.1 spiRead.2.2

theorem decodeRequest_of_encode {w : Word16} {i : Instr} (h : encode i = .request w) : decodeRequest w = .ok i := by
  cases i with
  | i2cRead a => cases h; cases a <;> rfl
  | i2cWrite | spiWrite => cases h; simp [decodeRequest]
  | hostI2cRead | hostI2cWrite | hostSpiRead | hostSpiWrite => cases h
  | _ => cases h; rfl

/-- Settles O2. -/
theorem decodedWordIsTheEncoding : Obligations.DecodedWordIsTheEncoding := fun _ _ => encode_of_decodeRequest

/-! Host commands. -/

/-- Settles O3: the decoder reads as many bytes as the header has, and judges none of the fields (R174). -/
theorem hostHeaderDecodesBeforeItsPayload : Obligations.HostHeaderDecodesBeforeItsPayload := by
  intro i hdr payload h
  cases i with
  | hostI2cRead | hostI2cWrite | hostSpiRead | hostSpiWrite => cases h; rfl
  | _ => cases h

/-- Settles O1: on each carrier the decoder undoes the encoder; a host header is decoded with no payload behind it. -/
theorem decodeOfEncodeIsTheInstruction : Obligations.DecodeOfEncodeIsTheInstruction := by
  intro i
  cases h : encode i with
  | request w => exact decodeRequest_of_encode h
  | host hdr => simpa [decode] using hostHeaderDecodesBeforeItsPayload i hdr [] h

/-! The ILLEGAL words (R77). -/

theorem engField_eq_iff (w : Word16) (v : BitVec 4) : engField w = v ↔ w.toNat / 4096 = v.toNat := by
  rw [← BitVec.toNat_inj, engField_toNat]

theorem opField_eq_iff (w : Word16) (v : BitVec 4) : opField w = v ↔ w.toNat / 256 % 16 = v.toNat := by
  rw [← BitVec.toNat_inj, opField_toNat]

theorem dataField_eq_iff (w : Word16) (v : Byte) : dataField w = v ↔ w.toNat % 256 = v.toNat := by
  rw [← BitVec.toNat_inj, dataField_toNat]

/-- Settles O4: with the decoder's conditions as numbers, a legal row meets none of R77's conditions, and a word that
is on no row meets one. -/
theorem illegalWordsAreThoseOfR77 : Obligations.IllegalWordsAreThoseOfR77 := by
  intro w
  simp only [decodeRequest, engField_eq_iff, opField_eq_iff, dataField_eq_iff, highBits_eq_zero_iff, dataField_toNat,
    BitVec.toNat_ofNat, Nat.reducePow, Nat.reduceMod]
  generalize w.toNat / 4096 = eng, w.toNat / 256 % 16 = op, w.toNat % 256 = data
  split_ifs <;> grind

/-! Written-out words and headers (V-DEC, P1, P3). -/

/-- Settles O5: each legal word or header is what the instruction encodes to; 0x1302 is one of R77's words. -/
theorem writtenOutWordsDecode : Obligations.WrittenOutWordsDecode :=
  ⟨decodeRequest_of_encode rfl, decodeRequest_of_encode rfl, decodeRequest_of_encode rfl, decodeRequest_of_encode rfl,
    decodeRequest_of_encode rfl, decodeRequest_of_encode rfl, decodeRequest_of_encode rfl, decodeRequest_of_encode rfl,
    decodeRequest_of_encode rfl, (illegalWordsAreThoseOfR77 0x1302).2 (by decide),
    hostHeaderDecodesBeforeItsPayload (.hostI2cRead _ _ _ _ _) _ [] rfl,
    hostHeaderDecodesBeforeItsPayload (.hostSpiWrite _ _ _) _ [0x55] rfl⟩

end Sys2Proof

namespace Sys2Proof.Machine

/-! Assembly text (R83): a text is read back as the request it was made from. -/

/-- The value of a hexadecimal digit. -/
def hexValue (c : Char) : Nat := "0123456789ABCDEF".toList.idxOf c

theorem hexValue_hexDigit : ∀ n < 16, hexValue (hexDigit n) = n := by decide

/-- The byte that a literal `0xNN` stands for. -/
def byteOfText : List Char → Byte
  | [_, _, hi, lo] => BitVec.ofNat 8 (hexValue hi * 16 + hexValue lo)
  | _ => 0

theorem byteOfText_byteText (b : Byte) : byteOfText (byteText b) = b := by
  rw [byteText, byteOfText, hexValue_hexDigit _ (by omega), hexValue_hexDigit _ (by omega)]
  apply BitVec.eq_of_toNat_eq
  rw [BitVec.toNat_ofNat]
  omega

/-- The request that a text says: its first ten characters tell which of the nine kinds it is, and what follows them is
the byte of a write. -/
def requestOfText (line : List Char) : Option Request :=
  let b := byteOfText (line.drop 10)
  [.i2cStart, .i2cStop, .i2cWrite b, .i2cRead true, .i2cRead false, .spiCsa, .spiCsd, .spiWrite b, .spiRead].find?
    (fun r => r.text.take 10 == line.take 10)

theorem requestOfText_text (r : Request) : requestOfText r.text = some r := by
  cases r with
  | i2cRead a => cases a <;> rfl
  | i2cWrite b =>
    have read : requestOfText (Request.i2cWrite b).text = some (.i2cWrite (byteOfText (byteText b))) := rfl
    rw [read, byteOfText_byteText]
  | spiWrite b =>
    have read : requestOfText (Request.spiWrite b).text = some (.spiWrite (byteOfText (byteText b))) := rfl
    rw [read, byteOfText_byteText]
  | _ => rfl

/-- No two requests have one text. -/
theorem text_injective : Function.Injective Request.text := fun r r' h =>
  Option.some.inj (by rw [← requestOfText_text r, h, requestOfText_text])

/-- `I2C.RSTART` is a pseudo-instruction's text (R84) and no request's. -/
theorem text_ne_rstart (r : Request) : r.text ≠ "I2C.RSTART".toList := fun h => by
  have none : requestOfText "I2C.RSTART".toList = none := rfl
  rw [← h, requestOfText_text] at none
  cases none

theorem mem_allBytes (b : Byte) : b ∈ allBytes :=
  List.mem_map.2 ⟨b.toNat, List.mem_range.2 b.isLt, by simp⟩

theorem mem_allRequests (r : Request) : r ∈ allRequests := by
  cases r with
  | i2cRead a => cases a <;> simp [allRequests]
  | _ => simp [allRequests, mem_allBytes]

/-- The request found by its text is the request. -/
theorem find_text (r : Request) : allRequests.find? (fun r' => r'.text == r.text) = some r := by
  cases h : allRequests.find? (fun r' => r'.text == r.text) with
  | none => exact absurd (List.find?_eq_none.1 h r (mem_allRequests r)) (by simp)
  | some r' =>
    have same := List.find?_some h
    exact congrArg some (text_injective (eq_of_beq same))

/-- Settles O6: the text is looked up, and the request it is found to be has the word of R71 or R72. -/
theorem assembledTextIsTheRequestsWord : Obligations.AssembledTextIsTheRequestsWord := fun r => by
  rw [assemble, if_neg (text_ne_rstart r), find_text, Option.map_some, requestWord_eq_specWord]

end Sys2Proof.Machine
end

section
/-! PROOFS. The family of 40_i2c_master.md: the four I2C requests performed whole (R106 to R109) and under
`I2C_SCL_WAIT` (R104), the poll that reads 0, the other engine's lines (R100), the counts of R113, the bus conditions and
the edges of SCL (R103, R110 to R112), and what every step keeps of SCK and of a waiting request (R104, R141, R146). -/

namespace Sys2Proof.Machine

/-! Working values (R27): what an I2C request leaves in them. -/

/-- From working values `w` an I2C request leaves `w'`: its response and what `WorkAfter` says, up to the bit a poll of
SCL sampled; the bit counter of a byte transfer stands at 8 (log entry 11). -/
structure I2cWorkDone (wait : Bool) (r : Request) (vs : List Bit) (w w' : Work) : Prop where
  resp : response r w' = requestResponse r vs
  upToPolls : WorkAfter r vs w { w' with smp := w.smp }
  unpolled : wait = false → WorkAfter r vs w w'
  count : samplesOf r ≠ 0 → w'.i2cCnt = 8

/-- A counter cleared and raised once for each bit of a byte (R27, R108, R109). -/
theorem bitsDone_eight : (· + 1)^[8] (0 : Fin 9) = 8 := by decide

/-- `microSeq_does` for the I2C requests, with the working values. -/
theorem i2cSeq_does {p : Params} {r : Request} {ns : List Nat} {vs : List Bit} (i2c : r.isI2c = true)
    (hn : ns.length = if p.sclWait then sclReleases r else 0) (hv : vs.length = samplesOf r) (l : Lines) (w : Work) :
    ∃ w', Does p (microSeq p r) (requestEvents p r vs) ns vs (wireLevels r ns vs) l (requestLines l r)
        ((initialWork r).foldl Work.apply w) w' ∧
      I2cWorkDone p.sclWait r vs w w' := by
  have noPoll : p.sclWait = false → { w with smp := p.sclWait || w.smp } = w := fun h => by rw [h]; rfl
  cases r with
  | i2cStart =>
    obtain rfl := List.length_eq_zero_iff.1 hv
    rw [wireLevels, List.append_nil]
    exact ⟨_, i2cStart_does hn l w, rfl, rfl, noPoll, fun h => absurd rfl h⟩
  | i2cStop =>
    obtain rfl := List.length_eq_zero_iff.1 hv
    rw [wireLevels, List.append_nil]
    exact ⟨_, i2cStop_does hn l w, rfl, rfl, noPoll, fun h => absurd rfl h⟩
  | i2cWrite b =>
    obtain ⟨v, rfl⟩ := List.length_eq_one_iff.1 hv
    have does := i2cWrite_does hn b v l (Work.apply (Work.apply w (.i2cLoad b)) .i2cCntClear) rfl
    exact ⟨_, does, rfl, rfl, fun _ => rfl, fun _ => bitsDone_eight⟩
  | i2cRead a =>
    obtain ⟨v, does⟩ := i2cRead_does hn hv a l (Work.apply w .i2cCntClear)
    exact ⟨_, does, rfl, rfl, fun _ => rfl, fun _ => bitsDone_eight⟩
  | _ => cases i2c

/-- A ready block completes every I2C request that the environment answers, with its working values. -/
theorem i2cRequest_performed {r : Request} {ns : List Nat} {vs : List Bit} {s : State} (i2c : r.isI2c = true)
    (ready : s.Ready) (undisturbed : s.Undisturbed) (answers : s.Answers r ns vs) :
    ∃ t, PerformedWithPolls r ns vs s t ∧ I2cWorkDone s.params.sclWait r vs s.work t.work := by
  obtain ⟨hn, hv, levels⟩ := answers
  obtain ⟨w, does, done⟩ := i2cSeq_does i2c hn hv s.lines s.work
  obtain ⟨t, performed, rfl⟩ := does.performed done.resp ready undisturbed levels
  exact ⟨t, performed, done⟩

/-! The four requests, `I2C_SCL_WAIT` false (R106 to R109). -/

/-- Where SCL is not polled, the environment's next levels answer any request. -/
theorem State.answers_of_noSclWait {s : State} (noWait : s.NoSclWait) (r : Request) :
    s.Answers r [] (s.env.levels (samplesOf r)) := by
  have noStretch : ([] : List Nat).length = if s.params.sclWait then sclReleases r else 0 := by rw [noWait]; rfl
  refine ⟨noStretch, Env.levels_length _ _, ?_⟩
  rw [wireLevels_nil, Env.levels_length]

/-- What completes after no further step is done in the first. -/
theorem Completes.exec_next {r : Request} {s t : State} (h : Completes r 0 s t) : exec r.toInstr s = .next t := by
  obtain ⟨-, -, u, hexec, hrun⟩ := h
  have same : u = t := Host.Outcome.next.inj hrun
  exact same ▸ hexec

/-- Without polls of SCL a request performed to its end is performed whole in its first step. -/
theorem PerformedWithPolls.performed {r : Request} {s t : State}
    (h : PerformedWithPolls r [] (s.env.levels (samplesOf r)) s t)
    (work : WorkAfter r (s.env.levels (samplesOf r)) s.work t.work) :
    exec r.toInstr s = .next t ∧ Performed r s t := by
  refine ⟨h.completes.exec_next, h.lines, ?_, h.completes.1, h.fault, h.params, h.caller, ?_, work⟩
  · simpa using h.trace
  · simpa [Env.levels_length] using h.env

/-- A ready block performs an I2C request whole, and the bit counter of a byte transfer then stands at 8. -/
theorem i2cRequest_performed_whole {r : Request} {s : State} (i2c : r.isI2c = true) (ready : s.Ready)
    (undisturbed : s.Undisturbed) (noWait : s.NoSclWait) :
    ∃ t, exec r.toInstr s = .next t ∧ Performed r s t ∧ (samplesOf r ≠ 0 → t.work.i2cCnt = 8) := by
  obtain ⟨t, polled, done⟩ := i2cRequest_performed i2c ready undisturbed (s.answers_of_noSclWait noWait r)
  obtain ⟨hexec, performed⟩ := polled.performed (done.unpolled noWait)
  exact ⟨t, hexec, performed, done.count⟩

/-- Settles O8: `I2C.START` is one of the I2C requests, all performed whole. -/
theorem i2cStartIsPerformed : Obligations.I2cStartIsPerformed := fun _ ready undisturbed noWait => by
  obtain ⟨t, hexec, performed, -⟩ := i2cRequest_performed_whole (r := .i2cStart) rfl ready undisturbed noWait
  exact ⟨t, hexec, performed⟩

/-- Settles O9: `I2C.STOP` likewise. -/
theorem i2cStopIsPerformed : Obligations.I2cStopIsPerformed := fun _ ready undisturbed noWait => by
  obtain ⟨t, hexec, performed, -⟩ := i2cRequest_performed_whole (r := .i2cStop) rfl ready undisturbed noWait
  exact ⟨t, hexec, performed⟩

/-- Settles O10: `I2C.WRITE` likewise; it takes a sample, so its bits were counted. -/
theorem i2cWriteIsPerformed : Obligations.I2cWriteIsPerformed := fun b _ ready undisturbed noWait => by
  obtain ⟨t, hexec, performed, count⟩ :=
    i2cRequest_performed_whole (r := .i2cWrite b) rfl ready undisturbed noWait
  exact ⟨t, hexec, performed, count Nat.one_ne_zero⟩

/-- Settles O11: `I2C.READ` likewise. -/
theorem i2cReadIsPerformed : Obligations.I2cReadIsPerformed := fun a _ ready undisturbed noWait => by
  obtain ⟨t, hexec, performed, count⟩ :=
    i2cRequest_performed_whole (r := .i2cRead a) rfl ready undisturbed noWait
  exact ⟨t, hexec, performed, count (Nat.succ_ne_zero 7)⟩

/-! Waiting for SCL (R104). -/

/-- Settles O16: the request performed to its end with its polls, field by field. -/
theorem i2cRequestsCompleteWhenSclReadsHigh : Obligations.I2cRequestsCompleteWhenSclReadsHigh := by
  intro r ns vs s i2c ready undisturbed _ answers
  obtain ⟨t, performed, done⟩ := i2cRequest_performed i2c ready undisturbed answers
  refine ⟨t, performed.completes, performed.lines, ?_, performed.fault, performed.params, performed.caller,
    performed.env, done.upToPolls⟩
  simpa using performed.trace

/-- With no reset coming, a poll of SCL that reads 0 is the whole step of a request that waits there. -/
theorem step_poll_low {r : Request} {k : Nat} {s : State} (phase : s.phase = .busy r k)
    (poll : (microSeq s.params r)[k]? = some (op .waitHigh)) (fault : s.fault = none) (undisturbed : s.Undisturbed)
    (low : s.sampleValue .scl = false) : step s = .next (s.sample .scl) := by
  have rest : (microSeq s.params r).drop k = op .waitHigh :: (microSeq s.params r).drop (k + 1) := by
    obtain ⟨inside, here⟩ := List.getElem?_eq_some_iff.1 poll
    rw [List.drop_eq_getElem_cons inside, here]
  rw [step_resumes phase fault undisturbed, rest, runMicros_poll_low r _ s undisturbed low, afterResume]

/-- Settles O17: the step is one sample of SCL, which leaves the rest of the state. -/
theorem sclPollThatReadsLowWaits : Obligations.SclPollThatReadsLowWaits := by
  intro r k s phase poll fault undisturbed low
  exact ⟨s.sample .scl, step_poll_low phase poll fault undisturbed low, rfl, fault, rfl, rfl, rfl,
    by rw [State.sample_trace, low], rfl⟩

/-- A device that gives 0 on SCL is read as 0, whatever the block drives (R21). -/
theorem sampleValue_scl_of_low {s : State} {rest : List Bit} (h : s.env.samples = false :: rest) :
    s.sampleValue .scl = false := by
  cases hscl : s.lines.scl <;> simp [State.sampleValue, Env.bit, wire, hscl, h]

/-- Settles O18, by induction on the number of polls: after each the request stands at the same poll. -/
theorem sclHeldLowHangsTheRequest : Obligations.SclHeldLowHangsTheRequest := by
  intro r k n rest s phase poll fault undisturbed samples
  induction n generalizing s with
  | zero =>
    have env : s.env = { s.env with samples := rest } := congrArg (fun x => { s.env with samples := x }) samples
    exact ⟨s, rfl, rfl, fault, rfl, by simp, env⟩
  | succ n ih =>
    have first : s.env.samples = false :: (List.replicate n false ++ rest) := samples
    have low := sampleValue_scl_of_low first
    have after : s.env.afterBit = { s.env with samples := List.replicate n false ++ rest } := by
      simp [Env.afterBit, first]
    obtain ⟨t, hrun, hphase, hfault, hlines, htrace, henv⟩ :=
      ih (s.sample .scl) phase poll fault (by simpa [State.Undisturbed] using undisturbed) (by simp [after])
    refine ⟨t, (core_run_succ n (step_poll_low phase poll fault undisturbed low)).trans hrun, hphase, hfault, hlines,
      ?_, ?_⟩
    · rw [htrace, State.sample_trace, low, List.append_assoc]; rfl
    · rw [henv, State.sample_env, after]

/-! The other engine's lines (R100, R140). -/

/-- Settles O20: each request leaves the lines of the other engine. -/
theorem requestsTouchOnlyTheirEnginesLines : Obligations.RequestsTouchOnlyTheirEnginesLines := by
  intro r s ready undisturbed
  obtain ⟨t, hexec, hparams, hlines⟩ := exec_sameForOther r ready undisturbed
  refine ⟨t, hexec, hparams, fun i2c => ?_, fun spi => ?_⟩
  · rw [i2c] at hlines; exact hlines
  · rw [spi] at hlines; exact hlines

/-! The counts of R113. -/

/-- When every bit's events pass a test equally often, those of many bits do so as often for each. -/
theorem countP_flatMap_of_const {test : Event → Bool} {f : Bit → List Event} {c : Nat}
    (h : ∀ v, (f v).countP test = c) (vs : List Bit) : (vs.flatMap f).countP test = vs.length * c := by
  induction vs with
  | nil => simp
  | cons v vs ih => rw [List.flatMap_cons, List.countP_append, h, ih, List.length_cons, Nat.succ_mul, Nat.add_comm]

/-- How often a test is passed by the events of `I2C.WRITE`: as often for each of the eight bits, and by the acknowledge
clock. -/
theorem writeEvents_countP {test : Event → Bool} {c : Nat} (sent : ∀ v, (sentBitEvents v).countP test = c) (b : Byte)
    (v : Bit) : (writeEvents b v).countP test = 8 * c + (ackEvents v).countP test := by
  rw [writeEvents_eq, List.countP_append, countP_flatMap_of_const sent]
  rfl

/-- How often a test is passed by the events of `I2C.READ`: by its first two, as often for each bit received, and by the
acknowledge bit sent. -/
theorem readEvents_countP {test : Event → Bool} {c d : Nat} (received : ∀ v, (receivedBitEvents v).countP test = c)
    (sent : ∀ v, (sentBitEvents v).countP test = d) (a : Bool) {vs : List Bit} (hv : vs.length = 8) :
    (readEvents a vs).countP test = [.rel .sda, .delay .i2c].countP test + 8 * c + d := by
  rw [readEvents_eq, List.countP_append, List.countP_append, countP_flatMap_of_const received,
    countP_flatMap_of_const sent, hv, List.length_singleton, Nat.one_mul]

/-- The counts of a request's own events (the table of R113). -/
theorem requestEvents_counts (p : Params) {r : Request} {vs : List Bit} (i2c : r.isI2c = true)
    (hv : vs.length = samplesOf r) :
    countEvents (requestEvents p r vs) = microCounts r ∧
      (requestEvents p r vs).count (.rel .scl) = if samplesOf r = 0 then 1 else 9 := by
  cases r with
  | i2cStart => exact ⟨rfl, rfl⟩
  | i2cStop => exact ⟨rfl, rfl⟩
  | i2cWrite b =>
    rw [requestEvents, countEvents, List.count, writeEvents_countP (c := 3) (by decide),
      writeEvents_countP (c := 3) (by decide), writeEvents_countP (c := 0) (by decide),
      writeEvents_countP (c := 6) (by decide), writeEvents_countP (c := 1) (by decide)]
    exact ⟨rfl, rfl⟩
  | i2cRead a =>
    rw [requestEvents, countEvents, List.count, readEvents_countP (c := 2) (d := 3) (by decide) (by decide) a hv,
      readEvents_countP (c := 2) (d := 3) (by decide) (by decide) a hv,
      readEvents_countP (c := 1) (d := 0) (by decide) (by decide) a hv,
      readEvents_countP (c := 5) (d := 6) (by decide) (by decide) a hv,
      readEvents_countP (c := 1) (d := 1) (by decide) (by decide) a hv]
    exact ⟨rfl, rfl⟩
  | _ => cases i2c

/-- The request and its response around its events count for nothing. -/
theorem countEvents_around (w : Word16) (v : Option Byte) (es : List Event) :
    countEvents ([Event.req w] ++ es ++ [.resp v]) = countEvents es := by
  simp [countEvents, Event.isLineChange, Event.isDelay, Event.isDataSample, Event.isMicro]

/-- Settles O24: the events of a request performed whole, counted. -/
theorem i2cMicroOperationCounts : Obligations.I2cMicroOperationCounts := by
  intro r s i2c ready undisturbed noWait
  obtain ⟨t, hexec, performed, -⟩ := i2cRequest_performed_whole i2c ready undisturbed noWait
  obtain ⟨counts, releases⟩ := requestEvents_counts s.params i2c (Env.levels_length (samplesOf r) s.env)
  refine ⟨t, [Event.req (specWord r)] ++ requestEvents s.params r (s.env.levels (samplesOf r)) ++
    [.resp (requestResponse r (s.env.levels (samplesOf r)))], hexec, ?_, ?_, ?_⟩
  · rw [performed.trace, List.append_assoc, List.append_assoc, List.append_assoc]
  · rw [countEvents_around, counts]
  · simpa using releases

/-! Bus conditions and edges of SCL (R103, R112). -/

theorem Lines.replay_append (p : Params) (l : Lines) (es es' : List Event) :
    l.replay p (es ++ es') = (l.replay p es).replay p es' :=
  List.foldl_append

theorem busConditions_append (p : Params) (l : Lines) (es es' : List Event) :
    busConditions p l (es ++ es') = busConditions p l es ++ busConditions p (l.replay p es) es' := by
  induction es generalizing l with
  | nil => rfl
  | cons e es ih => simp [busConditions, ih, Lines.replay]

/-- Polls of SCL make no bus condition. -/
theorem busConditions_withSclPolls (p : Params) (ns : List Nat) (l : Lines) (es : List Event) :
    busConditions p l (withSclPolls ns es) = busConditions p l es := by
  have polls : ∀ (vs : List Bit) (l : Lines) (es : List Event),
      busConditions p l (vs.map (Event.sample .scl) ++ es) = busConditions p l es := by
    intro vs l es
    induction vs with
    | nil => rfl
    | cons v vs ih => exact ih
  induction es generalizing ns l with
  | nil => rfl
  | cons e es ih =>
    unfold withSclPolls
    split
    · split
      · simp only [busConditions, ih]
      · simp only [List.cons_append, busConditions, polls, ih]
    · simp only [busConditions, ih]

/-- The request and its response around its events make no bus condition. -/
theorem busConditions_around (p : Params) (l : Lines) (w : Word16) (v : Option Byte) (es : List Event) :
    busConditions p l ([Event.req w] ++ es ++ [.resp v]) = busConditions p l es := by
  rw [busConditions_append, busConditions_append]
  simp [busConditions, conditionOf, Lines.replay, Lines.afterEvent]

/-- A test that neither the request nor the response passes counts the same with them around the events. -/
theorem countOn_around (p : Params) {test : Lines → Event → Bool} (hreq : ∀ l w, test l (.req w) = false)
    (hresp : ∀ l v, test l (.resp v) = false) (l : Lines) (w : Word16) (v : Option Byte) (es : List Event) :
    countOn p test l ([Event.req w] ++ es ++ [.resp v]) = countOn p test l es := by
  rw [countOn_append, countOn_append]
  simp [countOn, hreq, hresp, Lines.replay, Lines.afterEvent]

/-- A request performed to its end, as it is seen on the bus: the lines its rule leaves, and the conditions and edges of
SCL that its own events make; its polls of SCL, the request and the response make none. -/
theorem request_observed {r : Request} {ns : List Nat} {vs : List Bit} {s : State} (ready : s.Ready)
    (undisturbed : s.Undisturbed) (answers : s.Answers r ns vs) :
    ∃ t es, Completes r ns.sum s t ∧ t.trace = s.trace ++ es ∧ t.lines = requestLines s.lines r ∧
      busConditions s.params s.lines es = busConditions s.params s.lines (requestEvents s.params r vs) ∧
      countOn s.params raisesScl s.lines es = countOn s.params raisesScl s.lines (requestEvents s.params r vs) ∧
      countOn s.params lowersScl s.lines es = countOn s.params lowersScl s.lines (requestEvents s.params r vs) := by
  obtain ⟨t, performed⟩ := request_performed ready undisturbed answers
  refine ⟨t, _, performed.completes, performed.trace, performed.lines, ?_, ?_, ?_⟩
  · rw [busConditions_around, busConditions_withSclPolls]
  · rw [countOn_around _ (fun _ _ => rfl) (fun _ _ => rfl), countOn_withSclPolls _ fun _ _ => rfl]
  · rw [countOn_around _ (fun _ _ => rfl) (fun _ _ => rfl), countOn_withSclPolls _ fun _ _ => rfl]

/-! Clock pulses (R110 to R112). -/

/-- Started with SCL low, the events make `n` pulses on SCL, leave it low, and make no bus condition. -/
def Pulses (p : Params) (n : Nat) (es : List Event) : Prop :=
  ∀ l : Lines, l.scl = .low → busConditions p l es = [] ∧ countOn p raisesScl l es = n ∧
    countOn p lowersScl l es = n ∧ (l.replay p es).scl = .low

theorem Pulses.append {p : Params} {m n : Nat} {es es' : List Event} (h : Pulses p m es) (h' : Pulses p n es') :
    Pulses p (m + n) (es ++ es') := fun l low => by
  obtain ⟨quiet, raised, lowered, low₁⟩ := h l low
  obtain ⟨quiet', raised', lowered', low'⟩ := h' (l.replay p es) low₁
  rw [busConditions_append, countOn_append, countOn_append, Lines.replay_append, quiet, raised, lowered, quiet', raised',
    lowered']
  exact ⟨rfl, rfl, rfl, low'⟩

/-- One pulse for each bit. -/
theorem Pulses.flatMap {p : Params} {f : Bit → List Event} (h : ∀ v, Pulses p 1 (f v)) (vs : List Bit) :
    Pulses p vs.length (vs.flatMap f) := by
  induction vs with
  | nil => exact fun l low => ⟨rfl, rfl, rfl, low⟩
  | cons v vs ih =>
    rw [List.flatMap_cons, List.length_cons, Nat.add_comm]
    exact (h v).append ih

/-- A pulse of SCL, SDA changed before it only (R110). -/
theorem sentBit_pulses (p : Params) (v : Bit) : Pulses p 1 (sentBitEvents v) := fun l low => by
  obtain ⟨scl, sda, cs, sck, mosi⟩ := l
  obtain rfl : scl = .low := low
  cases v <;> cases sda <;> exact ⟨rfl, rfl, rfl, rfl⟩

/-- The acknowledge clock of `I2C.WRITE` releases SDA before it (R108). -/
theorem ack_pulses (p : Params) (v : Bit) : Pulses p 1 (ackEvents v) := fun l low => by
  obtain ⟨scl, sda, cs, sck, mosi⟩ := l
  obtain rfl : scl = .low := low
  cases sda <;> exact ⟨rfl, rfl, rfl, rfl⟩

/-- A bit received leaves SDA to the device (R109). -/
theorem receivedBit_pulses (p : Params) (v : Bit) : Pulses p 1 (receivedBitEvents v) := fun l low => by
  obtain ⟨scl, sda, cs, sck, mosi⟩ := l
  obtain rfl : scl = .low := low
  exact ⟨rfl, rfl, rfl, rfl⟩

/-- Handing SDA to the device with SCL low makes no condition (R109). -/
theorem releaseSda_pulses (p : Params) : Pulses p 0 [.rel .sda, .delay .i2c] := fun l low => by
  obtain ⟨scl, sda, cs, sck, mosi⟩ := l
  obtain rfl : scl = .low := low
  cases sda <;> exact ⟨rfl, rfl, rfl, rfl⟩

/-- A byte transfer makes nine pulses: eight bits and the acknowledge bit (R112). -/
theorem byteTransfer_pulses (p : Params) {r : Request} {vs : List Bit}
    (byte : (∃ b, r = .i2cWrite b) ∨ ∃ a, r = .i2cRead a) (hv : vs.length = samplesOf r) :
    Pulses p 9 (requestEvents p r vs) := by
  obtain ⟨b, rfl⟩ | ⟨a, rfl⟩ := byte
  · rw [requestEvents, writeEvents_eq]
    exact (Pulses.flatMap (sentBit_pulses p) (bitsOf b)).append (ack_pulses p _)
  · have received := Pulses.flatMap (receivedBit_pulses p) vs
    rw [hv] at received
    rw [requestEvents, readEvents_eq]
    exact ((releaseSda_pulses p).append received).append (Pulses.flatMap (sentBit_pulses p) [!a])

/-- Settles O27: the pulses of a byte transfer make no condition, and its rule leaves SCL low. -/
theorem byteTransfersMakeNoBusCondition : Obligations.ByteTransfersMakeNoBusCondition := by
  intro r ns vs s byte ready undisturbed answers low
  obtain ⟨t, es, completes, trace, lines, conditions, -, -⟩ := request_observed ready undisturbed answers
  obtain ⟨quiet, -, -, -⟩ := byteTransfer_pulses s.params byte answers.2.1 s.lines low
  refine ⟨t, es, completes, trace, conditions.trans quiet, ?_⟩
  rw [lines]
  obtain ⟨b, rfl⟩ | ⟨a, rfl⟩ := byte <;> rfl

/-- The edges of SCL in `I2C.START` (R112): it is released, then driven low. -/
theorem startEvents_edges (p : Params) (l : Lines) :
    countOn p lowersScl l startEvents = 1 ∧
      countOn p raisesScl l startEvents = if l.scl = .low then 1 else 0 := by
  obtain ⟨scl, sda, cs, sck, mosi⟩ := l
  cases scl <;> exact ⟨rfl, rfl⟩

/-- The edges of SCL in `I2C.STOP` started with SCL low (R112): it is released. -/
theorem stopEvents_edges (p : Params) {l : Lines} (low : l.scl = .low) :
    countOn p raisesScl l stopEvents = 1 ∧ countOn p lowersScl l stopEvents = 0 := by
  obtain ⟨scl, sda, cs, sck, mosi⟩ := l
  obtain rfl : scl = .low := low
  exact ⟨rfl, rfl⟩

/-- Settles O28: the edges of each request's own events. -/
theorem byteTransfersMakeNinePulses : Obligations.ByteTransfersMakeNinePulses := by
  intro r ns vs s ready undisturbed answers
  obtain ⟨t, es, completes, trace, -, -, raised, lowered⟩ := request_observed ready undisturbed answers
  refine ⟨t, es, completes, trace, fun byte low => ?_, fun start => ?_, fun stop low => ?_⟩
  · obtain ⟨-, up, down, -⟩ := byteTransfer_pulses s.params byte answers.2.1 s.lines low
    exact ⟨raised.trans up, lowered.trans down⟩
  · subst start
    obtain ⟨down, up⟩ := startEvents_edges s.params s.lines
    exact ⟨lowered.trans down, raised.trans up⟩
  · subst stop
    obtain ⟨up, down⟩ := stopEvents_edges s.params low
    exact ⟨raised.trans up, lowered.trans down⟩

/-- The conditions of `I2C.START` (R103, R106): SDA released before SCL, then driven low, is one START, unless SDA was
driven low under a released SCL. -/
theorem startEvents_conditions (p : Params) {l : Lines} (h : l.scl = .low ∨ l.sda = .rel) :
    busConditions p l startEvents = [.start] := by
  obtain ⟨scl, sda, cs, sck, mosi⟩ := l
  obtain rfl | rfl : scl = .low ∨ sda = .rel := h
  · cases sda <;> rfl
  · cases scl <;> rfl

/-- The condition of `I2C.STOP` with SCL low (R103, R107). -/
theorem stopEvents_conditions_of_low (p : Params) {l : Lines} (low : l.scl = .low) :
    busConditions p l stopEvents = [.stop] := by
  obtain ⟨scl, sda, cs, sck, mosi⟩ := l
  obtain rfl : scl = .low := low
  cases sda <;> rfl

/-- The conditions of `I2C.STOP` from idle: driving SDA low is a START already (R103, V-I2C-5). -/
theorem stopEvents_conditions_of_idle (p : Params) {l : Lines} (scl : l.scl = .rel) (sda : l.sda = .rel) :
    busConditions p l stopEvents = [.start, .stop] := by
  simp [stopEvents, busConditions, conditionOf, Lines.afterEvent, Lines.setDrive, masterView, scl, sda]

/-- Settles O29: the conditions of each request's own events; the answers are the same for both requests. -/
theorem startAndStopMakeTheirConditions : Obligations.StartAndStopMakeTheirConditions := by
  intro ns s ready undisturbed answers
  have answersStop : s.Answers .i2cStop ns [] := answers
  obtain ⟨t, es, completes, trace, -, conditions, -, -⟩ := request_observed ready undisturbed answers
  obtain ⟨t', es', completes', trace', -, conditions', -, -⟩ := request_observed ready undisturbed answersStop
  exact ⟨⟨t, es, completes, trace, fun h => conditions.trans (startEvents_conditions s.params h)⟩,
    t', es', completes', trace', fun low => conditions'.trans (stopEvents_conditions_of_low s.params low),
    fun idle => conditions'.trans (stopEvents_conditions_of_idle s.params idle.1 idle.2)⟩

/-! SCK between steps (R146), and where a request waits (R104, R141). -/

/-- What a micro-operation makes of SCK. -/
def MicroOp.sckAfter (b : Bit) : MicroOp → Bit
  | .set .sck v => v
  | _ => b

theorem State.perform_sck (s : State) (o : MicroOp) : (s.perform o).lines.sck = o.sckAfter s.lines.sck := by
  cases o with
  | low i => cases i <;> rfl
  | rel i => cases i <;> rfl
  | set o v => cases o <;> rfl
  | _ => rfl

/-- Performed from SCK at `b`, the sequence has SCK at 0 wherever it can stop: at its polls of SCL and at its end. -/
def sckLowAtStops : Bit → List Micro → Bool
  | b, [] => !b
  | b, m :: ms => (m.op != .waitHigh || !b) && sckLowAtStops (m.op.sckAfter b) ms

/-- Only a poll of SCL is repeated (R104). -/
theorem MicroOp.repeats_eq_true {o : MicroOp} {s : State} (h : o.repeats s = true) : o = .waitHigh := by
  cases o with
  | waitHigh => rfl
  | _ => cases h

/-- A run leaves SCK at 0 when its sequence has it at 0 wherever it can stop; a reset leaves it at 0 anyway. -/
theorem runMicros_sck (r : Request) {ms : List Micro} {s : State} (h : sckLowAtStops s.lines.sck ms = true) :
    (runMicros r ms s).state.lines.sck = false := by
  induction ms generalizing s with
  | nil =>
    have low : s.lines.sck = false := by simpa [sckLowAtStops] using h
    exact low
  | cons m ms ih =>
    obtain ⟨here, later⟩ := Bool.and_eq_true_iff.1 h
    rw [runMicros_cons]
    split
    · rfl
    · split
      · next again =>
        have poll := MicroOp.repeats_eq_true again
        rw [poll] at here
        simpa [Run.state, State.perform_sck, MicroOp.sckAfter, poll] using here
      · exact ih (by simpa [State.perform_sck] using later)

/-- The micro-operations of the I2C engine never move SCK (R100). -/
theorem sckLowAtStops_of_i2c {ms : List Micro} (i2c : ∀ m ∈ ms, m.op.ofEngine true = true) :
    sckLowAtStops false ms = true := by
  induction ms with
  | nil => rfl
  | cons m ms ih =>
    have still : m.op.sckAfter false = false := by
      have := i2c m (by simp)
      cases hm : m.op <;> simp_all [MicroOp.sckAfter, MicroOp.ofEngine]
    rw [sckLowAtStops, still, ih fun m' h => i2c m' (by simp [h])]
    simp

/-- A request started with SCK at 0 has it at 0 wherever it can stop: SPI requests at their end (R146). -/
theorem microSeq_sckLowAtStops (p : Params) (r : Request) : sckLowAtStops false (microSeq p r) = true := by
  cases r with
  | spiCsa => rfl
  | spiCsd => rfl
  | spiWrite b => rfl
  | spiRead => rfl
  | _ => exact sckLowAtStops_of_i2c (microSeq_ofEngine p _)

/-- Is the micro-operation a poll of SCL only as the I2C engine makes it, with no assignment after it? -/
def Micro.pollsLike (i2c : Bool) (m : Micro) : Bool := m.op != .waitHigh || (i2c && m == Machine.op .waitHigh)

/-- Only I2C requests poll SCL, and nothing is assigned after a poll (R104, R141). -/
theorem microSeq_pollsLike (p : Params) (r : Request) : ∀ m ∈ microSeq p r, m.pollsLike r.isI2c = true := by
  rw [← List.all_eq_true]
  cases wait : p.sclWait <;> cases r with
  | i2cStart => simp only [microSeq, i2cStartSeq, sclUp, wait]; rfl
  | i2cStop => simp only [microSeq, i2cStopSeq, sclUp, wait]; rfl
  | i2cWrite b => simp only [microSeq, i2cWriteSeq, i2cWriteBit, i2cWriteAck, sclUp, wait]; rfl
  | i2cRead a => cases a <;> simp only [microSeq, i2cReadSeq, i2cReadBit, i2cReadAck, sclUp, wait] <;> rfl
  | spiCsa => rfl
  | spiCsd => rfl
  | spiWrite b => rfl
  | spiRead => rfl

/-- A run from the place its phase names ends idle, or at a poll of SCL of an I2C request. -/
theorem runMicros_waitsOnlyForScl {r : Request} {ms : List Micro} {k : Nat} {s : State} (phase : s.phase = .busy r k)
    (rest : (microSeq s.params r).drop k = ms) : (runMicros r ms s).state.WaitsOnlyForScl := by
  induction ms generalizing k s with
  | nil => exact State.waitsOnlyForScl_of_idle rfl
  | cons m ms ih =>
    obtain ⟨_, _, _, hphase, -, hparams, -⟩ := s.countdown.perform_spec m.op
    have here : (microSeq s.params r)[k]? = some m := by
      rw [← List.head?_drop, rest]; rfl
    rw [runMicros_cons]
    split
    · exact State.waitsOnlyForScl_of_idle rfl
    · split
      · next again =>
        have polls := microSeq_pollsLike s.params r m (List.mem_of_getElem? here)
        simp only [Micro.pollsLike, MicroOp.repeats_eq_true again, bne_self_eq_false, Bool.false_or,
          Bool.and_eq_true, beq_iff_eq] at polls
        obtain ⟨i2c, poll⟩ := polls
        intro r' k' phase'
        obtain ⟨rfl, rfl⟩ : r = r' ∧ k = k' := by
          rw [Run.state, hphase, State.countdown_phase, phase] at phase'
          exact Phase.busy.inj phase'
        refine ⟨i2c, ?_⟩
        rw [Run.state, hparams, ← poll]
        exact here
      · refine ih (k := k + 1) ?_ ?_
        · simp [phase, Phase.advance]
        · simp [hparams, ← List.tail_drop, rest]

theorem runRequest_sckLow (r : Request) {s : State} (sck : s.lines.sck = false) : (runRequest r s).state.SckLow := by
  refine ⟨runMicros_sck r ?_, runMicros_waitsOnlyForScl (s := s.accept r) (k := 0) rfl rfl⟩
  rw [State.accept_lines, sck]
  exact microSeq_sckLowAtStops s.params r

theorem resumeRequest_sckLow {r : Request} {k : Nat} {s : State} (phase : s.phase = .busy r k) (low : s.SckLow) :
    (resumeRequest r k s).state.SckLow := by
  obtain ⟨sck, waits⟩ := low
  obtain ⟨i2c, -⟩ := waits r k phase
  refine ⟨runMicros_sck r ?_, runMicros_waitsOnlyForScl phase rfl⟩
  have engine := microSeq_ofEngine s.params r
  rw [i2c] at engine
  rw [sck]
  exact sckLowAtStops_of_i2c fun m h => engine m (List.mem_of_mem_drop h)

theorem State.hardwareReset_sckLow (s : State) : s.hardwareReset.SckLow :=
  ⟨rfl, State.waitsOnlyForScl_of_idle rfl⟩

theorem callerStep_sckLow {s : State} {r : Run} (low : r.state.SckLow) : (callerStep s r).state.SckLow := by
  rcases callerStep_cases s r with ⟨-, e⟩ | ⟨-, e⟩ <;> rw [e]
  · exact s.hardwareReset_sckLow
  · exact low

theorem hostWrite_sckLow (self : List BridgeOp) (b : Byte) {s : State} (low : s.SckLow) :
    (hostWrite self b s).state.SckLow := by
  rcases hostWrite_cases self b s with ⟨-, e⟩ | ⟨-, e⟩ <;> rw [e] <;> exact low

theorem bridgeStep_sckLow (o : BridgeOp) (rest : List BridgeOp) {s : State} (low : s.SckLow) :
    (bridgeStep o rest s).state.SckLow := by
  have request : ∀ r, (runRequest r (s.countdown.setBridge rest)).state.SckLow := fun r => runRequest_sckLow r low.1
  cases o with
  | request r => exact callerStep_sckLow (request r)
  | capture => exact low
  | hostRead =>
    refine callerStep_sckLow ?_
    split <;> exact low
  | i2cWriteP => exact callerStep_sckLow (request _)
  | spiWriteP => exact callerStep_sckLow (request _)
  | hostWriteV => exact callerStep_sckLow (hostWrite_sckLow _ _ low)
  | hostWriteByte b => exact callerStep_sckLow (hostWrite_sckLow _ _ low)
  | settle => exact callerStep_sckLow low
  | pollUntilReady =>
    simp only [bridgeStep]
    split <;> exact low

theorem runBridge_sckLow (ops : List BridgeOp) {s : State} (low : s.SckLow) : (runBridge ops s).SckLow := by
  induction ops generalizing s with
  | nil => exact low
  | cons o rest ih =>
    have hs := bridgeStep_sckLow o rest low
    rw [runBridge_cons]
    split
    · next t e => rw [e] at hs; exact ih hs
    · next t e => rw [e] at hs; exact hs

theorem afterResume_sckLow {r : Run} (low : r.state.SckLow) : (afterResume r).SckLow := by
  cases r with
  | finished t => exact runBridge_sckLow _ low
  | paused t => exact low

theorem exec_sckLow {i : Instr} {s t : State} (low : s.SckLow) (h : exec i s = .next t) : t.SckLow := by
  obtain ⟨-, -, ⟨r, -, rfl⟩ | ⟨-, ops, rfl⟩⟩ := exec_next h
  · exact runRequest_sckLow r low.1
  · exact runBridge_sckLow ops low

/-- SCK, the phase and the parameters are all that the invariant is about. -/
theorem State.SckLow.congr {s t : State} (low : s.SckLow) (lines : t.lines = s.lines) (phase : t.phase = s.phase)
    (params : t.params = s.params) : t.SckLow := by
  obtain ⟨sck, waits⟩ := low
  refine ⟨lines ▸ sck, fun r k busy => ?_⟩
  rw [params]
  exact waits r k (phase ▸ busy)

theorem stepFetched_readHeader_sckLow (bs : List Byte) {s t : State} (low : s.SckLow)
    (h : stepFetched (readHeader bs s) = .next t) : t.SckLow := by
  rcases readHeader_cases bs s with
    ⟨u, e, ⟨_, _, lines, phase, _, params, _⟩ | ⟨v, _, rfl, _⟩⟩ | ⟨r, e⟩ | ⟨i, u, _, e, _, lines, phase, _, params, _⟩ <;>
    rw [e] at h
  · cases h; exact low.congr lines phase params
  · cases h; exact v.hardwareReset_sckLow
  · cases h
  · exact exec_sckLow (low.congr lines phase params) h

/-- Settles O57: branch by branch of the step, down to the runs of single requests. -/
theorem sckLowBetweenStepsIsKept : Obligations.SckLowBetweenStepsIsKept := by
  intro s t low hstep
  rcases step_next hstep with rfl | ⟨-, r, k, phase, rfl⟩ | ⟨-, -, rfl⟩ | ⟨-, -, -, hfetch⟩
  · exact s.hardwareReset_sckLow
  · exact afterResume_sckLow (resumeRequest_sckLow phase low)
  · exact runBridge_sckLow _ low
  · rcases fetch_cases s with ⟨w, q, -, e⟩ | e | ⟨q, e⟩ <;> rw [e] at hfetch
    · rcases stepFetched_fetchRequest hfetch with ⟨i, -, hexec⟩ | rfl
      · exact exec_sckLow (s := (s.setQueue q).countdown) low hexec
      · exact low
    · cases hfetch; exact low
    · exact stepFetched_readHeader_sckLow _ (s := s.setQueue q) low hfetch

end Sys2Proof.Machine
end

section
/-! PROOFS. The family of 41_spi_master.md: the four SPI requests performed whole (R142 to R145), the counts of R149, and
the eight clock pulses with MOSI still while SCK is 1 (R146, R148). -/

namespace Sys2Proof.Machine

/-! The events of the SPI requests. -/

/-- The level of an asserted CS is 0 when CS is active low (R25, R142). -/
theorem csaEvents_eq (p : Params) : csaEvents p = [.set .cs (csLevel p .asserted)] := by
  cases h : p.csActiveLow <;> simp [csaEvents, csLevel, h]

/-- The level of a deasserted CS is 1 when CS is active low (R25, R143). -/
theorem csdEvents_eq (p : Params) : csdEvents p = [.set .cs (csLevel p .deasserted)] := by
  cases h : p.csActiveLow <;> simp [csdEvents, csLevel, h]

theorem spiWriteEvents_eq (b : Byte) : spiWriteEvents b = (bitsOf b).flatMap spiSentBitEvents := rfl

theorem spiReadEvents_eq (vs : List Bit) : spiReadEvents vs = vs.flatMap spiReceivedBitEvents := rfl

/-! The four requests (R142 to R145). -/

/-- From working values `w` an SPI request leaves `w'`: its response and what `WorkAfter` says; a bit counter cleared at
the start stands at 8 (log entry 11). -/
structure SpiWorkDone (r : Request) (vs : List Bit) (w w' : Work) : Prop where
  resp : response r w' = requestResponse r vs
  work : WorkAfter r vs w w'
  count : .spiCntClear ∈ initialWork r → w'.spiCnt = 8

/-- `microSeq_does` for the SPI requests, with the working values; they never release SCL, so there are no stretches. -/
theorem spiSeq_does (p : Params) {r : Request} {vs : List Bit} (spi : r.isI2c = false) (hv : vs.length = samplesOf r)
    (l : Lines) (w : Work) :
    ∃ w', Does p (microSeq p r) (requestEvents p r vs) [] vs vs l (requestLines l r)
        ((initialWork r).foldl Work.apply w) w' ∧
      SpiWorkDone r vs w w' := by
  cases r with
  | spiCsa =>
    obtain rfl := List.length_eq_zero_iff.1 hv
    rw [requestEvents, csaEvents_eq]
    exact ⟨w, setCs_does p .asserted l w, rfl, rfl, fun h => nomatch h⟩
  | spiCsd =>
    obtain rfl := List.length_eq_zero_iff.1 hv
    rw [requestEvents, csdEvents_eq]
    exact ⟨w, setCs_does p .deasserted l w, rfl, rfl, fun h => nomatch h⟩
  | spiWrite b =>
    obtain rfl := List.length_eq_zero_iff.1 hv
    have does := spiWrite_does p b l (Work.apply (Work.apply w (.spiLoad b)) .spiCntClear) rfl
    exact ⟨_, does, rfl, rfl, fun _ => bitsDone_eight⟩
  | spiRead =>
    obtain ⟨v, does⟩ := spiRead_does p hv l (Work.apply (Work.apply w .spiAccClear) .spiCntClear) rfl
    exact ⟨_, does, rfl, rfl, fun _ => bitsDone_eight⟩
  | _ => cases spi

/-- A ready block performs an SPI request whole in its first step, under either value of `I2C_SCL_WAIT`, and a bit
counter cleared at the start then stands at 8. -/
theorem spiRequest_performed_whole {r : Request} {s : State} (spi : r.isI2c = false) (ready : s.Ready)
    (undisturbed : s.Undisturbed) :
    ∃ t, exec r.toInstr s = .next t ∧ Performed r s t ∧ (.spiCntClear ∈ initialWork r → t.work.spiCnt = 8) := by
  have hv := Env.levels_length (samplesOf r) s.env
  obtain ⟨w, does, resp, work, count⟩ := spiSeq_does s.params spi hv s.lines s.work
  rw [← wireLevels_nil r (s.env.levels (samplesOf r))] at does
  obtain ⟨t, polled, rfl⟩ := Does.performed (ns := []) (by simpa using does) resp ready undisturbed (by simp [hv])
  obtain ⟨hexec, performed⟩ := polled.performed work
  exact ⟨t, hexec, performed, count⟩

/-- Settles O12: the level of CS is that of an asserted CS. -/
theorem spiCsaIsPerformed : Obligations.SpiCsaIsPerformed := fun s ready undisturbed => by
  obtain ⟨t, hexec, performed, -⟩ := spiRequest_performed_whole (r := .spiCsa) rfl ready undisturbed
  refine ⟨t, hexec, performed, ?_⟩
  rw [performed.lines, performed.params]
  rfl

/-- Settles O13: the level of CS is that of a deasserted CS. -/
theorem spiCsdIsPerformed : Obligations.SpiCsdIsPerformed := fun s ready undisturbed => by
  obtain ⟨t, hexec, performed, -⟩ := spiRequest_performed_whole (r := .spiCsd) rfl ready undisturbed
  refine ⟨t, hexec, performed, ?_⟩
  rw [performed.lines, performed.params]
  rfl

/-- Settles O14: `SPI.WRITE` clears the bit counter and counts its eight bits. -/
theorem spiWriteIsPerformed : Obligations.SpiWriteIsPerformed := fun b s ready undisturbed => by
  obtain ⟨t, hexec, performed, count⟩ := spiRequest_performed_whole (r := .spiWrite b) rfl ready undisturbed
  exact ⟨t, hexec, performed, count (by simp [initialWork])⟩

/-- Settles O15: `SPI.READ` likewise. -/
theorem spiReadIsPerformed : Obligations.SpiReadIsPerformed := fun s ready undisturbed => by
  obtain ⟨t, hexec, performed, count⟩ := spiRequest_performed_whole (r := .spiRead) rfl ready undisturbed
  exact ⟨t, hexec, performed, count (by simp [initialWork])⟩

/-- What a request performed whole appends to the trace. -/
theorem Performed.appended {r : Request} {s t : State} (h : Performed r s t) :
    t.trace = s.trace ++ ([.req (specWord r)] ++ requestEvents s.params r (s.env.levels (samplesOf r))
      ++ [.resp (requestResponse r (s.env.levels (samplesOf r)))]) := by
  rw [h.trace, List.append_assoc, List.append_assoc, List.append_assoc]

/-! The counts of R149. -/

/-- When every bit's events have the same four counts, eight bits have eight times those. -/
theorem countEvents_flatMap_eight {f : Bit → List Event} {a b c d : Nat} (h : ∀ v, countEvents (f v) = (a, b, c, d))
    {vs : List Bit} (hv : vs.length = 8) : countEvents (vs.flatMap f) = (8 * a, 8 * b, 8 * c, 8 * d) := by
  simp only [countEvents, Prod.mk.injEq, forall_and] at h
  obtain ⟨changes, delays, samples, micros⟩ := h
  rw [countEvents, countP_flatMap_of_const changes, countP_flatMap_of_const delays, countP_flatMap_of_const samples,
    countP_flatMap_of_const micros, hv]

/-- The counts of a request's own events (the table of R149). -/
theorem spiEvents_counts (p : Params) {r : Request} {vs : List Bit} (spi : r.isI2c = false)
    (hv : vs.length = samplesOf r) : countEvents (requestEvents p r vs) = microCounts r := by
  cases r with
  | spiCsa => rfl
  | spiCsd => rfl
  | spiWrite b =>
    rw [requestEvents, spiWriteEvents_eq]
    exact countEvents_flatMap_eight (f := spiSentBitEvents) (a := 3) (b := 2) (c := 0) (d := 5) (by decide) rfl
  | spiRead =>
    rw [requestEvents, spiReadEvents_eq]
    exact countEvents_flatMap_eight (f := spiReceivedBitEvents) (a := 2) (b := 2) (c := 1) (d := 5) (by decide) hv
  | _ => cases spi

/-- Settles O25: the events of a request performed whole, counted. -/
theorem spiMicroOperationCounts : Obligations.SpiMicroOperationCounts := by
  intro r s spi ready undisturbed
  obtain ⟨t, hexec, performed, -⟩ := spiRequest_performed_whole spi ready undisturbed
  refine ⟨t, _, hexec, performed.appended, ?_⟩
  rw [countEvents_around, spiEvents_counts s.params spi (Env.levels_length _ _)]

/-! Clock pulses (R146, R148). -/

/-- Started with SCK 0, the events make `n` pulses on SCK, do not move MOSI while SCK is 1, and leave SCK 0. -/
def SckPulses (p : Params) (n : Nat) (es : List Event) : Prop :=
  ∀ l : Lines, l.sck = false → countOn p raisesSck l es = n ∧ countOn p lowersSck l es = n ∧
    countOn p movesMosiWhileSckHigh l es = 0 ∧ (l.replay p es).sck = false

theorem SckPulses.append {p : Params} {m n : Nat} {es es' : List Event} (h : SckPulses p m es)
    (h' : SckPulses p n es') : SckPulses p (m + n) (es ++ es') := fun l low => by
  obtain ⟨raised, lowered, still, low₁⟩ := h l low
  obtain ⟨raised', lowered', still', low'⟩ := h' (l.replay p es) low₁
  rw [countOn_append, countOn_append, countOn_append, Lines.replay_append, raised, lowered, still, raised', lowered',
    still']
  exact ⟨rfl, rfl, rfl, low'⟩

/-- One pulse for each bit. -/
theorem SckPulses.flatMap {p : Params} {f : Bit → List Event} (h : ∀ v, SckPulses p 1 (f v)) (vs : List Bit) :
    SckPulses p vs.length (vs.flatMap f) := by
  induction vs with
  | nil => exact fun l low => ⟨rfl, rfl, rfl, low⟩
  | cons v vs ih =>
    rw [List.flatMap_cons, List.length_cons, Nat.add_comm]
    exact (h v).append ih

/-- A bit sent is put on MOSI before its pulse (R144, R148). -/
theorem spiSentBit_sckPulses (p : Params) (v : Bit) : SckPulses p 1 (spiSentBitEvents v) := fun l low => by
  obtain ⟨scl, sda, cs, sck, mosi⟩ := l
  obtain rfl : sck = false := low
  exact ⟨rfl, rfl, rfl, rfl⟩

/-- A bit received is sampled during its pulse, and MOSI is not set at all (R145). -/
theorem spiReceivedBit_sckPulses (p : Params) (v : Bit) : SckPulses p 1 (spiReceivedBitEvents v) := fun l low => by
  obtain ⟨scl, sda, cs, sck, mosi⟩ := l
  obtain rfl : sck = false := low
  exact ⟨rfl, rfl, rfl, rfl⟩

/-- A byte transfer makes eight pulses, one for each bit (R146). -/
theorem spiTransfer_sckPulses (p : Params) {r : Request} {vs : List Bit}
    (byte : (∃ b, r = .spiWrite b) ∨ r = .spiRead) (hv : vs.length = samplesOf r) :
    SckPulses p 8 (requestEvents p r vs) := by
  obtain ⟨b, rfl⟩ | rfl := byte
  · rw [requestEvents, spiWriteEvents_eq]
    exact SckPulses.flatMap (spiSentBit_sckPulses p) (bitsOf b)
  · have received := SckPulses.flatMap (spiReceivedBit_sckPulses p) vs
    rw [hv] at received
    exact received

/-- Settles O30: the pulses are those of the request's own events, the request and the response around them make none;
that SCK ends 0 is in the lines the request leaves. -/
theorem spiTransfersMakeEightPulses : Obligations.SpiTransfersMakeEightPulses := by
  intro r s byte ready undisturbed low
  have spi : r.isI2c = false := by obtain ⟨b, rfl⟩ | rfl := byte <;> rfl
  obtain ⟨t, hexec, performed, -⟩ := spiRequest_performed_whole spi ready undisturbed
  obtain ⟨raised, lowered, still, -⟩ :=
    spiTransfer_sckPulses s.params byte (Env.levels_length (samplesOf r) s.env) s.lines low
  refine ⟨t, _, hexec, performed.appended, ?_, ?_, ?_, ?_⟩
  · rw [countOn_around _ (fun _ _ => rfl) (fun _ _ => rfl), raised]
  · rw [countOn_around _ (fun _ _ => rfl) (fun _ _ => rfl), lowered]
  · rw [countOn_around _ (fun _ _ => rfl) (fun _ _ => rfl), still]
  · rw [performed.lines]
    obtain ⟨b, rfl⟩ | rfl := byte <;> rfl

end Sys2Proof.Machine
end

section
/-! PROOFS. The family of 45_bridges.md: the I2C address byte (R173), the fields R172 refuses, in the meaning of a host
command and in its header, and the step that reads a header and runs its command, or waits for the rest (R171, R174). -/

namespace Sys2Proof.Machine

/-! The I2C address byte (R173). -/

/-- The direction is bit 0 only (R173). -/
theorem zext8_bit_succ (rw : Bit) (j : Nat) : (zext8 rw).getLsbD (j + 1) = false := by
  cases rw <;> simp [zext8]

/-- Settles O7: bit 0 of the device byte is masked out or moved up, the others stand beside the direction. -/
theorem addressByteCarriesDirectionInBitZero : Obligations.AddressByteCarriesDirectionInBitZero := by
  intro d rw
  refine ⟨addrByte_bit0 .raw8 d rw, addrByte_bit0 .shift7 d rw, fun j hj => ⟨?_, ?_⟩⟩
  · have mask : ∀ j < 7, (0xFE#8).getLsbD (j + 1) = true := by decide
    simp [addrByte, zext8_bit_succ, mask j hj]
  · have inside : j + 1 < 8 := by omega
    simpa [addrByte, zext8_bit_succ, shl1] using fun _ => inside

/-! Refused fields (R172). -/

theorem withAddressLength_of_none {p : Params} {alen : Byte} (h : addressLength p.alenCoding alen = none)
    (go : Nat → Host.Outcome State Fault Refusal) :
    withAddressLength p alen go = .refused (.addressLengthByte alen) := by
  rw [withAddressLength, h]

theorem withAddressLength_of_some {p : Params} {alen : Byte} {k : Nat} (h : addressLength p.alenCoding alen = some k)
    (go : Nat → Host.Outcome State Fault Refusal) : withAddressLength p alen go = go k := by
  rw [withAddressLength, h]

/-- Settles O42: the address-length is judged first, then the length, then the bridge is run. -/
theorem refusedFieldsStopTheBridge : Obligations.RefusedFieldsStopTheBridge := by
  intro alen d ah al s
  refine ⟨fun bad n => ⟨withAddressLength_of_none bad _, withAddressLength_of_none bad _⟩, fun good => ?_, rfl, rfl⟩
  obtain ⟨k, hk⟩ := Option.ne_none_iff_exists'.1 good
  exact ⟨withAddressLength_of_some hk _, withAddressLength_of_some hk _⟩

/-! Reading a header (R171, R174). -/

/-- The caller has read `now` after what it had read of a header, and `rest` is left on the host channel. -/
def State.readBytes (s : State) (now rest : List Byte) : State :=
  { s with
    trace := s.trace ++ now.map .hostIn
    caller := { s.caller with hdr := s.caller.hdr ++ now }
    env := { s.env with host := rest } }

/-- One byte of a header, judged as soon as it is read (R172). -/
theorem readHeader_cons {s : State} (undisturbed : s.Undisturbed) (b : Byte) (bs : List Byte) :
    readHeader (b :: bs) s =
      match headerStatus s.params (s.caller.hdr ++ [b]) with
      | .more => readHeader bs (s.readBytes [b] bs)
      | .refuse r => .refuse r
      | .ready i => .run i ((s.readBytes [b] bs).setHdr []) := by
  rw [readHeader, State.resetDue_of_nil undisturbed, State.countdown_of_nil undisturbed]
  rfl

theorem State.readBytes_nil {s : State} {rest : List Byte} (come : s.env.host = rest) : s.readBytes [] rest = s := by
  subst come
  simp [State.readBytes]

theorem State.readBytes_append (s : State) (now now' rest rest' : List Byte) :
    (s.readBytes now rest).readBytes now' rest' = s.readBytes (now ++ now') rest' := by
  simp [State.readBytes]

/-- With `hdr` read before, the header needs more at each byte of `now`. -/
def NeedsMore (p : Params) (hdr now : List Byte) : Prop := ∀ pre, pre <+: now → headerStatus p (hdr ++ pre) = .more

theorem NeedsMore.tail {p : Params} {hdr now : List Byte} {b : Byte} (h : NeedsMore p hdr (b :: now)) :
    NeedsMore p (hdr ++ [b]) now := fun pre hpre => by
  rw [List.append_assoc]
  exact h (b :: pre) (List.cons_prefix_cons.2 ⟨rfl, hpre⟩)

/-- As long as the header needs more, its bytes are read. -/
theorem readHeader_append {s : State} {now rest : List Byte} (undisturbed : s.Undisturbed)
    (more : NeedsMore s.params s.caller.hdr now) (come : s.env.host = now ++ rest) :
    readHeader (now ++ rest) s = readHeader rest (s.readBytes now rest) := by
  induction now generalizing s with
  | nil => rw [List.nil_append, State.readBytes_nil (by exact come)]
  | cons b now ih =>
    have first : headerStatus s.params (s.caller.hdr ++ [b]) = .more := more [b] (by simp)
    have later := ih (s := s.readBytes [b] (now ++ rest)) undisturbed more.tail rfl
    rw [List.cons_append, readHeader_cons undisturbed]
    simp only [first]
    rw [later, State.readBytes_append]
    rfl

/-- A field that is refused ends the reading (R172). -/
theorem readHeader_refused {s : State} {now rest : List Byte} {b : Byte} {r : Refusal} (undisturbed : s.Undisturbed)
    (more : NeedsMore s.params s.caller.hdr now) (come : s.env.host = now ++ b :: rest)
    (bad : headerStatus s.params (s.caller.hdr ++ now ++ [b]) = .refuse r) :
    readHeader s.env.host s = .refuse r := by
  have status : headerStatus (s.readBytes now (b :: rest)).params
      ((s.readBytes now (b :: rest)).caller.hdr ++ [b]) = .refuse r := bad
  rw [come, readHeader_append undisturbed more come, readHeader_cons (by exact undisturbed)]
  simp only [status]

/-- The last byte of a header ends the reading with its command (R174). -/
theorem readHeader_ready {s : State} {now rest : List Byte} {b : Byte} {i : Instr} (undisturbed : s.Undisturbed)
    (more : NeedsMore s.params s.caller.hdr now) (come : s.env.host = now ++ b :: rest)
    (whole : headerStatus s.params (s.caller.hdr ++ now ++ [b]) = .ready i) :
    readHeader s.env.host s = .run i ((s.readBytes (now ++ [b]) rest).setHdr []) := by
  have status : headerStatus (s.readBytes now (b :: rest)).params
      ((s.readBytes now (b :: rest)).caller.hdr ++ [b]) = .ready i := whole
  rw [come, readHeader_append undisturbed more come, readHeader_cons (by exact undisturbed)]
  simp only [status, State.readBytes_append]

/-- A header that has not all come is waited for (R171). -/
theorem readHeader_waits {s : State} (undisturbed : s.Undisturbed)
    (more : NeedsMore s.params s.caller.hdr s.env.host) :
    readHeader s.env.host s = .stay (s.readBytes s.env.host []) := by
  have whole := readHeader_append (rest := []) undisturbed more (List.append_nil _).symm
  rw [List.append_nil] at whole
  rw [whole, readHeader, State.countdown_of_nil (by exact undisturbed)]

/-! The fields of a header (R78, R79, R81). -/

theorem needsMore_iff {p : Params} {now : List Byte} :
    NeedsMore p [] now ↔ ∀ pre ∈ now.inits, headerStatus p pre = .more := by
  simp only [NeedsMore, List.nil_append, List.mem_inits]

theorem headerStatus_nil (p : Params) : headerStatus p [] = .more := rfl

theorem headerStatus_i2c (p : Params) (rest : List Byte) :
    headerStatus p (chI :: rest) = headerI2c p (chI :: rest) rest := by
  rw [headerStatus, if_pos rfl]

theorem headerStatus_spi (p : Params) (rest : List Byte) :
    headerStatus p (chP :: rest) = headerSpi (chP :: rest) rest := by
  rw [headerStatus, if_neg (by decide), if_pos rfl]

/-- An `'I'` or `'P'` command needs more. -/
theorem needsMore_first (p : Params) {c : Byte} (hc : c = chI ∨ c = chP) : NeedsMore p [] [c] := by
  obtain rfl | rfl := hc
  · simp [needsMore_iff, headerStatus_nil, headerStatus_i2c, headerI2c]
  · simp [needsMore_iff, headerStatus_nil, headerStatus_spi, headerSpi]

/-- An operation byte other than `'R'` and `'W'` is refused (R172). -/
theorem headerStatus_badOperation (p : Params) {c o : Byte} (hc : c = chI ∨ c = chP) (hR : o ≠ chR) (hW : o ≠ chW) :
    headerStatus p [c, o] = .refuse (.operationByte o) := by
  have bad : headerOperation o = .refuse (.operationByte o) := if_neg (not_or.2 ⟨hR, hW⟩)
  obtain rfl | rfl := hc
  · rw [headerStatus_i2c, headerI2c, bad]
  · rw [headerStatus_spi, headerSpi, bad]

/-- An `'I'` command with a good operation byte needs more (R78). -/
theorem needsMore_i2cOperation (p : Params) {o : Byte} (ho : o = chR ∨ o = chW) : NeedsMore p [] [chI, o] := by
  simp [needsMore_iff, headerStatus_nil, headerStatus_i2c, headerI2c, headerOperation, ho]

/-- An `'I'` command with a good operation byte and a good address-length needs more up to its length (R78, R81). -/
theorem needsMore_i2cFields {p : Params} {o alen : Byte} (ho : o = chR ∨ o = chW)
    (good : alenOk p.alenCoding alen = true) (d ah al : Byte) : NeedsMore p [] [chI, o, alen, d, ah, al] := by
  simp [needsMore_iff, headerStatus_nil, headerStatus_i2c, headerI2c, headerOperation, headerAlen, ho, good]

/-- A `'P'` command with a good operation byte needs more up to its length (R79). -/
theorem needsMore_spiFields (p : Params) {o : Byte} (ho : o = chR ∨ o = chW) (ah al : Byte) :
    NeedsMore p [] [chP, o, ah, al] := by
  simp [needsMore_iff, headerStatus_nil, headerStatus_spi, headerSpi, headerOperation, ho]

/-- A well-formed command's header needs more before its last byte, and is then complete. -/
theorem headerStatus_of_wellFormed {p : Params} {i : Instr} {hdr : List Byte} (h : encode i = .host hdr)
    (wf : i.wellFormed p.alenCoding = true) :
    NeedsMore p [] hdr.dropLast ∧ headerStatus p hdr = .ready i := by
  have decodes := hostHeaderDecodesBeforeItsPayload i hdr [] h
  rw [List.append_nil] at decodes
  have done : ∀ n, lengthOk n = true → headerDone hdr n = .ready i := fun n hn => by
    simp [headerDone, hn, decodes]
  cases i with
  | hostI2cRead =>
    cases h
    obtain ⟨good, length⟩ := Bool.and_eq_true_iff.1 wf
    exact ⟨needsMore_i2cFields (.inl rfl) good _ _ _, (headerStatus_i2c p _).trans (done _ length)⟩
  | hostI2cWrite =>
    cases h
    obtain ⟨good, length⟩ := Bool.and_eq_true_iff.1 wf
    exact ⟨needsMore_i2cFields (.inr rfl) good _ _ _, (headerStatus_i2c p _).trans (done _ length)⟩
  | hostSpiRead =>
    cases h
    exact ⟨needsMore_spiFields p (.inl rfl) _ _, (headerStatus_spi p _).trans (done _ wf)⟩
  | hostSpiWrite =>
    cases h
    exact ⟨needsMore_spiFields p (.inr rfl) _ _, (headerStatus_spi p _).trans (done _ wf)⟩
  | _ => cases h

/-- A part of a header that leaves something to read is one of the header without its last byte. -/
theorem NeedsMore.part {p : Params} {read now more : List Byte} (h : NeedsMore p [] (read ++ now ++ more).dropLast)
    (left : more ≠ []) : NeedsMore p read now := fun pre hpre => by
  rw [List.dropLast_append_of_ne_nil left] at h
  have part : read ++ pre <+: read ++ now ++ more.dropLast :=
    ((List.prefix_append_right_inj read).2 hpre).trans (List.prefix_append _ _)
  exact h (read ++ pre) part

/-! Where the caller's next header byte comes from. -/

/-- The caller goes on with a header it has begun, or begins one: with nothing queued, or with a `serve` entry, which it
takes off its queue when the first byte is there. -/
theorem fetch_header {s : State} {q : List CallerStep}
    (h : (s.caller.hdr ≠ [] ∧ q = s.caller.queue) ∨
      (s.caller.hdr = [] ∧ ((s.caller.queue = [] ∧ q = []) ∨ (s.env.host ≠ [] ∧ s.caller.queue = .serve :: q)))) :
    fetch s = readHeader s.env.host (s.setQueue q) := by
  obtain ⟨begun, rfl⟩ | ⟨none, ⟨queue, rfl⟩ | ⟨come, queue⟩⟩ := h
  · obtain ⟨b, hdr, hhdr⟩ := List.exists_cons_of_ne_nil begun
    have same : s.setQueue s.caller.queue = s := rfl
    simp only [fetch, hhdr, same]
  · have same : s.setQueue [] = s := congrArg s.setQueue queue.symm
    simp only [fetch, none, queue, same]
  · obtain ⟨b, bs, host⟩ := List.exists_cons_of_ne_nil come
    simp only [fetch, none, queue, host]

/-- A caller that has taken a `serve` entry up but finds no byte waits (R171). -/
theorem fetch_serve_empty {s : State} (undisturbed : s.Undisturbed) (none : s.caller.hdr = [])
    (queue : s.caller.queue.head? = some .serve) (empty : s.env.host = []) : fetch s = .stay s := by
  obtain ⟨q, queue⟩ := List.head?_eq_some_iff.1 queue
  simp only [fetch, none, queue, empty, State.countdown_of_nil undisturbed]

/-- Settles O45: the header is read up to its last byte, which completes it. -/
theorem stepRunsTheHostCommand : Obligations.StepRunsTheHostCommand := by
  intro i read hdr rest q s ready free undisturbed hread begins henc left wf come
  subst hread
  have fetched : fetch s = readHeader s.env.host (s.setQueue q) := fetch_header (by
    obtain begun | ⟨none, queue | queue⟩ := begins
    · exact .inl begun
    · exact .inr ⟨none, .inr ⟨by simp [come, left], queue⟩⟩
    · exact .inr ⟨none, .inl queue⟩)
  obtain ⟨now, b, rfl⟩ := List.eq_nil_or_concat' hdr |>.resolve_left left
  obtain ⟨more, whole⟩ := headerStatus_of_wellFormed henc wf
  rw [← List.append_assoc] at more whole
  have run := readHeader_ready (s := s.setQueue q) (rest := rest) undisturbed
    (more.part (List.cons_ne_nil b [])) (by simpa using come) whole
  calc step s
      = stepFetched (readHeader s.env.host (s.setQueue q)) := by
        rw [step_of_ready_free ready free (State.resetDue_of_nil undisturbed), fetched]
    _ = stepFetched (.run i (((s.setQueue q).readBytes (now ++ [b]) rest).setHdr [])) := congrArg stepFetched run

/-- Settles O46: with no byte there the caller stays as it is; with part of a header there it reads that and waits. -/
theorem idleMachineWaits : Obligations.IdleMachineWaits := by
  intro s ready free undisturbed
  have hstep := step_of_ready_free ready free (State.resetDue_of_nil undisturbed)
  refine ⟨fun hdr queue empty => ?_, fun i read now more q hread hnow henc left wf begins => ?_⟩
  · have fetched : fetch s = readHeader s.env.host s := fetch_header (.inr ⟨hdr, .inl ⟨queue, queue⟩⟩)
    rw [hstep, fetched, empty, readHeader, State.countdown_of_nil undisturbed]
    rfl
  · subst hread hnow
    have fields : NeedsMore s.params s.caller.hdr s.env.host := (headerStatus_of_wellFormed henc wf).1.part left
    have reads := readHeader_waits (s := s.setQueue q) undisturbed fields
    suffices fetch s = .stay ((s.setQueue q).readBytes s.env.host []) by rw [hstep, this]; rfl
    obtain begun | ⟨none, queue | come | ⟨empty, rfl, queue⟩⟩ := begins
    · exact (fetch_header (.inl begun)).trans reads
    · exact (fetch_header (.inr ⟨none, .inl queue⟩)).trans reads
    · exact (fetch_header (.inr ⟨none, .inr come⟩)).trans reads
    · rw [fetch_serve_empty undisturbed none queue empty, empty]
      exact congrArg Fetched.stay (State.readBytes_nil (s := s) empty).symm

/-- Settles O43: each clause is the bytes before the field that fails, and that field. -/
theorem refusedFieldsStopTheHeader : Obligations.RefusedFieldsStopTheHeader := by
  intro s rest ready free undisturbed hdr queue
  have refused : ∀ {now : List Byte} {b : Byte} {rest : List Byte} {r : Refusal}, NeedsMore s.params [] now →
      headerStatus s.params (now ++ [b]) = .refuse r → s.env.host = now ++ b :: rest → step s = .refused r := by
    intro now b rest r more bad come
    have fetched : fetch s = readHeader s.env.host s := fetch_header (.inr ⟨hdr, .inl ⟨queue, queue⟩⟩)
    rw [step_of_ready_free ready free (State.resetDue_of_nil undisturbed), fetched,
      readHeader_refused undisturbed (by rwa [hdr]) come (by rwa [hdr])]
    rfl
  refine ⟨fun c o hc hR hW host => ?_, fun o alen ho bad host => ?_, fun o alen d ah al ho good host => ?_,
    fun o ah al ho host => ?_⟩
  · exact refused (now := [c]) (needsMore_first s.params hc) (headerStatus_badOperation s.params hc hR hW) host
  · have bad' : alenOk s.params.alenCoding alen = false := by rw [alenOk, bad]; rfl
    exact refused (now := [chI, o]) (needsMore_i2cOperation s.params ho)
      (by simp [headerStatus_i2c, headerI2c, headerAlen, bad']) host
  · have good' : alenOk s.params.alenCoding alen = true := Option.isSome_iff_ne_none.2 good
    exact refused (now := [chI, o, alen, d, ah, al]) (needsMore_i2cFields ho good' d ah al)
      (by simp [headerStatus_i2c, headerI2c, headerDone, lengthOk]) host
  · exact refused (now := [chP, o, ah, al]) (needsMore_spiFields s.params ho ah al)
      (by simp [headerStatus_spi, headerSpi, headerDone, lengthOk]) host

end Sys2Proof.Machine
end

section
/-! PROOFS. What a bridge shows of its run (R170): its requests are performed whole, so that the lines, the caller's
variables, the inputs, the conversation and the bus conditions after it can be computed from its steps as long as it
does not wait; `Shows.runBridge` ties that computation to the model. Then what each sequence of R175 to R181 shows. -/

namespace Sys2Proof.Machine

/-! A request of a bridge, performed whole (R170). -/

theorem conversation_append (es es' : List Event) :
    conversation (es ++ es') = conversation es ++ conversation es' :=
  List.filter_append es es'

theorem conversation_flatMap {f : Bit → List Event} (h : ∀ v, conversation (f v) = []) (vs : List Bit) :
    conversation (vs.flatMap f) = [] := by
  induction vs with
  | nil => rfl
  | cons v vs ih => rw [List.flatMap_cons, conversation_append, h, ih]; rfl

/-- A request's own events are no part of the conversation. -/
theorem conversation_requestEvents (p : Params) (r : Request) (vs : List Bit) :
    conversation (requestEvents p r vs) = [] := by
  cases r with
  | i2cWrite b =>
    rw [requestEvents, writeEvents_eq, conversation_append, conversation_flatMap (by decide)]
    rfl
  | i2cRead a =>
    rw [requestEvents, readEvents_eq, conversation_append, conversation_append, conversation_flatMap (by decide),
      conversation_flatMap (by decide)]
    rfl
  | spiWrite b => exact conversation_flatMap (f := spiSentBitEvents) (by decide) (bitsOf b)
  | spiRead => exact conversation_flatMap (f := spiReceivedBitEvents) (by decide) vs
  | _ => rfl

/-- The events of the trace since `o` tell the lines. -/
def TellsLinesSince (o : State) (l : Lines) (es : List Event) (p : Params) : Prop :=
  p = o.params ∧ ∃ es', es = o.trace ++ es' ∧ o.lines.replay o.params es' = l

theorem tellsLinesSince_keptByEvents (o : State) : KeptByEvents (TellsLinesSince o) where
  event l es p e h := by
    obtain ⟨rfl, es', rfl, rfl⟩ := h
    exact ⟨rfl, es' ++ [e], List.append_assoc _ _ _, Lines.replay_concat _ _ _ _⟩

/-- Replaying what a request appended to the trace gives the lines it left. -/
theorem runRequest_replay {r : Request} {s t : State} {es : List Event} (run : runRequest r s = .finished t)
    (trace : t.trace = s.trace ++ es) : s.lines.replay s.params es = t.lines := by
  have start : Holds (TellsLinesSince s) s := ⟨rfl, [], (List.append_nil _).symm, rfl⟩
  have told := (tellsLinesSince_keptByEvents s).runRequest r start
  rw [run] at told
  obtain ⟨-, es', trace', replay⟩ := told
  obtain rfl : es = es' := List.append_cancel_left (trace.symm.trans trace')
  exact replay

/-- Without polls of SCL a request is performed to its end in one go. -/
theorem runRequest_quiet {r : Request} {s : State} (ready : s.Ready) (undisturbed : s.Undisturbed)
    (noWait : (r.isI2c && s.params.sclWait) = false) :
    ∃ t, runRequest r s = .finished t ∧ PerformedWithPolls r [] (s.env.levels (samplesOf r)) s t := by
  have answers : s.Answers r [] (s.env.levels (samplesOf r)) := by
    refine ⟨?_, Env.levels_length _ _, by rw [wireLevels_nil, Env.levels_length]⟩
    cases wait : s.params.sclWait
    · rfl
    · cases r with
      | spiCsa | spiCsd | spiWrite | spiRead => rfl
      | _ => simp [Request.isI2c, wait] at noWait
  obtain ⟨w, does, -⟩ := microSeq_does answers.1 answers.2.1 s.lines s.work
  obtain ⟨u, performs, -⟩ := seqEffect_sound (s := s.accept r) does.effect answers.2.2
  have finished : runRequest r s = .finished (u.complete r) :=
    performs.completedIn (r := r) (k := 0) rfl ready.2 undisturbed rfl
  obtain ⟨t, performed⟩ := request_performed ready undisturbed answers
  have same : (Host.Outcome.next (runRequest r s).state : Host.Outcome State Fault Refusal) = .next t := by
    rw [← performed.completes.exec_next, exec_request, issue, whenAccepting_ready _ ready]
  rw [finished] at same
  obtain rfl : u.complete r = t := Host.Outcome.next.inj same
  exact ⟨_, finished, performed⟩

/-! What a bridge shows of its run. -/

/-- What a bridge shows of a run since a state `o`: the lines, the caller's variables, how many levels were taken from
the environment, the host's bytes and the transmitter's answers to come, the conversation and the bus conditions. -/
structure BridgeView where
  lines : Lines
  resp : Option Byte
  v : Byte
  p : Byte
  taken : Nat
  host : List Byte
  tx : List Bool
  talk : List Event
  conds : List BusCondition

namespace BridgeView

/-- The view at the start. -/
def start (o : State) : BridgeView :=
  ⟨o.lines, o.caller.resp, o.caller.v, o.caller.p, 0, o.env.host, o.env.tx, [], []⟩

/-- The levels the next request samples. -/
def levels (o : State) (x : BridgeView) (r : Request) : List Bit := (o.env.advance x.taken).levels (samplesOf r)

/-- A request performed whole. -/
def request (o : State) (x : BridgeView) (r : Request) : BridgeView :=
  { x with
    lines := requestLines x.lines r
    resp := requestResponse r (x.levels o r)
    taken := x.taken + samplesOf r
    talk := x.talk ++ [.req (specWord r)]
    conds := x.conds ++ busConditions o.params x.lines (requestEvents o.params r (x.levels o r)) }

/-- A request, unless it would poll SCL. -/
def ask (o : State) (x : BridgeView) (r : Request) : Option BridgeView :=
  if r.isI2c && o.params.sclWait then none else some (x.request o r)

/-- A byte to the host, once the transmitter is known to be free. -/
def transmit (x : BridgeView) (b : Byte) : Option BridgeView :=
  match x.tx with
  | true :: tx => some { x with tx := tx, talk := x.talk ++ [.hostOut b] }
  | _ => none

/-- One step of a bridge that does not wait (R171, R175 to R181); none where the caller waits or may have to. -/
def after (o : State) (x : BridgeView) : BridgeOp → Option BridgeView
  | .request r => x.ask o r
  | .capture => some { x with v := x.resp.getD x.v }
  | .hostRead =>
    match x.host with
    | [] => none
    | b :: bs => some { x with p := b, host := bs, talk := x.talk ++ [.hostIn b] }
  | .i2cWriteP => x.ask o (.i2cWrite x.p)
  | .spiWriteP => x.ask o (.spiWrite x.p)
  | .hostWriteV => x.transmit x.v
  | .hostWriteByte b => x.transmit b
  | .settle => some { x with talk := x.talk ++ [.delay .settle] }
  | .pollUntilReady => if statusReady o.params x.v then some x else none

/-- Steps of a bridge that do not wait. -/
def run (o : State) (x : BridgeView) (ops : List BridgeOp) : Option BridgeView := ops.foldlM (after o) x

end BridgeView

/-- The events of the trace since `o`: the conversation in them, the bus conditions they make, and that they tell the
lines. -/
def Told (o s : State) (talk : List Event) (conds : List BusCondition) : Prop :=
  ∃ es, s.trace = o.trace ++ es ∧ conversation es = talk ∧ busConditions o.params o.lines es = conds ∧
    o.lines.replay o.params es = s.lines

/-- More events, that tell how the lines went on. -/
theorem Told.append {o s t : State} {talk es : List Event} {conds : List BusCondition} (h : Told o s talk conds)
    (trace : t.trace = s.trace ++ es) (replay : s.lines.replay o.params es = t.lines) :
    Told o t (talk ++ conversation es) (conds ++ busConditions o.params s.lines es) := by
  obtain ⟨es₀, trace₀, rfl, rfl, replay₀⟩ := h
  refine ⟨es₀ ++ es, by rw [trace, trace₀, List.append_assoc], conversation_append es₀ es, ?_, ?_⟩
  · rw [busConditions_append, replay₀]
  · rw [Lines.replay_append, replay₀, replay]

/-- An event of the caller touches no line and makes no bus condition. -/
theorem Told.say {o s t : State} {talk : List Event} {conds : List BusCondition} {e : Event} (h : Told o s talk conds)
    (ofCaller : e.ofCaller = true) (trace : t.trace = s.trace ++ [e]) (lines : t.lines = s.lines) :
    Told o t (talk ++ [e]) conds := by
  obtain ⟨still, quiet⟩ : s.lines.afterEvent o.params e = s.lines ∧ conditionOf s.lines e = [] := by
    cases e with
    | req | hostIn | hostOut | delay => exact ⟨rfl, rfl⟩
    | _ => cases ofCaller
  have told := h.append trace (by rw [lines]; exact still)
  have said : conversation [e] = [e] := List.filter_cons_of_pos ofCaller
  simpa [said, busConditions, quiet] using told

/-- The run from `o` to `s` shows `x`. The bridge left to do is not part of it. -/
structure Shows (o s : State) (x : BridgeView) : Prop where
  told : Told o s x.talk x.conds
  lines : s.lines = x.lines
  caller : s.caller = { o.caller with bridge := s.caller.bridge, resp := x.resp, v := x.v, p := x.p }
  env : s.env = { o.env.advance x.taken with host := x.host, tx := x.tx }
  params : s.params = o.params
  ready : s.Ready

theorem Shows.start {s : State} (ready : s.Ready) : Shows s s (.start s) :=
  ⟨⟨[], (List.append_nil _).symm, rfl, rfl, rfl⟩, rfl, rfl, rfl, rfl, ready⟩

theorem Shows.setBridge {o s : State} {x : BridgeView} (h : Shows o s x) (ops : List BridgeOp) :
    Shows o (s.setBridge ops) x :=
  ⟨h.told, h.lines, by rw [State.setBridge_caller, h.caller], h.env, h.params, h.ready⟩

theorem Shows.undisturbed {o s : State} {x : BridgeView} (h : Shows o s x) (undisturbed : o.Undisturbed) :
    s.Undisturbed := by
  rw [State.Undisturbed, h.env]
  exact (Env.advance_resets _ _).trans undisturbed

/-- What is shown of a caller with no bridge left. -/
theorem Shows.caller_of_done {o s : State} {x : BridgeView} (h : Shows o s x) (bridge : s.caller.bridge = []) :
    s.caller = { o.caller with bridge := [], resp := x.resp, v := x.v, p := x.p } := by
  rw [h.caller, bridge]

/-! The levels to come do not depend on the host's bytes and the transmitter. -/

theorem Env.afterBit_with (e : Env) (hs : List Byte) (tx : List Bool) :
    ({ e with host := hs, tx := tx } : Env).afterBit = { e.afterBit with host := hs, tx := tx } := by
  unfold Env.afterBit
  split <;> simp_all

theorem Env.advance_with (n : Nat) (e : Env) (hs : List Byte) (tx : List Bool) :
    ({ e with host := hs, tx := tx } : Env).advance n = { e.advance n with host := hs, tx := tx } := by
  induction n generalizing e with
  | zero => rfl
  | succ n ih => rw [Env.advance, Env.afterBit_with, ih]; rfl

theorem Env.levels_with (n : Nat) (e : Env) (hs : List Byte) (tx : List Bool) :
    ({ e with host := hs, tx := tx } : Env).levels n = e.levels n := by
  induction n generalizing e with
  | zero => rfl
  | succ n ih => rw [Env.levels, Env.afterBit_with, ih]; rfl

theorem Env.advance_inputs (n : Nat) (e : Env) : { e.advance n with host := e.host, tx := e.tx } = e.advance n := by
  rw [← Env.advance_host n e, ← Env.advance_tx n e]

/-! Steps that do not wait. -/

theorem callerStep_of_not_due {s : State} (r : Run) (due : s.resetDue = false) : callerStep s r = r := by
  rw [callerStep, due, if_neg Bool.false_ne_true]

section
variable {o s : State} {x y : BridgeView}

/-- A request of a bridge. -/
theorem Shows.runRequest (h : Shows o s x) (undisturbed : o.Undisturbed) {r : Request} (asked : x.ask o r = some y) :
    ∃ t, runRequest r s = .finished t ∧ Shows o t y := by
  obtain ⟨noWait, rfl⟩ : ¬(r.isI2c && o.params.sclWait) = true ∧ x.request o r = y := by
    simpa [BridgeView.ask, Option.ite_none_left_eq_some] using asked
  obtain ⟨t, run, performed⟩ :=
    runRequest_quiet (r := r) h.ready (h.undisturbed undisturbed) (by rw [h.params]; simpa using noWait)
  have levels : s.env.levels (samplesOf r) = x.levels o r := by rw [h.env, Env.levels_with]; rfl
  have trace := performed.trace
  have told := h.told.append trace (h.params ▸ runRequest_replay run trace)
  rw [withSclPolls_nil, levels, h.params, h.lines, busConditions_around, conversation_append, conversation_append,
    conversation_requestEvents] at told
  refine ⟨t, run, told, ?_, ?_, ?_, performed.params.trans h.params, performed.completes.1, performed.fault⟩
  · rw [performed.lines, h.lines]; rfl
  · rw [performed.caller, levels, h.caller]; rfl
  · rw [performed.env, wireLevels_nil, Env.levels_length, h.env, Env.advance_with, ← Env.advance_add]; rfl

/-- A byte to the host. -/
theorem Shows.hostWrite (h : Shows o s x) (undisturbed : o.Undisturbed) {b : Byte} (self : List BridgeOp)
    (sent : x.transmit b = some y) : ∃ t, hostWrite self b s = .finished t ∧ Shows o t y := by
  unfold BridgeView.transmit at sent
  split at sent
  · next tx htx =>
    cases sent
    have free : s.env.tx = true :: tx := by rw [h.env, ← htx]
    have still := State.countdown_of_nil (h.undisturbed undisturbed)
    have taken : s.env.afterTx = { o.env.advance x.taken with host := x.host, tx := tx } := by
      rw [Env.afterTx, free, h.env]
    refine ⟨(s.setEnv s.env.afterTx).log (.hostOut b), ?_, h.told.say rfl rfl rfl, h.lines, h.caller, taken, h.params,
      h.ready⟩
    simp [Machine.hostWrite, still, Env.txReady, free]
  · cases sent

/-- A step of a bridge that does not wait. -/
theorem Shows.bridgeStep (h : Shows o s x) (undisturbed : o.Undisturbed) {q : BridgeOp} (rest : List BridgeOp)
    (after : x.after o q = some y) : ∃ t, bridgeStep q rest s = .finished t ∧ Shows o t y := by
  have due : s.resetDue = false := State.resetDue_of_nil (h.undisturbed undisturbed)
  have still : s.countdown = s := State.countdown_of_nil (h.undisturbed undisturbed)
  have v : s.caller.v = x.v := by rw [h.caller]
  have p : s.caller.p = x.p := by rw [h.caller]
  have request : ∀ r, x.ask o r = some y → ∃ t, Machine.runRequest r (s.setBridge rest) = .finished t ∧ Shows o t y :=
    fun r asked => (h.setBridge rest).runRequest undisturbed asked
  cases q with
  | request r =>
    simp only [Machine.bridgeStep, callerStep_of_not_due _ due, still]
    exact request r after
  | capture =>
    cases after
    refine ⟨s.capture, rfl, h.told, h.lines, ?_, h.env, h.params, h.ready⟩
    rw [State.capture_caller, h.caller]
  | hostRead =>
    simp only [BridgeView.after] at after
    split at after
    · cases after
    · next b bs hhost =>
      cases after
      have come : s.env.host = b :: bs := by rw [h.env, ← hhost]
      simp only [Machine.bridgeStep, callerStep_of_not_due _ due, still, come]
      refine ⟨_, rfl, h.told.say rfl rfl rfl, h.lines, ?_, ?_, h.params, h.ready⟩
      · rw [State.setP_caller, State.takeHost_caller, h.caller]
      · rw [State.setP_env, State.takeHost_env, h.env]
  | i2cWriteP =>
    simp only [Machine.bridgeStep, callerStep_of_not_due _ due, still, p]
    exact request _ after
  | spiWriteP =>
    simp only [Machine.bridgeStep, callerStep_of_not_due _ due, still, p]
    exact request _ after
  | hostWriteV =>
    simp only [Machine.bridgeStep, callerStep_of_not_due _ due, v]
    exact h.hostWrite undisturbed _ after
  | hostWriteByte b =>
    simp only [Machine.bridgeStep, callerStep_of_not_due _ due]
    exact h.hostWrite undisturbed _ after
  | settle =>
    cases after
    simp only [Machine.bridgeStep, callerStep_of_not_due _ due, still]
    exact ⟨_, rfl, h.told.say rfl rfl rfl, h.lines, h.caller, h.env, h.params, h.ready⟩
  | pollUntilReady =>
    obtain ⟨isReady, rfl⟩ := Option.ite_none_right_eq_some.1 after |>.imp_right Option.some.inj
    refine ⟨s, ?_, h⟩
    rw [Machine.bridgeStep, h.params, v, isReady, if_pos rfl]

/-- Steps of a bridge that do not wait, whatever follows them. -/
theorem Shows.runBridge (h : Shows o s x) (undisturbed : o.Undisturbed) {ops : List BridgeOp}
    (run : x.run o ops = some y) (rest : List BridgeOp) :
    ∃ t, runBridge (ops ++ rest) s = runBridge rest t ∧ Shows o t y := by
  induction ops generalizing s x with
  | nil => cases run; exact ⟨s, rfl, h⟩
  | cons q ops ih =>
    obtain ⟨z, after, run⟩ := Option.bind_eq_some_iff.1 run
    obtain ⟨u, step, shown⟩ := h.bridgeStep undisturbed (ops ++ rest) after
    obtain ⟨t, runs, shows⟩ := ih shown run
    refine ⟨t, ?_, shows⟩
    rw [List.cons_append, runBridge_cons, step, ← runs]

end

/-! The views that the bridges' sequences leave. -/

/-- An SPI request makes no bus condition (R140). -/
theorem busConditions_spi (p : Params) {r : Request} (spi : r.isI2c = false) (vs : List Bit) (l : Lines) :
    busConditions p l (requestEvents p r vs) = [] := by
  have loop : ∀ {f : Bit → List Event}, (∀ v l, busConditions p l (f v) = []) →
      ∀ (vs : List Bit) (l : Lines), busConditions p l (vs.flatMap f) = [] := by
    intro f h vs
    induction vs with
    | nil => exact fun _ => rfl
    | cons v vs ih => intro l; rw [List.flatMap_cons, busConditions_append, h, ih]; rfl
  cases r with
  | spiCsa => rfl
  | spiCsd => rfl
  | spiWrite b => exact loop (f := spiSentBitEvents) (fun _ _ => rfl) (bitsOf b) l
  | spiRead => exact loop (f := spiReceivedBitEvents) (fun _ _ => rfl) vs l
  | _ => cases spi

namespace BridgeView

section
variable {o : State} {x : BridgeView}

@[simp] theorem run_nil : x.run o [] = some x := rfl

@[simp] theorem run_cons (q : BridgeOp) (ops : List BridgeOp) :
    x.run o (q :: ops) = (x.after o q).bind fun y => y.run o ops := rfl

theorem run_append (ops ops' : List BridgeOp) :
    x.run o (ops ++ ops') = (x.run o ops).bind fun y => y.run o ops' :=
  List.foldlM_append

/-- An SPI request is never kept waiting, and makes no bus condition. -/
theorem ask_spi {r : Request} (spi : r.isI2c = false) :
    x.ask o r = some { x with
      lines := requestLines x.lines r
      resp := requestResponse r (x.levels o r)
      taken := x.taken + samplesOf r
      talk := x.talk ++ [.req (specWord r)] } := by
  rw [ask, spi, request, busConditions_spi o.params spi, List.append_nil]
  rfl

/-- `I2C.START`, with no waiting for SCL. -/
theorem ask_i2cStart (noWait : o.NoSclWait) :
    x.ask o .i2cStart = some { x with
      lines := { x.lines with scl := .low, sda := .low }
      resp := none
      talk := x.talk ++ [.req 0x1000]
      conds := x.conds ++ busConditions o.params x.lines startEvents } := by
  rw [ask, noWait, Bool.and_false]
  rfl

/-- `I2C.STOP` with SCL low. -/
theorem ask_i2cStop (noWait : o.NoSclWait) (low : x.lines.scl = .low) :
    x.ask o .i2cStop = some { x with
      lines := { x.lines with scl := .rel, sda := .rel }
      resp := none
      talk := x.talk ++ [.req 0x1100]
      conds := x.conds ++ [.stop] } := by
  rw [ask, noWait, Bool.and_false, request]
  simp only [requestEvents, stopEvents_conditions_of_low o.params low]
  rfl

/-- A byte transfer with SCL low makes no bus condition. -/
theorem ask_i2cByte {r : Request} (byte : (∃ b, r = .i2cWrite b) ∨ ∃ a, r = .i2cRead a) (noWait : o.NoSclWait)
    (low : x.lines.scl = .low) :
    x.ask o r = some { x with
      lines := requestLines x.lines r
      resp := requestResponse r (x.levels o r)
      taken := x.taken + samplesOf r
      talk := x.talk ++ [.req (specWord r)] } := by
  obtain ⟨quiet, -⟩ := byteTransfer_pulses o.params (vs := x.levels o r) byte (Env.levels_length _ _) x.lines low
  rw [ask, noWait, Bool.and_false, request, quiet, List.append_nil]
  rfl

end

/-! The loops (R175, R176, R179, R181). -/

theorem readByte_succ (e : Env) (before j : Nat) : readByte e before (j + 1) = readByte e (before + 8) j := by
  have place : before + 8 * (j + 1) = before + 8 + 8 * j := by omega
  rw [readByte, readByte, place]

/-- The bytes read one after the other from a place, each with what is told of it: the first, and the others from eight
levels on. -/
theorem flatMap_readByte_succ (f : Nat → Byte → List Event) (e : Env) (before n : Nat) :
    (List.range (n + 1)).flatMap (fun j => f j (readByte e before j)) =
      f 0 (readByte e before 0) ++ (List.range n).flatMap fun j => f (j + 1) (readByte e (before + 8) j) := by
  simp [List.range_succ_eq_map, List.flatMap_map, readByte_succ]

section
variable {o : State} {x y : BridgeView}

/-- A byte read is written to the host (R175, R181). -/
theorem run_readAndTransmit {r : Request} {b : Byte} {tx : List Bool} (asked : x.ask o r = some y)
    (resp : y.resp = some b) (free : y.tx = true :: tx) (ops : List BridgeOp) :
    x.run o ([.request r, .capture, .hostWriteV] ++ ops) =
      BridgeView.run o { y with v := b, tx := tx, talk := y.talk ++ [.hostOut b] } ops := by
  simp [after, asked, transmit, free, resp]

/-- One pass of the loop of the I2C read bridge (R175). -/
theorem run_i2cReadPass {a : Bool} {tx : List Bool} (noWait : o.NoSclWait) (low : x.lines.scl = .low)
    (free : x.tx = true :: tx) (ops : List BridgeOp) :
    x.run o ([.request (.i2cRead a), .capture, .hostWriteV] ++ ops) = BridgeView.run o { x with
      lines := { x.lines with sda := if a then .low else .rel }
      resp := some (readByte o.env x.taken 0)
      v := readByte o.env x.taken 0
      taken := x.taken + 8
      tx := tx
      talk := x.talk ++ [.req (specWord (.i2cRead a)), .hostOut (readByte o.env x.taken 0)] } ops := by
  rw [run_readAndTransmit (ask_i2cByte (.inr ⟨a, rfl⟩) noWait low) rfl free, requestLines, ← low, List.append_assoc]
  rfl

/-- The loop of the I2C read bridge (R175). -/
theorem run_i2cReadLoop {n : Nat} {tx : List Bool} (noWait : o.NoSclWait) (low : x.lines.scl = .low)
    (free : x.tx = List.replicate (n + 1) true ++ tx) :
    x.run o (i2cReadLoop (n + 1)) = some { x with
      lines := { x.lines with sda := .rel }
      resp := some (readByte o.env x.taken n)
      v := readByte o.env x.taken n
      taken := x.taken + 8 * (n + 1)
      tx := tx
      talk := x.talk ++ (List.range (n + 1)).flatMap fun j =>
        [.req (if j + 1 < n + 1 then 0x1301 else 0x1300), .hostOut (readByte o.env x.taken j)] } := by
  induction n generalizing x with
  | zero =>
    rw [i2cReadLoop, run_i2cReadPass noWait low free]
    simp [i2cReadLoop, specWord]
  | succ n ih =>
    have place : x.taken + 8 + 8 * (n + 1) = x.taken + 8 * (n + 1 + 1) := by omega
    rw [flatMap_readByte_succ (fun j b => [.req (if j + 1 < n + 1 + 1 then 0x1301 else 0x1300), .hostOut b])]
    rw [i2cReadLoop, run_i2cReadPass noWait low free, ih (by exact low) rfl]
    simp [specWord, place, readByte_succ]

/-- A byte read on the SPI bus (R145). -/
theorem ask_spiRead :
    x.ask o .spiRead = some { x with
      lines := { x.lines with sck := false }
      resp := some (readByte o.env x.taken 0)
      taken := x.taken + 8
      talk := x.talk ++ [.req 0x2300] } :=
  ask_spi rfl

/-- One pass of the loop of the SPI read bridge (R181). -/
theorem run_spiReadPass {tx : List Bool} (free : x.tx = true :: tx) (ops : List BridgeOp) :
    x.run o ([.request .spiRead, .capture, .hostWriteV] ++ ops) = BridgeView.run o { x with
      lines := { x.lines with sck := false }
      resp := some (readByte o.env x.taken 0)
      v := readByte o.env x.taken 0
      taken := x.taken + 8
      tx := tx
      talk := x.talk ++ [.req 0x2300, .hostOut (readByte o.env x.taken 0)] } ops := by
  rw [run_readAndTransmit ask_spiRead rfl free, List.append_assoc]
  rfl

/-- The loop of the SPI read bridge (R181). -/
theorem run_spiReadLoop {n : Nat} {tx : List Bool} (free : x.tx = List.replicate (n + 1) true ++ tx) :
    x.run o (spiReadLoop (n + 1)) = some { x with
      lines := { x.lines with sck := false }
      resp := some (readByte o.env x.taken n)
      v := readByte o.env x.taken n
      taken := x.taken + 8 * (n + 1)
      tx := tx
      talk := x.talk ++ (List.range (n + 1)).flatMap fun j =>
        [.req 0x2300, .hostOut (readByte o.env x.taken j)] } := by
  induction n generalizing x with
  | zero =>
    rw [spiReadLoop, run_spiReadPass free]
    simp [spiReadLoop]
  | succ n ih =>
    have place : x.taken + 8 + 8 * (n + 1) = x.taken + 8 * (n + 1 + 1) := by omega
    rw [flatMap_readByte_succ (fun _ b => [.req 0x2300, .hostOut b])]
    rw [spiReadLoop, run_spiReadPass free, ih rfl]
    simp [place, readByte_succ]

/-- The acknowledge bit of the byte last written on the I2C bus, as a response (R74): it is the level taken last. -/
def lastAck (o : State) (taken : Nat) : Option Byte :=
  requestResponse (.i2cWrite 0) ((o.env.advance (taken - 1)).levels 1)

/-- A byte written on the I2C bus with SCL low (R108). -/
theorem ask_i2cWrite (b : Byte) (noWait : o.NoSclWait) (low : x.lines.scl = .low) :
    x.ask o (.i2cWrite b) = some { x with
      lines := { x.lines with sda := .rel }
      resp := lastAck o (x.taken + 1)
      taken := x.taken + 1
      talk := x.talk ++ [reqWrite b] } := by
  rw [ask_i2cByte (.inl ⟨b, rfl⟩) noWait low, requestLines, ← low]
  rfl

/-- The address bytes of the I2C bridges (R53, R175). -/
theorem run_i2cAddressOps {k : Nat} (ah al : Byte) (hk : k = 1 ∨ k = 2) (noWait : o.NoSclWait)
    (low : x.lines.scl = .low) :
    x.run o (i2cAddressOps k ah al) = some { x with
      lines := { x.lines with sda := .rel }
      resp := lastAck o (x.taken + k)
      taken := x.taken + k
      talk := x.talk ++ reqAddress k ah al } := by
  obtain rfl | rfl := hk <;> simp [i2cAddressOps, reqAddress, after, ask_i2cWrite _ noWait, low]

/-- One pass of the loop of the I2C write bridge (R176). -/
theorem run_i2cWritePass {b : Byte} {rest : List Byte} (noWait : o.NoSclWait) (low : x.lines.scl = .low)
    (come : x.host = b :: rest) (ops : List BridgeOp) :
    x.run o ([.hostRead, .i2cWriteP] ++ ops) = BridgeView.run o { x with
      lines := { x.lines with sda := .rel }
      resp := lastAck o (x.taken + 1)
      p := b
      taken := x.taken + 1
      host := rest
      talk := x.talk ++ [.hostIn b, reqWrite b] } ops := by
  simp [after, come, ask_i2cWrite _ noWait, low]

/-- The loop of the I2C write bridge, after a byte written and its payload having come (R176). -/
theorem run_i2cWriteLoop {payload rest : List Byte} (noWait : o.NoSclWait) (low : x.lines.scl = .low)
    (released : x.lines.sda = .rel) (resp : x.resp = lastAck o x.taken) (come : x.host = payload ++ rest) :
    x.run o (i2cWriteLoop payload.length) = some { x with
      resp := lastAck o (x.taken + payload.length)
      p := payload.getLastD x.p
      taken := x.taken + payload.length
      host := rest
      talk := x.talk ++ payload.flatMap fun b => [.hostIn b, reqWrite b] } := by
  induction payload generalizing x with
  | nil =>
    rw [← show x.host = rest from come, List.length_nil, Nat.add_zero, ← resp]
    simp [i2cWriteLoop]
  | cons b payload ih =>
    have place : x.taken + 1 + payload.length = x.taken + (payload.length + 1) := by omega
    rw [List.cons_append] at come
    rw [List.length_cons, i2cWriteLoop, run_i2cWritePass noWait low come,
      ih (by exact low) rfl rfl rfl, ← released]
    simp [place, List.getLast?_cons]

/-- A byte written on the SPI bus (R144). -/
theorem ask_spiWrite (b : Byte) :
    x.ask o (.spiWrite b) = some { x with
      lines := { x.lines with sck := false, mosi := b.getLsbD 0 }
      resp := none
      talk := x.talk ++ [reqSpi b] } :=
  ask_spi rfl

/-- CS asserted (R142). -/
theorem ask_spiCsa :
    x.ask o .spiCsa = some { x with
      lines := { x.lines with cs := .asserted }, resp := none, talk := x.talk ++ [.req 0x2000] } :=
  ask_spi rfl

/-- CS deasserted (R143). -/
theorem ask_spiCsd :
    x.ask o .spiCsd = some { x with
      lines := { x.lines with cs := .deasserted }, resp := none, talk := x.talk ++ [.req 0x2100] } :=
  ask_spi rfl

/-- One pass of the loop of the SPI write bridge (R179). -/
theorem run_spiWritePass {b : Byte} {rest : List Byte} (come : x.host = b :: rest) (ops : List BridgeOp) :
    x.run o ([.hostRead, .spiWriteP] ++ ops) = BridgeView.run o { x with
      lines := { x.lines with sck := false, mosi := b.getLsbD 0 }
      resp := none
      p := b
      host := rest
      talk := x.talk ++ [.hostIn b, reqSpi b] } ops := by
  simp [after, come, ask_spiWrite]

/-- The loop of the SPI write bridge, after a byte `last` written and its payload having come (R179). -/
theorem run_spiWriteLoop {payload rest : List Byte} {last : Byte} (sck : x.lines.sck = false)
    (mosi : x.lines.mosi = last.getLsbD 0) (resp : x.resp = none) (come : x.host = payload ++ rest) :
    x.run o (spiWriteLoop payload.length) = some { x with
      lines := { x.lines with mosi := (payload.getLastD last).getLsbD 0 }
      p := payload.getLastD x.p
      host := rest
      talk := x.talk ++ payload.flatMap fun b => [.hostIn b, reqSpi b] } := by
  induction payload generalizing x last with
  | nil =>
    rw [← show x.host = rest from come, List.getLastD_nil, ← mosi]
    simp [spiWriteLoop]
  | cons b payload ih =>
    rw [List.cons_append] at come
    rw [List.length_cons, spiWriteLoop, run_spiWritePass come, ih (last := b) rfl rfl rfl rfl, ← sck, ← resp]
    simp [List.getLast?_cons]

/-! The bridges. -/

/-- The I2C bridges up to the address bytes (R175, R176). -/
theorem run_i2cSelect {k : Nat} (d ah al : Byte) (hk : k = 1 ∨ k = 2) (noWait : o.NoSclWait) :
    x.run o ([.request .i2cStart, .request (i2cAddr o.params d false)] ++ i2cAddressOps k ah al) =
      some { x with
        lines := { x.lines with scl := .low, sda := .rel }
        resp := lastAck o (x.taken + (k + 1))
        taken := x.taken + (k + 1)
        talk := x.talk ++ ([.req 0x1000, reqWrite (addrByte o.params.addrForm d false)] ++ reqAddress k ah al)
        conds := x.conds ++ busConditions o.params x.lines startEvents } := by
  have place : x.taken + 1 + k = x.taken + (k + 1) := by omega
  simp [after, ask_i2cStart noWait, i2cAddr, ask_i2cWrite _ noWait, run_i2cAddressOps _ _ hk noWait, place]

/-- What the I2C read bridge shows at its end (R175). -/
def afterI2cRead (o : State) (k : Nat) (d ah al : Byte) (n : Nat) (tx : List Bool) : BridgeView :=
  { start o with
    lines := { o.lines with scl := .rel, sda := .rel }
    resp := none
    v := readByte o.env (k + 2) (n - 1)
    taken := k + 2 + 8 * n
    tx := tx
    talk := i2cReadTalk o.params o.env k d ah al n
    conds := busConditions o.params o.lines startEvents ++ [.start, .stop] }

theorem run_brI2cRead {k n : Nat} {tx : List Bool} (d ah al : Byte) (hk : k = 1 ∨ k = 2) (hn : n ≠ 0)
    (noWait : o.NoSclWait) (free : o.env.tx = List.replicate n true ++ tx) :
    (start o).run o (brI2cRead o.params k d ah al n) = some (afterI2cRead o k d ah al n tx) := by
  obtain ⟨m, rfl⟩ := Nat.exists_eq_add_one_of_ne_zero hn
  rw [brI2cRead, run_append, run_append, run_append, run_i2cSelect d ah al hk noWait]
  simp [after, ask_i2cStart noWait, rstart, startEvents_conditions, i2cAddr, ask_i2cWrite _ noWait,
    run_i2cReadLoop (tx := tx) noWait, free, ask_i2cStop noWait, start, afterI2cRead, i2cReadTalk]

/-- What the I2C write bridge shows at its end (R176). -/
def afterI2cWrite (o : State) (k : Nat) (d ah al : Byte) (payload rest : List Byte) (tx : List Bool) : BridgeView :=
  { start o with
    lines := { o.lines with scl := .rel, sda := .rel }
    resp := none
    p := payload.getLastD o.caller.p
    taken := k + 1 + payload.length
    host := rest
    tx := tx
    talk := i2cWriteTalk o.params k d ah al payload
    conds := busConditions o.params o.lines startEvents ++ [.stop] }

/-- The I2C write bridge with the bytes of its payload that have come (R176). -/
theorem run_i2cPayload {k : Nat} {payload rest : List Byte} (d ah al : Byte) (hk : k = 1 ∨ k = 2)
    (noWait : o.NoSclWait) (come : o.env.host = payload ++ rest) :
    (start o).run o ([.request .i2cStart, .request (i2cAddr o.params d false)] ++ i2cAddressOps k ah al
        ++ i2cWriteLoop payload.length) = some { start o with
      lines := { o.lines with scl := .low, sda := .rel }
      resp := lastAck o (k + 1 + payload.length)
      p := payload.getLastD o.caller.p
      taken := k + 1 + payload.length
      host := rest
      talk := [.req 0x1000, reqWrite (addrByte o.params.addrForm d false)] ++ reqAddress k ah al
        ++ payload.flatMap fun b => [.hostIn b, reqWrite b]
      conds := busConditions o.params o.lines startEvents } := by
  rw [run_append, run_i2cSelect d ah al hk noWait]
  simp [run_i2cWriteLoop noWait, come, start]

theorem run_brI2cWrite {k : Nat} {payload rest : List Byte} {tx : List Bool} (d ah al : Byte) (hk : k = 1 ∨ k = 2)
    (noWait : o.NoSclWait) (come : o.env.host = payload ++ rest) (free : o.env.tx = true :: tx) :
    (start o).run o (brI2cWrite o.params k d ah al payload.length) =
      some (afterI2cWrite o k d ah al payload rest tx) := by
  rw [brI2cWrite, run_append, run_i2cPayload d ah al hk noWait come]
  simp [after, ask_i2cStop noWait, start, afterI2cWrite, i2cWriteTalk, transmit, free, chK]

/-- What the SPI read bridge shows at its end (R181). -/
def afterSpiRead (o : State) (ah al : Byte) (n : Nat) (tx : List Bool) : BridgeView :=
  { start o with
    lines := { o.lines with cs := .deasserted, sck := false, mosi := al.getLsbD 0 }
    resp := none
    v := readByte o.env 0 (n - 1)
    taken := 8 * n
    tx := tx
    talk := spiReadTalk o.params o.env ah al n }

theorem run_brSpiRead {n : Nat} {tx : List Bool} (ah al : Byte) (hn : n ≠ 0)
    (free : o.env.tx = List.replicate n true ++ tx) :
    (start o).run o (brSpiRead o.params ah al n) = some (afterSpiRead o ah al n tx) := by
  obtain ⟨m, rfl⟩ := Nat.exists_eq_add_one_of_ne_zero hn
  simp [brSpiRead, run_append, after, ask_spiCsa, ask_spiCsd, ask_spiWrite, run_spiReadLoop (tx := tx), free, start,
    afterSpiRead, spiReadTalk]

/-- The SPI write bridge up to its payload (R179). -/
def spiProgramOps (p : Params) (ah al : Byte) : List BridgeOp :=
  xferCmd p.opWren ++ [.request .spiCsa, .request (.spiWrite p.opPp), .request (.spiWrite ah), .request (.spiWrite al)]

theorem run_spiProgramOps (ah al : Byte) :
    (start o).run o (spiProgramOps o.params ah al) = some { start o with
      lines := { o.lines with cs := .asserted, sck := false, mosi := al.getLsbD 0 }
      resp := none
      talk := [.req 0x2000, reqSpi o.params.opWren, .req 0x2100, .req 0x2000, reqSpi o.params.opPp, reqSpi ah,
        reqSpi al] } := by
  simp [spiProgramOps, xferCmd, after, ask_spiCsa, ask_spiCsd, ask_spiWrite, start]

/-- The SPI write bridge with the bytes of its payload that have come (R179). -/
theorem run_spiProgramPayload {payload rest : List Byte} (ah al : Byte) (come : o.env.host = payload ++ rest) :
    (start o).run o (spiProgramOps o.params ah al ++ spiWriteLoop payload.length) = some { start o with
      lines := { o.lines with cs := .asserted, sck := false, mosi := (payload.getLastD al).getLsbD 0 }
      resp := none
      p := payload.getLastD o.caller.p
      host := rest
      talk := [.req 0x2000, reqSpi o.params.opWren, .req 0x2100, .req 0x2000, reqSpi o.params.opPp, reqSpi ah,
        reqSpi al] ++ payload.flatMap fun b => [.hostIn b, reqSpi b] } := by
  rw [run_append, run_spiProgramOps, Option.bind_some, run_spiWriteLoop (last := al) rfl rfl rfl come]
  rfl

/-- What the SPI write bridge shows at the start of the busy-poll (R179). -/
def afterSpiProgram (o : State) (ah al : Byte) (payload rest : List Byte) : BridgeView :=
  { start o with
    lines := { o.lines with cs := .deasserted, sck := false, mosi := (payload.getLastD al).getLsbD 0 }
    resp := none
    p := payload.getLastD o.caller.p
    host := rest
    talk := spiProgramTalk o.params ah al payload }

/-- The SPI write bridge up to the busy-poll, its payload having come (R179). -/
theorem run_spiProgram {payload rest : List Byte} (ah al : Byte) (come : o.env.host = payload ++ rest) :
    (start o).run o (spiProgramOps o.params ah al ++ spiWriteLoop payload.length ++ [.request .spiCsd]) =
      some (afterSpiProgram o ah al payload rest) := by
  rw [run_append, run_spiProgramPayload ah al come]
  simp [after, ask_spiCsd, afterSpiProgram, spiProgramTalk]

theorem brSpiWrite_eq (p : Params) (ah al : Byte) (n : Nat) :
    brSpiWrite p ah al n = (spiProgramOps p ah al ++ spiWriteLoop n ++ [.request .spiCsd])
      ++ (pollPass p ++ [.hostWriteByte chK]) := by
  simp [brSpiWrite, spiProgramOps]

/-- The view after a pass of the busy-poll (R180). -/
def polled (o : State) (x : BridgeView) : BridgeView :=
  { x with
    lines := { x.lines with cs := .deasserted, sck := false, mosi := o.params.opRdsr.getLsbD 0 }
    resp := none
    v := readByte o.env x.taken 0
    taken := x.taken + 8
    talk := x.talk ++ pollTalk o.params }

/-- A pass of the busy-poll before its test (R180). -/
def pollRequests (p : Params) : List BridgeOp :=
  [.request .spiCsa, .request (.spiWrite p.opRdsr), .request .spiRead, .capture, .request .spiCsd]

theorem pollPass_eq (p : Params) : pollPass p = pollRequests p ++ [.pollUntilReady] := rfl

theorem run_pollRequests : x.run o (pollRequests o.params) = some (x.polled o) := by
  simp [pollRequests, after, ask_spiCsa, ask_spiCsd, ask_spiWrite, ask_spiRead, polled, pollTalk]

end
end BridgeView

end Sys2Proof.Machine
end

section
/-! PROOFS. The four bridges run to their end or to the place where they wait (R175 to R185), the busy-poll over steps
(R180, R204), and the waits of the host channel (R171). -/

namespace Sys2Proof.Machine

/-! Runs of the bridges. -/

/-- HostRead with no byte there is left to do (R171). -/
theorem runBridge_hostRead_empty {s : State} (rest : List BridgeOp) (due : s.resetDue = false)
    (none : s.env.host = []) :
    runBridge (.hostRead :: rest) s = s.countdown.setBridge (.hostRead :: rest) := by
  rw [runBridge_cons]
  simp only [bridgeStep, callerStep_of_not_due _ due, none]

section
variable {o s : State} {x y : BridgeView}

/-- A bridge that never waits is run to its end. -/
theorem Shows.runBridge_whole (h : Shows o s x) (undisturbed : o.Undisturbed) {ops : List BridgeOp}
    (run : x.run o ops = some y) :
    Shows o (Machine.runBridge ops s) y ∧ (Machine.runBridge ops s).caller.bridge = [] := by
  obtain ⟨t, runs, shows⟩ := h.runBridge undisturbed run []
  rw [List.append_nil, runBridge_nil] at runs
  rw [runs]
  exact ⟨shows.setBridge [], rfl⟩

/-- A bridge that comes to a HostRead with no byte there waits at it (R171). -/
theorem Shows.runBridge_waits (h : Shows o s x) (undisturbed : o.Undisturbed) {ops : List BridgeOp}
    (run : x.run o ops = some y) (empty : y.host = []) (rest : List BridgeOp) :
    Shows o (Machine.runBridge (ops ++ .hostRead :: rest) s) y ∧
      (Machine.runBridge (ops ++ .hostRead :: rest) s).caller.bridge = .hostRead :: rest := by
  obtain ⟨t, runs, shows⟩ := h.runBridge undisturbed run (.hostRead :: rest)
  have none : t.env.host = [] := by rw [shows.env]; exact empty
  have resets := shows.undisturbed undisturbed
  rw [runs, runBridge_hostRead_empty rest (State.resetDue_of_nil resets) none, State.countdown_of_nil resets]
  exact ⟨shows.setBridge _, rfl⟩

theorem statusReady_iff (p : Params) (v : Byte) : statusReady p v = true ↔ v &&& p.busyMask = 0 := by
  simp [statusReady]

/-- A bridge that comes to a pass of the busy-poll that finds the device busy is left at another pass (R180). -/
theorem Shows.runBridge_busy (h : Shows o s x) (undisturbed : o.Undisturbed) {ops : List BridgeOp}
    (run : x.run o ops = some y) (busy : readByte o.env y.taken 0 &&& o.params.busyMask ≠ 0) (rest : List BridgeOp) :
    Shows o (Machine.runBridge (ops ++ (pollPass o.params ++ rest)) s) (y.polled o) ∧
      (Machine.runBridge (ops ++ (pollPass o.params ++ rest)) s).caller.bridge = pollPass o.params ++ rest := by
  have whole : pollPass o.params ++ rest = BridgeView.pollRequests o.params ++ .pollUntilReady :: rest := by
    rw [BridgeView.pollPass_eq, List.append_assoc]; rfl
  obtain ⟨u, toPass, before⟩ := h.runBridge undisturbed run (pollPass o.params ++ rest)
  obtain ⟨t, pass, shows⟩ := before.runBridge undisturbed BridgeView.run_pollRequests (.pollUntilReady :: rest)
  have v : t.caller.v = readByte o.env y.taken 0 := by rw [shows.caller]; rfl
  have notReady : statusReady o.params t.caller.v = false := by
    rw [← Bool.not_eq_true, statusReady_iff, v]
    exact busy
  have test : Machine.bridgeStep .pollUntilReady rest t = .paused (t.setBridge (pollPass o.params ++ rest)) := by
    rw [Machine.bridgeStep, shows.params, notReady, if_neg Bool.false_ne_true]
  rw [toPass, whole, pass, runBridge_cons, test, ← whole]
  exact ⟨shows.setBridge _, rfl⟩

/-- A pass of the busy-poll that finds the device ready lets the bridge go on (R180). -/
theorem BridgeView.run_pollPass (isReady : readByte o.env x.taken 0 &&& o.params.busyMask = 0) :
    x.run o (pollPass o.params) = some (x.polled o) := by
  have exit := (statusReady_iff o.params (readByte o.env x.taken 0)).2 isReady
  simp [pollPass_eq, run_append, run_pollRequests, after, polled, exit]

/-- The busy-poll's last pass, and the `'K'` after it (R179, R180). -/
theorem BridgeView.run_pollToK {tx : List Bool} (isReady : readByte o.env x.taken 0 &&& o.params.busyMask = 0)
    (free : x.tx = true :: tx) :
    x.run o (pollPass o.params ++ [.hostWriteByte chK]) =
      some { x.polled o with tx := tx, talk := (x.polled o).talk ++ [.hostOut chK] } := by
  simp [run_append, run_pollPass isReady, after, transmit, polled, free]

/-- The whole SPI write bridge, its first status byte being ready (R179). -/
theorem BridgeView.run_brSpiWrite {payload rest : List Byte} {tx : List Bool} (ah al : Byte)
    (come : o.env.host = payload ++ rest) (isReady : readByte o.env 0 0 &&& o.params.busyMask = 0)
    (free : o.env.tx = true :: tx) :
    (start o).run o (brSpiWrite o.params ah al payload.length) =
      some { (afterSpiProgram o ah al payload rest).polled o with
        tx := tx, talk := spiProgramTalk o.params ah al payload ++ pollTalk o.params ++ [.hostOut chK] } := by
  rw [brSpiWrite_eq, run_append, run_spiProgram ah al come]
  exact run_pollToK isReady free

end

/-! The meaning of a host command is the run of its bridge. -/

/-- An address-length is 1 or 2, in either coding (R81). -/
theorem addressLength_cases {c : AlenCoding} {alen : Byte} {k : Nat} (h : addressLength c alen = some k) :
    k = 1 ∨ k = 2 := by
  have either : ∀ {P Q : Prop} [Decidable P] [Decidable Q],
      (if P then some 1 else if Q then some 2 else none) = some k → k = 1 ∨ k = 2 := by
    intro P Q _ _ h
    split_ifs at h <;> cases h
    · exact .inl rfl
    · exact .inr rfl
  cases c <;> exact either h

theorem startBridge_free {s : State} (ready : s.Ready) (free : s.Free) (ops : List BridgeOp) :
    startBridge ops s = .next (runBridge ops s) := by
  rw [startBridge, free]
  exact whenAccepting_ready _ ready

theorem withLength_of_ne {n : Byte} (h : n ≠ 0) (go : Host.Outcome State Fault Refusal) : withLength n go = go :=
  if_pos (decide_eq_true h)

theorem toNat_ne_zero {n : Byte} (h : n ≠ 0) : n.toNat ≠ 0 := fun zero => h (BitVec.eq_of_toNat_eq zero)

section
variable {s : State} {alen n : Byte} {k : Nat}

theorem exec_hostI2cRead (ready : s.Ready) (free : s.Free) (hk : addressLength s.params.alenCoding alen = some k)
    (hn : n ≠ 0) (d ah al : Byte) :
    exec (.hostI2cRead alen d ah al n) s = .next (runBridge (brI2cRead s.params k d ah al n.toNat) s) :=
  (withAddressLength_of_some hk _).trans ((withLength_of_ne hn _).trans (startBridge_free ready free _))

theorem exec_hostI2cWrite (ready : s.Ready) (free : s.Free) (hk : addressLength s.params.alenCoding alen = some k)
    (hn : n ≠ 0) (d ah al : Byte) :
    exec (.hostI2cWrite alen d ah al n) s = .next (runBridge (brI2cWrite s.params k d ah al n.toNat) s) :=
  (withAddressLength_of_some hk _).trans ((withLength_of_ne hn _).trans (startBridge_free ready free _))

theorem exec_hostSpiRead (ready : s.Ready) (free : s.Free) (hn : n ≠ 0) (ah al : Byte) :
    exec (.hostSpiRead ah al n) s = .next (runBridge (brSpiRead s.params ah al n.toNat) s) :=
  (withLength_of_ne hn _).trans (startBridge_free ready free _)

theorem exec_hostSpiWrite (ready : s.Ready) (free : s.Free) (hn : n ≠ 0) (ah al : Byte) :
    exec (.hostSpiWrite ah al n) s = .next (runBridge (brSpiWrite s.params ah al n.toNat) s) :=
  (withLength_of_ne hn _).trans (startBridge_free ready free _)

/-- `HOST.I2C_READ` runs its bridge to the end. -/
theorem hostI2cRead_shows {tx : List Bool} (ready : s.Ready) (free : s.Free) (undisturbed : s.Undisturbed)
    (noWait : s.NoSclWait) (hk : addressLength s.params.alenCoding alen = some k) (hn : n ≠ 0)
    (htx : s.env.tx = List.replicate n.toNat true ++ tx) (d ah al : Byte) :
    ∃ t, exec (.hostI2cRead alen d ah al n) s = .next t ∧ t.caller.bridge = [] ∧
      Shows s t (.afterI2cRead s k d ah al n.toNat tx) := by
  obtain ⟨shows, bridge⟩ := (Shows.start ready).runBridge_whole undisturbed
    (BridgeView.run_brI2cRead d ah al (addressLength_cases hk) (toNat_ne_zero hn) noWait htx)
  exact ⟨_, exec_hostI2cRead ready free hk hn d ah al, bridge, shows⟩

/-- `HOST.I2C_WRITE` whose payload has come runs its bridge to the end. -/
theorem hostI2cWrite_shows {payload rest : List Byte} {tx : List Bool} (ready : s.Ready) (free : s.Free)
    (undisturbed : s.Undisturbed) (noWait : s.NoSclWait) (hk : addressLength s.params.alenCoding alen = some k)
    (hn : n ≠ 0) (hlen : payload.length = n.toNat) (come : s.env.host = payload ++ rest)
    (htx : s.env.tx = true :: tx) (d ah al : Byte) :
    ∃ t, exec (.hostI2cWrite alen d ah al n) s = .next t ∧ t.caller.bridge = [] ∧
      Shows s t (.afterI2cWrite s k d ah al payload rest tx) := by
  obtain ⟨shows, bridge⟩ := (Shows.start ready).runBridge_whole undisturbed
    (BridgeView.run_brI2cWrite d ah al (addressLength_cases hk) noWait come htx)
  have hexec := exec_hostI2cWrite ready free hk hn d ah al
  rw [← hlen] at hexec
  exact ⟨_, hexec, bridge, shows⟩

end

/-- The byte sent last is one of the payload, whatever was there before. -/
theorem getLastD_of_ne_nil {payload : List Byte} (h : payload.length ≠ 0) (a b : Byte) :
    payload.getLastD a = payload.getLastD b := by
  cases payload with
  | nil => exact absurd rfl h
  | cons c payload => rfl

/-- Settles O31: the bridge never waits, so that it is run to its end. -/
theorem hostI2cReadCompletes : Obligations.HostI2cReadCompletes := by
  intro alen d ah al n k tx s ready free undisturbed noWait hk hn htx
  obtain ⟨t, hexec, bridge, shows⟩ := hostI2cRead_shows ready free undisturbed noWait hk hn htx d ah al
  obtain ⟨es, trace, talk, -, -⟩ := shows.told
  obtain ⟨phase, fault⟩ := shows.ready
  refine ⟨t, es, hexec, trace, talk, shows.lines, phase, fault, shows.params, shows.caller_of_done bridge, ?_⟩
  simp [shows.env, BridgeView.afterI2cRead, BridgeView.start]

/-- Settles O40: the conditions of the same run, from an idle bus. -/
theorem i2cReadBridgeMakesTwoStartsAndOneStop : Obligations.I2cReadBridgeMakesTwoStartsAndOneStop := by
  intro alen d ah al n k tx s ready free undisturbed noWait hk hn htx _ sda
  obtain ⟨t, hexec, -, shows⟩ := hostI2cRead_shows ready free undisturbed noWait hk hn htx d ah al
  obtain ⟨es, trace, -, conds, -⟩ := shows.told
  refine ⟨t, es, hexec, trace, conds.trans ?_⟩
  rw [BridgeView.afterI2cRead, startEvents_conditions s.params (.inr sda)]
  rfl

/-- Settles O32: with its payload there and the transmitter free the bridge never waits. -/
theorem hostI2cWriteCompletes : Obligations.HostI2cWriteCompletes := by
  intro alen d ah al n k payload rest tx s ready free undisturbed noWait hk hn hlen come htx
  obtain ⟨t, hexec, bridge, shows⟩ :=
    hostI2cWrite_shows ready free undisturbed noWait hk hn hlen come htx d ah al
  obtain ⟨es, trace, talk, -, -⟩ := shows.told
  obtain ⟨phase, fault⟩ := shows.ready
  refine ⟨t, es, hexec, trace, talk, shows.lines, phase, fault, shows.params, ?_, ?_⟩
  · rw [shows.caller_of_done bridge, getLastD_of_ne_nil (hlen ▸ toNat_ne_zero hn) 0 s.caller.p]
    rfl
  · rw [shows.env, ← hlen]
    rfl

/-- Settles O41: the conditions of the same run, from an idle bus. -/
theorem i2cWriteBridgeMakesOneStartAndOneStop : Obligations.I2cWriteBridgeMakesOneStartAndOneStop := by
  intro alen d ah al n k payload rest tx s ready free undisturbed noWait hk hn hlen come htx _ sda
  obtain ⟨t, hexec, -, shows⟩ := hostI2cWrite_shows ready free undisturbed noWait hk hn hlen come htx d ah al
  obtain ⟨es, trace, -, conds, -⟩ := shows.told
  refine ⟨t, es, hexec, trace, conds.trans ?_⟩
  rw [BridgeView.afterI2cWrite, startEvents_conditions s.params (.inr sda)]
  rfl

/-- Settles O33: with the transmitter free the bridge never waits. -/
theorem hostSpiReadCompletes : Obligations.HostSpiReadCompletes := by
  intro ah al n tx s ready free undisturbed hn htx
  obtain ⟨shows, bridge⟩ := (Shows.start ready).runBridge_whole undisturbed
    (BridgeView.run_brSpiRead ah al (toNat_ne_zero hn) htx)
  obtain ⟨es, trace, talk, -, -⟩ := shows.told
  obtain ⟨phase, fault⟩ := shows.ready
  refine ⟨_, es, exec_hostSpiRead ready free hn ah al, trace, talk, shows.lines, phase, fault, shows.params,
    shows.caller_of_done bridge, ?_⟩
  simp [shows.env, BridgeView.afterSpiRead, BridgeView.start]

/-- Settles O34: the first pass of the busy-poll is its last. -/
theorem hostSpiWriteCompletes : Obligations.HostSpiWriteCompletes := by
  intro ah al n payload rest tx s ready free undisturbed hn hlen come htx isReady
  obtain ⟨shows, bridge⟩ := (Shows.start ready).runBridge_whole undisturbed
    (BridgeView.run_brSpiWrite ah al come isReady htx)
  have hexec := exec_hostSpiWrite ready free hn ah al
  rw [← hlen] at hexec
  obtain ⟨es, trace, talk, -, -⟩ := shows.told
  obtain ⟨phase, fault⟩ := shows.ready
  refine ⟨_, es, hexec, trace, talk, shows.lines, phase, fault, shows.params, ?_, shows.env⟩
  rw [shows.caller_of_done bridge, getLastD_of_ne_nil (hlen ▸ toNat_ne_zero hn) 0 s.caller.p]
  rfl

/-- Settles O35: the first pass of the busy-poll leaves the bridge at another. -/
theorem hostSpiWriteKeepsPollingWhileBusy : Obligations.HostSpiWriteKeepsPollingWhileBusy := by
  intro ah al n payload rest s ready free undisturbed hn hlen come busy
  obtain ⟨shows, bridge⟩ := (Shows.start ready).runBridge_busy undisturbed
    (BridgeView.run_spiProgram ah al come) busy [.hostWriteByte chK]
  have hexec := exec_hostSpiWrite ready free hn ah al
  rw [← hlen, BridgeView.brSpiWrite_eq] at hexec
  obtain ⟨es, trace, talk, -, -⟩ := shows.told
  obtain ⟨phase, fault⟩ := shows.ready
  refine ⟨_, es, hexec, trace, talk, bridge, phase, fault, shows.params, ?_, ?_⟩
  · rw [shows.lines]; rfl
  · rw [shows.env]; simp [BridgeView.polled, BridgeView.afterSpiProgram, BridgeView.start]

/-! Payload still to come (R185). -/

theorem i2cWriteLoop_add (m n : Nat) : i2cWriteLoop (m + n) = i2cWriteLoop m ++ i2cWriteLoop n := by
  induction m with
  | zero => simp [i2cWriteLoop]
  | succ m ih => rw [Nat.add_right_comm, i2cWriteLoop, i2cWriteLoop, ih, List.append_assoc]

theorem spiWriteLoop_add (m n : Nat) : spiWriteLoop (m + n) = spiWriteLoop m ++ spiWriteLoop n := by
  induction m with
  | zero => simp [spiWriteLoop]
  | succ m ih => rw [Nat.add_right_comm, spiWriteLoop, spiWriteLoop, ih, List.append_assoc]

/-- An I2C write bridge is at a HostRead after each byte but the last. -/
theorem brI2cWrite_split (p : Params) (k : Nat) (d ah al : Byte) {j n : Nat} (h : j < n) :
    ∃ rest, brI2cWrite p k d ah al n = [.request .i2cStart, .request (i2cAddr p d false)] ++ i2cAddressOps k ah al
      ++ i2cWriteLoop j ++ .hostRead :: rest := by
  obtain ⟨m, rfl⟩ := Nat.exists_eq_add_of_lt h
  refine ⟨.i2cWriteP :: i2cWriteLoop m ++ [.request .i2cStop, .settle, .hostWriteByte chK], ?_⟩
  rw [brI2cWrite, Nat.add_assoc, i2cWriteLoop_add, i2cWriteLoop]
  simp

/-- An SPI write bridge is at a HostRead after each byte but the last. -/
theorem brSpiWrite_split (p : Params) (ah al : Byte) {j n : Nat} (h : j < n) :
    ∃ rest, brSpiWrite p ah al n = BridgeView.spiProgramOps p ah al ++ spiWriteLoop j ++ .hostRead :: rest := by
  obtain ⟨m, rfl⟩ := Nat.exists_eq_add_of_lt h
  refine ⟨.spiWriteP :: spiWriteLoop m ++ [.request .spiCsd] ++ (pollPass p ++ [.hostWriteByte chK]), ?_⟩
  rw [BridgeView.brSpiWrite_eq, Nat.add_assoc, spiWriteLoop_add, spiWriteLoop]
  simp

theorem ne_zero_of_lt_toNat {n : Byte} {j : Nat} (h : j < n.toNat) : n ≠ 0 := by
  rintro rfl
  exact Nat.not_lt_zero j h

/-- Settles O37: the bytes there are sent, and the next HostRead waits. -/
theorem i2cWriteBridgeWaitsForItsPayload : Obligations.I2cWriteBridgeWaitsForItsPayload := by
  intro alen d ah al n k payload s ready free undisturbed noWait hk short come
  obtain ⟨rest, split⟩ := brI2cWrite_split s.params k d ah al short
  have hexec := exec_hostI2cWrite ready free hk (ne_zero_of_lt_toNat short) d ah al
  rw [split] at hexec
  obtain ⟨shows, bridge⟩ := (Shows.start ready).runBridge_waits undisturbed
    (BridgeView.run_i2cPayload d ah al (addressLength_cases hk) noWait (come.trans payload.append_nil.symm)) rfl rest
  obtain ⟨es, trace, talk, conds, -⟩ := shows.told
  obtain ⟨phase, fault⟩ := shows.ready
  refine ⟨_, es, hexec, trace, talk, by rw [bridge]; rfl, phase, fault, ?_, ?_, fun sda => ?_⟩
  · rw [shows.env]
  · rw [shows.lines]
  · rw [conds, startEvents_conditions s.params (.inr sda)]

/-- Settles O38: the bytes there are sent, and the next HostRead waits. -/
theorem spiWriteBridgeWaitsForItsPayload : Obligations.SpiWriteBridgeWaitsForItsPayload := by
  intro ah al n payload s ready free undisturbed short come
  obtain ⟨rest, split⟩ := brSpiWrite_split s.params ah al short
  have hexec := exec_hostSpiWrite ready free (ne_zero_of_lt_toNat short) ah al
  rw [split] at hexec
  obtain ⟨shows, bridge⟩ := (Shows.start ready).runBridge_waits undisturbed
    (BridgeView.run_spiProgramPayload ah al (come.trans payload.append_nil.symm)) rfl rest
  obtain ⟨es, trace, talk, -, -⟩ := shows.told
  obtain ⟨phase, fault⟩ := shows.ready
  refine ⟨_, es, hexec, trace, talk, by rw [bridge]; rfl, phase, fault, ?_, ?_⟩
  · rw [shows.env]
  · rw [shows.lines]

/-! Steps of a bridge in progress. -/

/-- With no reset due, the step of a ready block whose caller has a bridge in progress goes on with the bridge. -/
theorem step_of_bridge {s : State} {ops : List BridgeOp} (ready : s.Ready) (due : s.resetDue = false)
    (bridge : s.caller.bridge = ops) (left : ops ≠ []) : step s = .next (runBridge ops s) := by
  obtain ⟨phase, fault⟩ := ready
  obtain ⟨q, rest, rfl⟩ := List.exists_cons_of_ne_nil left
  simp [step, cycle, stepRunning, due, fault, phase, bridge]

/-- One step after `n`. -/
theorem core_run_then {s t u : State} {n : Nat} (run : core.run n s = .next t) (last : step t = .next u) :
    core.run (n + 1) s = .next u := by
  induction n generalizing s with
  | zero => cases run; exact core_run_succ 0 last
  | succ n ih =>
    simp only [Host.Core.run] at run
    split at run
    · next v first => rw [core_run_succ (n + 1) first]; exact ih run
    · cases run
    · cases run

/-- The view after passes of the busy-poll (R180). -/
theorem BridgeView.polled_iterate (o : State) (x : BridgeView) (n : Nat) :
    (polled o)^[n + 1] x = { x with
      lines := { x.lines with cs := .deasserted, sck := false, mosi := o.params.opRdsr.getLsbD 0 }
      resp := none
      v := readByte o.env x.taken n
      taken := x.taken + 8 * (n + 1)
      talk := x.talk ++ (List.replicate (n + 1) (pollTalk o.params)).flatten } := by
  induction n generalizing x with
  | zero => simp [polled]
  | succ n ih =>
    have place : x.taken + 8 + 8 * (n + 1) = x.taken + 8 * (n + 1 + 1) := by omega
    rw [Function.iterate_succ_apply, ih]
    simp [polled, readByte_succ, place, List.replicate_succ]

theorem BridgeView.polled_iterate_taken (o : State) (x : BridgeView) (n : Nat) :
    ((polled o)^[n] x).taken = x.taken + 8 * n := by
  cases n with
  | zero => rfl
  | succ n => rw [polled_iterate]

theorem BridgeView.polled_iterate_talk (o : State) (x : BridgeView) (n : Nat) :
    ((polled o)^[n] x).talk = x.talk ++ (List.replicate n (pollTalk o.params)).flatten := by
  cases n with
  | zero => simp
  | succ n => rw [polled_iterate]

theorem BridgeView.polled_iterate_inputs (o : State) (x : BridgeView) (n : Nat) :
    ((polled o)^[n] x).host = x.host ∧ ((polled o)^[n] x).tx = x.tx := by
  cases n with
  | zero => exact ⟨rfl, rfl⟩
  | succ n => rw [polled_iterate]; exact ⟨rfl, rfl⟩

/-- Passes of the busy-poll that find the device busy, one to a step, come back to the same place (R180, R204). -/
theorem Shows.run_busyPasses {o s : State} {x : BridgeView} {n : Nat} {rest : List BridgeOp} (h : Shows o s x)
    (undisturbed : o.Undisturbed) (bridge : s.caller.bridge = pollPass o.params ++ rest)
    (busy : ∀ j, j < n → readByte o.env x.taken j &&& o.params.busyMask ≠ 0) :
    ∃ t, core.run n s = .next t ∧ t.caller.bridge = pollPass o.params ++ rest ∧
      Shows o t ((BridgeView.polled o)^[n] x) := by
  induction n generalizing s x with
  | zero => exact ⟨s, rfl, bridge, h⟩
  | succ n ih =>
    have first : step s = .next (Machine.runBridge (pollPass o.params ++ rest) s) :=
      step_of_bridge h.ready (State.resetDue_of_nil (h.undisturbed undisturbed)) bridge (by simp [pollPass])
    obtain ⟨shows, again⟩ := h.runBridge_busy (ops := []) undisturbed rfl (busy 0 n.succ_pos) rest
    obtain ⟨t, run, last, shows⟩ := ih shows again fun j hj => by
      have later := busy (j + 1) (Nat.succ_lt_succ hj)
      rwa [BridgeView.readByte_succ] at later
    exact ⟨t, (core_run_succ n first).trans run, last, shows⟩

/-- Settles O36: the busy passes by induction on their number, then the last one. -/
theorem busyPollHasNoBound : Obligations.BusyPollHasNoBound := by
  intro n rest s ready undisturbed bridge busy
  obtain ⟨t, run, again, shows⟩ := (Shows.start ready).run_busyPasses undisturbed bridge busy
  obtain ⟨host, free⟩ := BridgeView.polled_iterate_inputs s (.start s) n
  have taken := BridgeView.polled_iterate_taken s (.start s) n
  constructor
  · obtain ⟨es, trace, talk, -, -⟩ := shows.told
    obtain ⟨phase, fault⟩ := shows.ready
    refine ⟨t, es, run, trace, ?_, again.trans bridge.symm, phase, fault, shows.params, ?_⟩
    · rw [talk, BridgeView.polled_iterate_talk]; rfl
    · rw [shows.env, host, free, taken, ← Env.advance_inputs (8 * n), BridgeView.start, Nat.zero_add]
  · rintro tx rfl htx isReady
    have last : step t = .next (runBridge (pollPass s.params ++ [.hostWriteByte chK]) t) :=
      step_of_bridge shows.ready (State.resetDue_of_nil (shows.undisturbed undisturbed)) again (by simp [pollPass])
    obtain ⟨shows, done⟩ := shows.runBridge_whole undisturbed
      (BridgeView.run_pollToK (tx := tx) (by rw [taken]; exact isReady) (free.trans htx))
    rw [← Function.iterate_succ_apply' (BridgeView.polled s), BridgeView.polled_iterate] at shows
    obtain ⟨es, trace, talk, -, -⟩ := shows.told
    obtain ⟨phase, fault⟩ := shows.ready
    refine ⟨_, es, core_run_then run last, trace, talk, shows.lines, phase, fault, shows.params,
      shows.caller_of_done done, ?_⟩
    rw [shows.env]
    simp [BridgeView.start]

/-! Waiting on the host channel (R171). -/

@[simp] theorem Env.countdown_host (e : Env) : e.countdown.host = e.host := by
  unfold Env.countdown; split <;> rfl

@[simp] theorem Env.countdown_txReady (e : Env) : e.countdown.txReady = e.txReady := by
  unfold Env.countdown; split <;> rfl

/-- HostRead takes the byte that is there (R171). -/
theorem runBridge_hostRead_byte {s : State} (rest : List BridgeOp) {b : Byte} {bs : List Byte}
    (due : s.resetDue = false) (come : s.env.host = b :: bs) :
    runBridge (.hostRead :: rest) s = runBridge rest ((s.countdown.takeHost b bs).setP b) := by
  rw [runBridge_cons]
  simp only [bridgeStep, callerStep_of_not_due _ due, come]

/-- The step of a bridge is to write byte `b` to the host. -/
def Writes (s : State) (q : BridgeOp) (b : Byte) : Prop := q = .hostWriteV ∧ b = s.caller.v ∨ q = .hostWriteByte b

theorem Writes.bridgeStep {s : State} {q : BridgeOp} {b : Byte} (h : Writes s q b) (rest : List BridgeOp)
    (due : s.resetDue = false) : bridgeStep q rest s = hostWrite (q :: rest) b s := by
  obtain ⟨rfl, rfl⟩ | rfl := h <;> exact callerStep_of_not_due _ due

/-- HostWrite with the transmitter busy is left to do (R171). -/
theorem Writes.runBridge_busy {s : State} {q : BridgeOp} {b : Byte} (h : Writes s q b) (rest : List BridgeOp)
    (due : s.resetDue = false) (busy : s.env.txReady = false) :
    runBridge (q :: rest) s = (s.setEnv s.env.countdown.afterTx).setBridge (q :: rest) := by
  obtain ⟨free, -⟩ | ⟨-, write⟩ := hostWrite_cases (q :: rest) b s
  · simp [busy] at free
  · rw [runBridge_cons, h.bridgeStep rest due, write]; rfl

/-- HostWrite with the transmitter free sends its byte (R171). -/
theorem Writes.runBridge_free {s : State} {q : BridgeOp} {b : Byte} (h : Writes s q b) (rest : List BridgeOp)
    (due : s.resetDue = false) (free : s.env.txReady = true) :
    runBridge (q :: rest) s = runBridge rest ((s.setEnv s.env.countdown.afterTx).log (.hostOut b)) := by
  obtain ⟨-, write⟩ | ⟨busy, -⟩ := hostWrite_cases (q :: rest) b s
  · rw [runBridge_cons, h.bridgeStep rest due, write]; rfl
  · simp [free] at busy

/-- Settles O39: the step is that of the bridge, which is at its HostRead or HostWrite. -/
theorem hostChannelWaitsChangeNothing : Obligations.HostChannelWaitsChangeNothing := by
  intro q rest s ready due bridge
  have hstep := step_of_bridge ready due bridge (List.cons_ne_nil q rest)
  obtain ⟨phase, fault⟩ := ready
  refine ⟨?_, ?_, ?_⟩
  · rintro (⟨rfl, none⟩ | ⟨write, busy⟩)
    · rw [runBridge_hostRead_empty rest due none] at hstep
      exact ⟨_, hstep, by rw [State.setBridge_caller, State.countdown_caller, ← bridge], rfl, rfl, phase, fault, rfl,
        by simp, rfl⟩
    · have writes : ∃ b, Writes s q b := by
        obtain rfl | ⟨b, rfl⟩ := write
        · exact ⟨_, .inl ⟨rfl, rfl⟩⟩
        · exact ⟨b, .inr rfl⟩
      obtain ⟨b, writes⟩ := writes
      rw [writes.runBridge_busy rest due busy] at hstep
      exact ⟨_, hstep, by rw [State.setBridge_caller, State.setEnv_caller, ← bridge], rfl, rfl, phase, fault, rfl,
        by simp, by simp⟩
  · rintro b bs rfl come
    rw [hstep, runBridge_hostRead_byte rest due come]
    rfl
  · intro b writes free
    rw [hstep, Writes.runBridge_free writes rest due free]
    rfl

end Sys2Proof.Machine
end

section
/-! PROOFS. The family of 60_exceptions.md: the one exception and how it is raised (R200, R201), acceptance (R30, R203),
and the reset as the only way out of a fault (R208). -/

namespace Sys2Proof.Machine

/-! Acceptance (R30, R203). -/

/-- A block with a request in progress accepts nothing (R28, I17; log entry 13). -/
theorem whenAccepting_inProgress {s : State} {r : Request} {k : Nat} (busy : Bool) (t : State) (hfault : s.fault = none)
    (hphase : s.phase = .busy r k) : whenAccepting s busy t = .refused .callerBusy := by
  simp [whenAccepting, hfault, hphase]

/-- A ready block accepts a request and performs it, to its end or to where it waits or a reset comes. -/
theorem exec_request_ready (r : Request) {s : State} (ready : s.Ready) :
    exec r.toInstr s = .next (runRequest r s).state :=
  (exec_request r s).trans (whenAccepting_ready _ ready)

theorem exec_request_faulted (r : Request) {s : State} {f : FaultReason} (hfault : s.fault = some f) :
    exec r.toInstr s = .fault (.stuckUntilReset f) :=
  (exec_request r s).trans (whenAccepting_faulted _ _ hfault)

theorem exec_request_inProgress (r : Request) {r' : Request} {k : Nat} {s : State} (hfault : s.fault = none)
    (hphase : s.phase = .busy r' k) : exec r.toInstr s = .refused .callerBusy :=
  (exec_request r s).trans (whenAccepting_inProgress _ _ hfault hphase)

/-- With no reset coming, a faulted block has no next step (R203, R208). -/
theorem step_faulted_undisturbed {s : State} {f : FaultReason} (hfault : s.fault = some f)
    (undisturbed : s.Undisturbed) : step s = .fault (.stuckUntilReset f) := by
  simp [step, cycle, stepFaulted, State.resetDue_of_nil undisturbed, hfault, undisturbed]

/-- Settles O19: a ready block accepts the request, and performing it sets no fault mark. -/
theorem noRequestRaisesAnException : Obligations.NoRequestRaisesAnException := by
  intro r s ready
  have ⟨_, unfaulted⟩ := ready
  exact ⟨(runRequest r s).state, exec_request_ready r ready, runRequest_fault_none r unfaulted⟩

/-- Settles O48, one clause for each state of the block: ready, faulted, with a request in progress. -/
theorem requestsAreAcceptedOnlyIdleAndUnfaulted : Obligations.RequestsAreAcceptedOnlyIdleAndUnfaulted := by
  intro f r r' k s
  refine ⟨fun ready => ⟨_, exec_request_ready r ready⟩, fun hfault => ⟨?_, ?_⟩, exec_request_inProgress r⟩
  · exact exec_request_faulted r hfault
  · exact step_faulted_undisturbed hfault

/-! The fault (R201, R208). -/

/-- A word that does not decode raises the fault, and nothing is run (R76, R201). -/
theorem fetchRequest_illegal {w : Word16} (s : State) (illegal : ∀ i, decodeRequest w ≠ .ok i) :
    fetchRequest w s = .stay (s.raiseIllegal w) := by
  unfold fetchRequest
  split
  · next i hdecode => exact absurd hdecode (illegal i)
  · rfl

/-- Settles O47, by following the step from the caller's queue to the raised fault. -/
theorem illegalRequestFaults : Obligations.IllegalRequestFaults := by
  intro w q s ready free hreset hhdr hqueue illegal
  refine ⟨(s.setQueue q).raiseIllegal w, ?_, rfl⟩
  calc step s
      = stepFetched (fetch s) := step_of_ready_free ready free hreset
    _ = stepFetched (fetchRequest w (s.setQueue q)) := by rw [fetch_issue hhdr hqueue]
    _ = stepFetched (.stay ((s.setQueue q).raiseIllegal w)) := by rw [fetchRequest_illegal _ illegal]
    _ = .next ((s.setQueue q).raiseIllegal w) := rfl

/-- Of all that a step can do, only the reset is possible with the fault mark set (R208). -/
theorem step_next_of_faulted {s t : State} {f : FaultReason} (hfault : s.fault = some f) (h : step s = .next t) :
    t = s.hardwareReset := by
  have marked : s.fault ≠ none := by simp [hfault]
  rcases step_next h with reset | ⟨unmarked, _⟩ | ⟨unmarked, _⟩ | ⟨unmarked, _⟩
  · exact reset
  all_goals exact absurd unmarked marked

/-- Settles O49: the next state is the hardware reset, whose fields are read off. -/
theorem onlyResetLeavesAFault : Obligations.OnlyResetLeavesAFault := by
  intro f s t hfault hstep
  obtain rfl := step_next_of_faulted hfault hstep
  exact ⟨rfl, rfl, rfl, rfl⟩

end Sys2Proof.Machine
end

section
/-! PROOFS. The family of 70_reset_and_hazards.md: a reset that is due (R221), and the nominal durations of the requests as
the sums of their delays (R235). -/

namespace Sys2Proof.Machine

/-! A reset that is due (R221). -/

/-- A reset that is due is the whole step, whatever is in progress. -/
theorem step_of_resetDue {s : State} (due : s.resetDue = true) : step s = .next s.hardwareReset := by
  simp [step, cycle, due]

/-- Settles O51: the next state is the hardware reset, whose fields are read off. -/
theorem resetTakesEveryFieldToItsResetValue : Obligations.ResetTakesEveryFieldToItsResetValue := fun _ due =>
  ⟨_, step_of_resetDue due, rfl, rfl, rfl, rfl, rfl, rfl, rfl, rfl, rfl, rfl⟩

/-! Nominal durations (R235). -/

/-- The nominal duration is that of the delays of each kind, counted. -/
theorem traceTime_eq (p : Params) (es : List Event) :
    traceTime p es = es.count (.delay .i2c) * p.tI2c + es.count (.delay .spi) * p.tSpi
      + es.count (.delay .settle) * p.tSettle := by
  induction es with
  | nil => simp [traceTime]
  | cons e es ih =>
    have split : traceTime p (e :: es) = e.time p + traceTime p es := rfl
    rw [split, ih]
    cases e with
    | delay k => cases k <;> simp [Event.time] <;> ring
    | _ => simp [Event.time]

theorem traceTime_append (p : Params) (es es' : List Event) :
    traceTime p (es ++ es') = traceTime p es + traceTime p es' := by
  simp [traceTime]

/-- The polls of SCL last nothing. -/
theorem traceTime_withSclPolls (p : Params) (ns : List Nat) (es : List Event) :
    traceTime p (withSclPolls ns es) = traceTime p es := by
  simp only [traceTime_eq, List.count]
  rw [countP_withSclPolls fun _ => rfl, countP_withSclPolls fun _ => rfl, countP_withSclPolls fun _ => rfl]

/-- The delays of a request's own events add up to its entry in the table of R235. -/
theorem traceTime_requestEvents (p : Params) {r : Request} {vs : List Bit} (hv : vs.length = samplesOf r) :
    traceTime p (requestEvents p r vs) = nominalDuration p r := by
  rw [traceTime_eq]
  cases r with
  | i2cStart => simp [requestEvents, startEvents, nominalDuration]
  | i2cStop => simp [requestEvents, stopEvents, nominalDuration]
  | i2cWrite b =>
    rw [requestEvents, List.count, List.count, List.count, writeEvents_countP (c := 3) (by decide),
      writeEvents_countP (c := 0) (by decide), writeEvents_countP (c := 0) (by decide)]
    simp [ackEvents, nominalDuration]
  | i2cRead a =>
    rw [requestEvents, List.count, List.count, List.count,
      readEvents_countP (c := 2) (d := 3) (by decide) (by decide) a hv,
      readEvents_countP (c := 0) (d := 0) (by decide) (by decide) a hv,
      readEvents_countP (c := 0) (d := 0) (by decide) (by decide) a hv]
    simp [nominalDuration]
  | spiCsa => simp [requestEvents, csaEvents, nominalDuration]
  | spiCsd => simp [requestEvents, csdEvents, nominalDuration]
  | spiWrite b =>
    rw [requestEvents, spiWriteEvents_eq, List.count, List.count, List.count,
      countP_flatMap_of_const (c := 0) (by decide), countP_flatMap_of_const (c := 2) (by decide),
      countP_flatMap_of_const (c := 0) (by decide)]
    simp [bitsOf, nominalDuration]
  | spiRead =>
    rw [requestEvents, spiReadEvents_eq, List.count, List.count, List.count,
      countP_flatMap_of_const (c := 0) (by decide), countP_flatMap_of_const (c := 2) (by decide),
      countP_flatMap_of_const (c := 0) (by decide), hv]
    simp [samplesOf, nominalDuration]

/-- Settles O26: of the events of a request performed to its end only its own delays last, not its polls of SCL, the
request and the response. -/
theorem nominalDurationsFollowFromTheDelays : Obligations.NominalDurationsFollowFromTheDelays := by
  intro r stretches levels s ready undisturbed answers
  obtain ⟨t, performed⟩ := request_performed ready undisturbed answers
  obtain ⟨-, hv, -⟩ := answers
  refine ⟨t, _, performed.completes, performed.trace, ?_⟩
  rw [traceTime_append, traceTime_append, traceTime_withSclPolls, traceTime_requestEvents s.params hv]
  simp [traceTime, Event.time]

end Sys2Proof.Machine
end

section
/-! PROOFS. A reset inside a request (R220 to R222): the block with a reset to come does what it does without, up to the
boundary where the reset comes. What the request performs to its end (`Performs`) is cut there, after one step for each
poll of SCL that read 0. -/

namespace Sys2Proof.Machine

/-! The same state with a reset to come (R220; log entry 7). -/

/-- `s` with the first reset due after `j` boundaries, and `rest` after it. -/
def State.resetIn (s : State) (j : Nat) (rest : List Nat) : State := s.setEnv { s.env with resets := j :: rest }

section
variable (s : State) (j : Nat) (rest : List Nat)

@[simp] theorem State.resetIn_trace : (s.resetIn j rest).trace = s.trace := rfl
@[simp] theorem State.resetIn_params : (s.resetIn j rest).params = s.params := rfl
@[simp] theorem State.resetIn_caller : (s.resetIn j rest).caller = s.caller := rfl
@[simp] theorem State.resetIn_host : (s.resetIn j rest).env.host = s.env.host := rfl

theorem State.resetIn_succ_due : (s.resetIn (j + 1) rest).resetDue = false := rfl
theorem State.resetIn_succ_countdown : (s.resetIn (j + 1) rest).countdown = s.resetIn j rest := rfl

theorem State.resetIn_of_resets {s : State} {j : Nat} {rest : List Nat} (h : s.env.resets = j :: rest) :
    s.resetIn j rest = s := by
  rw [State.resetIn, ← h]; rfl

/-- The levels to come do not depend on the resets to come. -/
theorem Env.afterBit_withResets (e : Env) (rs : List Nat) :
    ({ e with resets := rs } : Env).afterBit = { e.afterBit with resets := rs } := by
  unfold Env.afterBit; cases e.samples <;> rfl

/-- Whether the transmitter is free does not depend on them either. -/
theorem Env.afterTx_withResets (e : Env) (rs : List Nat) :
    ({ e with resets := rs } : Env).afterTx = { e.afterTx with resets := rs } := by
  unfold Env.afterTx; cases e.tx <;> rfl

/-- A micro-operation does the same whatever reset is to come. -/
theorem State.perform_resetIn (o : MicroOp) : (s.resetIn j rest).perform o = (s.perform o).resetIn j rest := by
  have sample : ∀ l, (s.resetIn j rest).sample l = (s.sample l).resetIn j rest := fun l => by
    have env := s.env.afterBit_withResets (j :: rest)
    cases l <;> simp only [State.sample, State.resetIn, State.setEnv_env, env] <;> rfl
  cases o with
  | sample l => exact sample l
  | waitHigh => exact sample .scl
  | _ => rfl

end

/-! What a piece of work appends to the trace, and what it leaves of the caller's inputs. -/

/-- `t` follows `s` with the events `es`: they are appended to the trace, their host bytes were taken, and the
parameters and the queue are kept. -/
structure Follows (s t : State) (es : List Event) : Prop where
  trace : t.trace = s.trace ++ es
  params : t.params = s.params
  queue : t.caller.queue = s.caller.queue
  host : t.env.host = s.env.host.drop (es.countP Event.isHostIn)

theorem Follows.refl (s : State) : Follows s s [] := ⟨by simp, rfl, rfl, rfl⟩

theorem Follows.resetIn (s : State) (j : Nat) (rest : List Nat) : Follows s (s.resetIn j rest) [] :=
  ⟨by simp, rfl, rfl, rfl⟩

theorem Follows.trans {s t u : State} {es es' : List Event} (h : Follows s t es) (h' : Follows t u es') :
    Follows s u (es ++ es') where
  trace := by rw [h'.trace, h.trace, List.append_assoc]
  params := h'.params.trans h.params
  queue := h'.queue.trans h.queue
  host := by rw [h'.host, h.host, List.drop_drop, List.countP_append]

/-- A reset after them is one event more. -/
theorem Follows.hardwareReset_trace {s t : State} {es : List Event} (h : Follows s t es) :
    t.hardwareReset.trace = s.trace ++ es ++ [.reset] := by
  rw [State.hardwareReset_trace, h.trace]

/-- The event of a micro-operation (R10). -/
def MicroOp.event (s : State) : MicroOp → Event
  | .low l => .low l
  | .rel l => .rel l
  | .sdaFromSh => sdaStep (topBit s.work.i2cSh)
  | .set l v => .set l v
  | .mosiFromSh => .set .mosi (topBit s.work.spiSh)
  | .delay k => .delay k
  | .sample l => .sample l (s.sampleValue l)
  | .waitHigh => .sample .scl (s.sampleValue .scl)

/-- The event of a micro-operation is no response and no byte of the host. -/
theorem MicroOp.event_kind (s : State) (o : MicroOp) :
    (o.event s).atBoundary = true ∧ (o.event s).isHostIn = false := by
  cases o with
  | sdaFromSh => rw [MicroOp.event]; cases topBit s.work.i2cSh <;> exact ⟨rfl, rfl⟩
  | _ => exact ⟨rfl, rfl⟩

theorem State.perform_trace (s : State) (o : MicroOp) : (s.perform o).trace = s.trace ++ [o.event s] := by
  cases o with
  | sdaFromSh => simp only [State.perform, MicroOp.event]; cases topBit s.work.i2cSh <;> rfl
  | _ => rfl

theorem State.perform_host (s : State) (o : MicroOp) : (s.perform o).env.host = s.env.host := by
  cases o with
  | sample l => exact s.env.afterBit_host
  | waitHigh => exact s.env.afterBit_host
  | _ => rfl

theorem State.perform_follows (s : State) (o : MicroOp) : Follows s (s.perform o) [o.event s] := by
  obtain ⟨_, -, -, -, -, params, caller⟩ := s.perform_spec o
  obtain ⟨-, noHostIn⟩ := MicroOp.event_kind s o
  exact ⟨s.perform_trace o, params, congrArg (·.queue) caller, by simp [noHostIn, s.perform_host o]⟩

theorem doMicro_follows (s : State) (m : Micro) : Follows s (doMicro s m) [m.op.event s] :=
  let ⟨trace, params, queue, host⟩ := s.perform_follows m.op
  ⟨trace, params, queue, host⟩

/-! One micro-operation of a run, with a reset to come and without. -/

theorem runMicros_undisturbed (r : Request) (m : Micro) (ms : List Micro) {s : State} (undisturbed : s.Undisturbed) :
    runMicros r (m :: ms) s =
      if m.op.repeats (s.perform m.op) then .paused (s.perform m.op) else runMicros r ms (doMicro s m) := by
  rw [runMicros_cons, State.countdown_of_nil undisturbed, State.resetDue_of_nil undisturbed]
  rfl

theorem runMicros_due (r : Request) (m : Micro) (ms : List Micro) {s : State} (due : s.resetDue = true) :
    runMicros r (m :: ms) s = .paused s.hardwareReset := by
  rw [runMicros_cons, if_pos due]

theorem runMicros_resetIn_succ (r : Request) (m : Micro) (ms : List Micro) (s : State) (j : Nat) (rest : List Nat) :
    runMicros r (m :: ms) (s.resetIn (j + 1) rest) =
      if m.op.repeats (s.perform m.op) then .paused ((s.perform m.op).resetIn j rest)
      else runMicros r ms ((doMicro s m).resetIn j rest) := by
  rw [runMicros_cons, State.resetIn_succ_due, State.resetIn_succ_countdown, State.perform_resetIn]
  rfl

/-! A request with its polls of SCL over the steps it takes, cut short by a reset (R104, R220). -/

/-- In the sequence of a request SCL is sampled by the polls alone. -/
theorem microSeq_samplesSclOnlyInPolls (p : Params) (r : Request) : ∀ m ∈ microSeq p r, m.op ≠ .sample .scl := by
  have up : ∀ m ∈ sclUp p, m.op ≠ .sample .scl := by
    unfold sclUp; split <;> simp [op]
  have ack : ∀ a : Bool, (if a then .low .sda else .rel .sda : MicroOp) ≠ .sample .scl := by decide
  have all : (microSeq p r).all (fun m => m.op != .sample .scl) = true := by
    cases r with
    | i2cStart => simpa [microSeq, i2cStartSeq, sclDown, op, dI2c] using up
    | i2cStop => simpa [microSeq, i2cStopSeq, op, dI2c] using up
    | i2cWrite b => simpa [microSeq, i2cWriteSeq, i2cWriteBit, i2cWriteAck, sclDown, op, dI2c] using up
    | i2cRead a => simpa [microSeq, i2cReadSeq, i2cReadBit, i2cReadAck, sclDown, op, dI2c, ack a] using up
    | _ => rfl
  simpa using all

/-- The event of a micro-operation is a poll of SCL that reads 0 just when the micro-operation is repeated. -/
theorem MicroOp.event_eq_lowPoll {o : MicroOp} (h : o ≠ .sample .scl) (s : State) :
    o.event s = .sample .scl false ↔ o.repeats (s.perform o) = true := by
  cases o with
  | sdaFromSh => cases hb : topBit s.work.i2cSh <;> simp [MicroOp.event, sdaStep, MicroOp.repeats, hb]
  | sample l => cases l <;> simp_all [MicroOp.event, MicroOp.repeats]
  | waitHigh => simp [MicroOp.event, MicroOp.repeats, State.perform]
  | _ => simp [MicroOp.event, MicroOp.repeats]

/-- A request in progress goes on at the next step; when a reset is due there it comes at that step, too. -/
theorem step_resumes_or_resets {s : State} {r : Request} {k : Nat} {m : Micro} {ms : List Micro}
    (phase : s.phase = .busy r k) (fault : s.fault = none) (left : (microSeq s.params r).drop k = m :: ms) :
    step s = .next (afterResume (runMicros r (m :: ms) s)) := by
  cases due : s.resetDue with
  | true => rw [step_of_resetDue due, runMicros_due r m ms due]; rfl
  | false => simp [step, cycle, stepRunning, resumeRequest, due, fault, phase, left]

/-- The run is over in a reset after `n` steps more. -/
def Run.ResetIn (run : Run) (n : Nat) (t : State) : Prop := ∃ u, run = .paused u ∧ core.run n u = .next t

/-- A reset to come cuts the run of the sequence after as many of the events as there are boundaries left, one step
having been made for each poll of SCL that read 0 before it. -/
def CutInSteps (r : Request) (ms : List Micro) (s : State) (es : List Event) : Prop :=
  ∀ j rest, j < es.length → ∃ v, Follows s v (es.take j) ∧ v.env.resets = 0 :: rest ∧
    (runMicros r ms (s.resetIn j rest)).ResetIn ((es.take j).count (.sample .scl false)) v.hardwareReset

section
variable {r : Request} {k : Nat} {m : Micro} {ms : List Micro} {s : State} {es : List Event}

/-- With no boundary left the reset comes before the next micro-operation. -/
theorem cutInSteps_zero (r : Request) (m : Micro) (ms : List Micro) (s : State) (es : List Event) (rest : List Nat) :
    ∃ v, Follows s v (es.take 0) ∧ v.env.resets = 0 :: rest ∧
      (runMicros r (m :: ms) (s.resetIn 0 rest)).ResetIn ((es.take 0).count (.sample .scl false)) v.hardwareReset :=
  ⟨s.resetIn 0 rest, .resetIn s 0 rest, rfl, _, runMicros_due r m ms rfl, rfl⟩

/-- A poll that reads 0: the next step begins with the poll again, or with the reset. -/
theorem CutInSteps.again (phase : s.phase = .busy r k) (fault : s.fault = none)
    (left : (microSeq s.params r).drop k = m :: ms) (low : m.op.repeats (s.perform m.op) = true)
    (h : CutInSteps r (m :: ms) (s.perform m.op) es) : CutInSteps r (m :: ms) s (m.op.event s :: es) := by
  intro j rest hj
  cases j with
  | zero => exact cutInSteps_zero r m ms s _ rest
  | succ j =>
    obtain ⟨v, follows, resets, u, run, later⟩ := h j rest (Nat.lt_of_succ_lt_succ hj)
    obtain ⟨_, -, -, hphase, hfault, hparams, -⟩ := s.perform_spec m.op
    have again : step ((s.perform m.op).resetIn j rest) = .next u := by
      rw [step_resumes_or_resets (s := (s.perform m.op).resetIn j rest) (hphase.trans phase) (hfault.trans fault)
        (by rw [State.resetIn_params, hparams, left]), run]
      rfl
    have reads : m.op.event s = .sample .scl false :=
      (MicroOp.event_eq_lowPoll (by simp [MicroOp.repeats_eq_true low]) s).2 low
    refine ⟨v, (s.perform_follows m.op).trans follows, resets, _, by rw [runMicros_resetIn_succ, if_pos low], ?_⟩
    rw [List.take_succ_cons, reads, List.count_cons_self, core_run_succ _ again]
    exact later

/-- A micro-operation that is not repeated: the run goes on in the same step. -/
theorem CutInSteps.once (polls : m.op ≠ .sample .scl) (done : m.op.repeats (s.perform m.op) = false)
    (h : CutInSteps r ms (doMicro s m) es) : CutInSteps r (m :: ms) s (m.op.event s :: es) := by
  intro j rest hj
  cases j with
  | zero => exact cutInSteps_zero r m ms s _ rest
  | succ j =>
    obtain ⟨v, follows, resets, later⟩ := h j rest (Nat.lt_of_succ_lt_succ hj)
    have goesOn : m.op.event s ≠ .sample .scl false := fun reads => by
      rw [MicroOp.event_eq_lowPoll polls, done] at reads
      cases reads
    refine ⟨v, (doMicro_follows s m).trans follows, resets, ?_⟩
    rw [List.take_succ_cons, List.count_cons_of_ne goesOn, runMicros_resetIn_succ, done]
    exact later

end

/-- What a sequence performs to its end, a reset to come cuts anywhere. -/
theorem Performs.cut {ms : List Micro} {s t : State} {n : Nat} (h : Performs ms s n t) {r : Request} {k : Nat}
    (phase : s.phase = .busy r k) (fault : s.fault = none) (left : (microSeq s.params r).drop k = ms) :
    ∃ es, t.trace = s.trace ++ es ∧ CutInSteps r ms s es := by
  induction h generalizing k with
  | nil s => exact ⟨[], by simp, fun j _ hj => absurd hj (Nat.not_lt_zero j)⟩
  | @again m ms s t n low _ ih =>
    obtain ⟨_, -, -, hphase, hfault, hparams, -⟩ := s.perform_spec m.op
    obtain ⟨es, trace, cut⟩ := ih (hphase.trans phase) (hfault.trans fault) (by rw [hparams, left])
    exact ⟨_, by rw [trace, s.perform_trace, List.append_assoc]; rfl, cut.again phase fault left low⟩
  | @once m ms s t n done _ ih =>
    obtain ⟨_, -, -, -, hfault, hparams, -⟩ := s.perform_spec m.op
    have left' : (microSeq (doMicro s m).params r).drop (k + 1) = ms := by
      have kept : (doMicro s m).params = s.params := hparams
      rw [kept, ← List.tail_drop, left]; rfl
    obtain ⟨es, trace, cut⟩ := ih (k := k + 1) (by simp [doMicro, phase, Phase.advance]) (hfault.trans fault) left'
    have inSeq : m ∈ microSeq s.params r := List.mem_of_mem_drop (i := k) (by rw [left]; exact List.mem_cons_self)
    exact ⟨_, by rw [trace, (doMicro_follows s m).trace, List.append_assoc]; rfl,
      cut.once (microSeq_samplesSclOnlyInPolls s.params r m inSeq) done⟩

/-- A reset makes no bus condition (R222). -/
theorem busConditions_reset (p : Params) (l : Lines) (es : List Event) :
    busConditions p l (es ++ [.reset]) = busConditions p l es := by
  simp [busConditions_append, busConditions, conditionOf]

/-- A reset after any of a request's micro-operations and polls ends it there (R220 to R222). -/
theorem request_cut {r : Request} {j : Nat} {rest stretches : List Nat} {levels : List Bit} {s : State}
    (ready : s.Ready) (resets : s.env.resets = j :: rest) (answers : s.Answers r stretches levels) {es : List Event}
    (hes : es = withSclPolls stretches (requestEvents s.params r levels)) (hj : j < es.length) :
    ∃ v, Follows s v (.req (specWord r) :: es.take j) ∧ v.env.resets = 0 :: rest ∧
      ∃ u, exec r.toInstr s = .next u ∧
        core.run ((es.take j).count (.sample .scl false)) u = .next v.hardwareReset := by
  obtain ⟨hn, hv, given⟩ := answers
  obtain ⟨w, does, -⟩ := microSeq_does hn hv s.lines s.work
  obtain ⟨t, performs, adv⟩ := seqEffect_sound (s := s.accept r) does.effect given
  obtain ⟨es', trace, cut⟩ := performs.cut (r := r) (k := 0) rfl ready.2 rfl
  obtain rfl : es' = es := List.append_cancel_left (trace.symm.trans (hes ▸ adv.trace))
  obtain ⟨v, follows, hv, u, run, later⟩ := cut j rest hj
  rw [State.resetIn_of_resets (s := s.accept r) resets] at run
  have accepted : Follows s (s.accept r) [.req (specWord r)] :=
    ⟨by rw [State.accept_trace, requestWord_eq_specWord], rfl, rfl, rfl⟩
  refine ⟨v, accepted.trans follows, hv, u, ?_, later⟩
  have paused : runRequest r s = .paused u := run
  rw [exec_request_ready r ready, paused]
  rfl

end Sys2Proof.Machine
end

section
/-! PROOFS. A reset inside any step (R220, R221): the pieces a step is made of, from the micro-operation to the bridge and
the header of a host command, each with what a reset to come leaves of its events. -/

namespace Sys2Proof.Machine

/-! A piece of work with a reset to come (R220; log entry 28). -/

/-- With a reset to come before one of its events, `f` stops in that reset: what it did from `s` is what the undisturbed
`f` did of its events `es` up to there. -/
def CutsIn {α : Type} (stop : State → α) (f : State → α) (s : State) (es : List Event) : Prop :=
  ∀ j rest, j < es.countP Event.atBoundary → ∃ v, Follows s v (beforeBoundary j es) ∧ v.env.resets = 0 :: rest ∧
    f (s.resetIn j rest) = stop v.hardwareReset

theorem cutsIn_nil {α : Type} (stop f : State → α) (s : State) : CutsIn stop f s [] :=
  fun j _ hj => absurd hj (Nat.not_lt_zero j)

/-- What leads to a stop of `f` makes `g` stop there, too. -/
theorem CutsIn.lift {α β : Type} {stop : State → α} {stop' : State → β} {f : State → α} {g : State → β} {s : State}
    {es : List Event} (h : CutsIn stop f s es)
    (stops : ∀ j rest v, f (s.resetIn j rest) = stop v → g (s.resetIn j rest) = stop' v) : CutsIn stop' g s es :=
  fun j rest hj =>
    let ⟨v, follows, resets, stopped⟩ := h j rest hj
    ⟨v, follows, resets, stops j rest _ stopped⟩

/-- A boundary, the event after it, and the rest of the work. -/
theorem CutsIn.boundary {α : Type} {stop f g : State → α} {s t : State} {e : Event} {es : List Event}
    (due : ∀ rest, f (s.resetIn 0 rest) = stop (s.resetIn 0 rest).hardwareReset)
    (later : ∀ j rest, f (s.resetIn (j + 1) rest) = g (t.resetIn j rest)) (first : Follows s t [e])
    (he : e.atBoundary = true) (h : CutsIn stop g t es) : CutsIn stop f s (e :: es) := by
  intro j rest hj
  cases j with
  | zero =>
    refine ⟨s.resetIn 0 rest, ?_, rfl, due rest⟩
    simpa [beforeBoundary, he] using Follows.resetIn s 0 rest
  | succ j =>
    obtain ⟨v, follows, resets, stops⟩ := h j rest (by simpa [he] using hj)
    refine ⟨v, ?_, resets, (later j rest).trans stops⟩
    simpa [beforeBoundary, he] using first.trans follows

/-- A piece of a bridge's run from `s`, undisturbed, has the events `es`; a reset to come cuts them, or comes after them
and leaves a finished piece as it is. -/
structure Cuttable (f : State → Run) (s : State) (es : List Event) : Prop where
  follows : Follows s (f s).state es
  undisturbed : (f s).state.Undisturbed
  cuts : CutsIn .paused f s es
  goesOn : ∀ u, f s = .finished u → ∀ j rest, es.countP Event.atBoundary ≤ j →
    f (s.resetIn j rest) = .finished (u.resetIn (j - es.countP Event.atBoundary) rest)

/-- A piece that waits without an event. -/
theorem Cuttable.of_paused {f : State → Run} {s u : State} (waits : f s = .paused u) (follows : Follows s u [])
    (undisturbed : u.Undisturbed) : Cuttable f s [] where
  follows := by rw [waits]; exact follows
  undisturbed := by rw [waits]; exact undisturbed
  cuts := cutsIn_nil _ f s
  goesOn := fun _ finished => by rw [waits] at finished; cases finished

/-- A piece that is done, whatever reset is to come. -/
theorem Cuttable.of_finished {f : State → Run} {s u : State} (done : f s = .finished u)
    (always : ∀ j rest, f (s.resetIn j rest) = .finished (u.resetIn j rest)) {es : List Event}
    (follows : Follows s u es) (undisturbed : u.Undisturbed) (silent : es.countP Event.atBoundary = 0) :
    Cuttable f s es where
  follows := by rw [done]; exact follows
  undisturbed := by rw [done]; exact undisturbed
  cuts := fun j _ hj => absurd (silent ▸ hj) (Nat.not_lt_zero j)
  goesOn := fun u' finished j rest _ => by
    obtain rfl : u = u' := Run.finished.inj (done.symm.trans finished)
    rw [silent]
    exact always j rest

/-- A boundary, the event after it, and the rest of the piece. -/
theorem Cuttable.boundary {f g : State → Run} {s t : State} {e : Event} {es : List Event}
    (due : ∀ rest, f (s.resetIn 0 rest) = .paused (s.resetIn 0 rest).hardwareReset) (now : f s = g t)
    (later : ∀ j rest, f (s.resetIn (j + 1) rest) = g (t.resetIn j rest)) (first : Follows s t [e])
    (he : e.atBoundary = true) (h : Cuttable g t es) : Cuttable f s (e :: es) where
  follows := by rw [now]; exact first.trans h.follows
  undisturbed := by rw [now]; exact h.undisturbed
  cuts := h.cuts.boundary due later first he
  goesOn := fun u finished j rest hj => by
    have count : (e :: es).countP Event.atBoundary = es.countP Event.atBoundary + 1 := by simp [he]
    rw [count] at hj ⊢
    cases j with
    | zero => exact absurd hj (Nat.not_succ_le_zero _)
    | succ j =>
      rw [later, h.goesOn u (now.symm.trans finished) j rest (Nat.le_of_succ_le_succ hj), Nat.add_sub_add_right]

/-! The pieces: micro-operations, requests, bridge steps. -/

theorem State.perform_undisturbed {s : State} (undisturbed : s.Undisturbed) (o : MicroOp) :
    (s.perform o).Undisturbed := (s.perform_resets o).trans undisturbed

/-- One micro-operation, when the rest of the request can be cut: the first event is that of the micro-operation. -/
theorem runMicros_cons_cuttable {r : Request} {ms : List Micro}
    (tail : ∀ t : State, t.Undisturbed → ∃ es, Cuttable (runMicros r ms) t es) (m : Micro) {s : State}
    (undisturbed : s.Undisturbed) : ∃ es, Cuttable (runMicros r (m :: ms)) s (m.op.event s :: es) := by
  have now := runMicros_undisturbed r m ms undisturbed
  have later := runMicros_resetIn_succ r m ms s
  obtain ⟨boundary, -⟩ := MicroOp.event_kind s m.op
  cases again : m.op.repeats (s.perform m.op) with
  | true =>
    simp only [again, if_true] at now later
    exact ⟨[], .boundary (fun _ => runMicros_due r m ms rfl) now later (s.perform_follows m.op) boundary
      (.of_paused rfl (.refl _) (s.perform_undisturbed undisturbed m.op))⟩
  | false =>
    simp only [again, Bool.false_eq_true, if_false] at now later
    obtain ⟨es, cuttable⟩ := tail (doMicro s m) (s.perform_undisturbed undisturbed m.op)
    exact ⟨es, .boundary (fun _ => runMicros_due r m ms rfl) now later (doMicro_follows s m) boundary cuttable⟩

theorem runMicros_cuttable (r : Request) (ms : List Micro) (s : State) (undisturbed : s.Undisturbed) :
    ∃ es, Cuttable (runMicros r ms) s es := by
  induction ms generalizing s with
  | nil =>
    have completed : Follows s (s.complete r) [.resp (response r s.work)] := ⟨rfl, rfl, rfl, rfl⟩
    exact ⟨_, .of_finished (runMicros_nil r s) (fun _ _ => rfl) completed undisturbed rfl⟩
  | cons m ms ih =>
    obtain ⟨es, cuttable⟩ := runMicros_cons_cuttable ih m undisturbed
    exact ⟨_, cuttable⟩

/-- The events of a bridge step, and those of a bridge, are none or begin with one that has a boundary before it. -/
abbrev BeginsAtBoundary (es : List Event) : Prop := ∀ e ∈ es.head?, e.atBoundary = true

theorem BeginsAtBoundary.nil : BeginsAtBoundary [] := fun _ h => nomatch h

theorem BeginsAtBoundary.cons {e : Event} (he : e.atBoundary = true) (es : List Event) : BeginsAtBoundary (e :: es) :=
  fun _ h => Option.some.inj h ▸ he

/-- A reset due at once leaves nothing of such events. -/
theorem BeginsAtBoundary.beforeBoundary_zero {es : List Event} (h : BeginsAtBoundary es) :
    beforeBoundary 0 es = [] := by
  cases es with
  | nil => rfl
  | cons e es => rw [beforeBoundary, if_pos (h e rfl)]

theorem BeginsAtBoundary.append {es es' : List Event} (h : BeginsAtBoundary es) (h' : BeginsAtBoundary es') :
    BeginsAtBoundary (es ++ es') := by
  cases es with
  | nil => exact h'
  | cons e es => exact h

/-- A piece of a bridge's run whose events begin at a boundary. -/
def StepCuttable (f : State → Run) (s : State) : Prop := ∃ es, Cuttable f s es ∧ BeginsAtBoundary es

/-- A caller step with an event, and what is then left of its work. -/
theorem callerStep_cuttable {work g : State → Run} {s t : State} {e : Event} {es : List Event}
    (undisturbed : s.Undisturbed) (now : work s = g t)
    (later : ∀ j rest, work (s.resetIn (j + 1) rest) = g (t.resetIn j rest)) (first : Follows s t [e])
    (he : e.atBoundary = true) (h : Cuttable g t es) : StepCuttable (fun x => callerStep x (work x)) s := by
  have due : s.resetDue = false := State.resetDue_of_nil undisturbed
  refine ⟨e :: es, .boundary (fun rest => if_pos rfl) ?_ (fun j rest => ?_) first he h, .cons he es⟩
  · rw [callerStep_of_not_due _ due, now]
  · rw [callerStep_of_not_due _ (s.resetIn_succ_due j rest), later]

/-- A caller step that is its event and nothing more. -/
theorem callerStep_cuttable_single {work : State → Run} {s t : State} {e : Event} (undisturbed : s.Undisturbed)
    (now : work s = .finished t) (later : ∀ j rest, work (s.resetIn (j + 1) rest) = .finished (t.resetIn j rest))
    (first : Follows s t [e]) (he : e.atBoundary = true) (quiet : t.Undisturbed) :
    StepCuttable (fun x => callerStep x (work x)) s :=
  callerStep_cuttable undisturbed now later first he (.of_finished rfl (fun _ _ => rfl) (.refl t) quiet rfl)

/-- A caller step that waits has no event. -/
theorem callerStep_cuttable_waits {work : State → Run} {s t : State} (undisturbed : s.Undisturbed)
    (now : work s = .paused t) (follows : Follows s t []) (quiet : t.Undisturbed) :
    StepCuttable (fun x => callerStep x (work x)) s :=
  ⟨[], .of_paused ((callerStep_of_not_due _ (State.resetDue_of_nil undisturbed)).trans now) follows quiet, .nil⟩

/-- A request of the caller. -/
theorem requestStep_cuttable (asked : Caller → Request) (rest : List BridgeOp) {s : State}
    (undisturbed : s.Undisturbed) :
    StepCuttable (fun x => callerStep x (runRequest (asked x.caller) (x.countdown.setBridge rest))) s := by
  obtain ⟨es, micros⟩ := runMicros_cuttable (asked s.caller) (microSeq s.params (asked s.caller))
    ((s.setBridge rest).accept (asked s.caller)) undisturbed
  have accepted : Follows s ((s.setBridge rest).accept (asked s.caller)) [.req (requestWord (asked s.caller))] :=
    ⟨rfl, rfl, rfl, rfl⟩
  refine callerStep_cuttable undisturbed ?_ (fun _ _ => rfl) accepted rfl micros
  rw [State.countdown_of_nil undisturbed]
  rfl

/-- A byte to the host: it is sent, or the caller waits for the transmitter. -/
theorem hostWriteStep_cuttable (byte : Caller → Byte) (self : List BridgeOp) {s : State} (undisturbed : s.Undisturbed) :
    StepCuttable (fun x => callerStep x (hostWrite self (byte x.caller) x)) s := by
  have still : s.countdown = s := State.countdown_of_nil undisturbed
  have quiet : s.env.afterTx.resets = [] := by rw [Env.afterTx_resets, undisturbed]
  rcases hostWrite_cases self (byte s.caller) s with ⟨free, now⟩ | ⟨-, now⟩ <;> rw [still] at now
  · rw [still] at free
    have sent : Follows s ((s.setEnv s.env.afterTx).log (.hostOut (byte s.caller))) [.hostOut (byte s.caller)] :=
      ⟨rfl, rfl, rfl, s.env.afterTx_host⟩
    refine callerStep_cuttable_single undisturbed now (fun j rest => ?_) sent rfl quiet
    have free' : (s.resetIn j rest).env.txReady = true := free
    have polled : (s.resetIn j rest).setEnv (s.resetIn j rest).env.afterTx =
        (s.setEnv s.env.afterTx).resetIn j rest := by
      rw [State.resetIn, State.setEnv_env, Env.afterTx_withResets]; rfl
    simp only [hostWrite, State.resetIn_succ_countdown, free', polled, if_true]
    rfl
  · exact callerStep_cuttable_waits undisturbed now ⟨by simp, rfl, rfl, s.env.afterTx_host⟩ quiet

theorem bridgeStep_cuttable (o : BridgeOp) (rest : List BridgeOp) {s : State} (undisturbed : s.Undisturbed) :
    StepCuttable (bridgeStep o rest) s := by
  have still : s.countdown = s := State.countdown_of_nil undisturbed
  cases o with
  | request r => exact requestStep_cuttable (fun _ => r) rest undisturbed
  | capture =>
    have captured : Follows s s.capture [] := ⟨by simp, rfl, rfl, rfl⟩
    have done : ∀ x, bridgeStep .capture rest x = .finished x.capture := fun _ => rfl
    exact ⟨[], .of_finished (done s) (fun _ _ => done _) captured undisturbed rfl, .nil⟩
  | hostRead =>
    cases come : s.env.host with
    | nil =>
      refine callerStep_cuttable_waits undisturbed (t := s.setBridge (.hostRead :: rest)) ?_ ⟨by simp, rfl, rfl, rfl⟩
        undisturbed
      simp only [come, still]
    | cons b bs =>
      have taken : Follows s ((s.takeHost b bs).setP b) [.hostIn b] := ⟨rfl, rfl, rfl, by rw [come]; rfl⟩
      refine callerStep_cuttable_single undisturbed ?_ (fun j rest => ?_) taken rfl undisturbed
      · simp only [come, still]
      · simp only [State.resetIn_host, come]; rfl
  | i2cWriteP => exact requestStep_cuttable (fun c => .i2cWrite c.p) rest undisturbed
  | spiWriteP => exact requestStep_cuttable (fun c => .spiWrite c.p) rest undisturbed
  | hostWriteV => exact hostWriteStep_cuttable (fun c => c.v) (.hostWriteV :: rest) undisturbed
  | hostWriteByte b => exact hostWriteStep_cuttable (fun _ => b) (.hostWriteByte b :: rest) undisturbed
  | settle =>
    refine callerStep_cuttable_single undisturbed (t := s.log (.delay .settle)) ?_ (fun _ _ => rfl)
      ⟨rfl, rfl, rfl, rfl⟩ rfl undisturbed
    rw [still]
  | pollUntilReady =>
    cases isReady : statusReady s.params s.caller.v with
    | true =>
      have done : ∀ x : State, x.params = s.params → x.caller = s.caller →
          bridgeStep .pollUntilReady rest x = .finished x := fun x hp hc => by
        rw [bridgeStep, hp, hc, isReady, if_pos rfl]
      exact ⟨[], .of_finished (done s rfl rfl) (fun _ _ => done _ rfl rfl) (.refl s) undisturbed rfl, .nil⟩
    | false =>
      have again : Follows s (s.setBridge (pollPass s.params ++ rest)) [] := ⟨by simp, rfl, rfl, rfl⟩
      refine ⟨[], .of_paused ?_ again undisturbed, .nil⟩
      rw [bridgeStep, isReady, if_neg Bool.false_ne_true]

/-- A piece of work and, when it is finished, what comes after it. -/
def Run.thenDo (r : Run) (next : State → State) : State :=
  match r with
  | .finished t => next t
  | .paused t => t

theorem runBridge_cons_thenDo (o : BridgeOp) (rest : List BridgeOp) (s : State) :
    runBridge (o :: rest) s = (bridgeStep o rest s).thenDo (runBridge rest) := by
  rw [runBridge_cons]; cases bridgeStep o rest s <;> rfl

theorem afterResume_thenDo (r : Run) : afterResume r = r.thenDo fun t => runBridge t.caller.bridge t := by
  cases r <;> rfl

/-- Work of the caller, until it is done or waits, whose events a reset to come cuts. -/
def WorkCuttable (f : State → State) (s : State) : Prop :=
  ∃ es, Follows s (f s) es ∧ BeginsAtBoundary es ∧ CutsIn id f s es

/-- A piece and what comes after it: the reset comes in the piece, or after it. -/
theorem StepCuttable.thenDo {f : State → Run} {next : State → State} {s : State} (h : StepCuttable f s)
    (later : ∀ t : State, t.Undisturbed → WorkCuttable next t) : WorkCuttable (fun x => (f x).thenDo next) s := by
  obtain ⟨es, ⟨follows, quiet, cuts, goesOn⟩, begins⟩ := h
  cases run : f s with
  | paused t =>
    refine ⟨es, ?_, begins, cuts.lift fun j rest v paused => by simp only [paused]; rfl⟩
    simp only [run] at follows ⊢
    exact follows
  | finished t =>
    simp only [run] at follows quiet
    obtain ⟨es', follows', begins', cuts'⟩ := later t quiet
    refine ⟨es ++ es', ?_, begins.append begins', fun j rest hj => ?_⟩
    · simp only [run]
      exact follows.trans follows'
    · rcases Nat.lt_or_ge j (es.countP Event.atBoundary) with within | after
      · obtain ⟨v, cut, resets, paused⟩ := cuts j rest within
        refine ⟨v, ?_, resets, by simp only [paused]; rfl⟩
        rw [beforeBoundary_append_lt es' within]
        exact cut
      · obtain ⟨v, cut, resets, stopped⟩ := cuts' (j - es.countP Event.atBoundary) rest
          (by rw [List.countP_append] at hj; omega)
        refine ⟨v, ?_, resets, by simp only [goesOn t run j rest after]; exact stopped⟩
        rw [beforeBoundary_append_ge es' after]
        exact follows.trans cut

/-- A bridge, run until it is done or waits. -/
theorem runBridge_cuttable (ops : List BridgeOp) {s : State} (undisturbed : s.Undisturbed) :
    WorkCuttable (runBridge ops) s := by
  induction ops generalizing s with
  | nil => exact ⟨[], ⟨by simp, rfl, rfl, rfl⟩, .nil, cutsIn_nil _ _ s⟩
  | cons o rest ih =>
    rw [funext (runBridge_cons_thenDo o rest)]
    exact (bridgeStep_cuttable o rest undisturbed).thenDo fun _ => ih

/-- The rest of a request in progress, and then that of its bridge. -/
theorem afterResume_cuttable (r : Request) (m : Micro) (ms : List Micro) {s : State} (undisturbed : s.Undisturbed) :
    WorkCuttable (fun x => afterResume (runMicros r (m :: ms) x)) s := by
  obtain ⟨es, cuttable⟩ := runMicros_cons_cuttable (runMicros_cuttable r ms) m undisturbed
  obtain ⟨boundary, -⟩ := MicroOp.event_kind s m.op
  simp only [afterResume_thenDo]
  exact StepCuttable.thenDo ⟨_, cuttable, .cons boundary es⟩ fun t => runBridge_cuttable t.caller.bridge

/-! What the caller does next, with a reset to come (R174; log entries 19, 28). -/

/-- Is the instruction one of the four host commands, whose meaning is a bridge (R78, R79)? -/
def runsBridge : Instr → Bool
  | .hostI2cRead .. => true
  | .hostI2cWrite .. => true
  | .hostSpiRead .. => true
  | .hostSpiWrite .. => true
  | _ => false

theorem decodeHost_runsBridge {bs : List Byte} {i : Instr} (h : decodeHost bs = .ok i) : runsBridge i = true := by
  have i2c : ∀ bs, decodeI2cCommand bs = .ok i → runsBridge i = true := fun bs h => by
    unfold decodeI2cCommand at h
    split at h
    · cases h
    · split_ifs at h
      · split at h <;> cases h; rfl
      · split at h <;> cases h; rfl
  have spi : ∀ bs, decodeSpiCommand bs = .ok i → runsBridge i = true := fun bs h => by
    unfold decodeSpiCommand at h
    split at h
    · cases h
    · split_ifs at h
      · split at h <;> cases h; rfl
      · split at h <;> cases h; rfl
  unfold decodeHost at h
  split at h
  · cases h
  · split_ifs at h
    · exact i2c _ h
    · exact spi _ h

theorem headerDone_ready {hdr : List Byte} {n : Byte} {i : Instr} (h : headerDone hdr n = .ready i) :
    decodeHost hdr = .ok i := by
  unfold headerDone at h
  split at h
  · split at h
    · next i' decoded => cases h; exact decoded
    · cases h
  · cases h

/-- A whole header is one that decodes to its command. -/
theorem headerStatus_ready {p : Params} {hdr : List Byte} {i : Instr} (h : headerStatus p hdr = .ready i) :
    decodeHost hdr = .ok i := by
  have operation : ∀ o, headerOperation o ≠ .ready i := fun o => by unfold headerOperation; split <;> nofun
  have alen : ∀ a, headerAlen p a ≠ .ready i := fun a => by unfold headerAlen; split <;> nofun
  unfold headerStatus at h
  split at h
  · cases h
  · split_ifs at h
    · unfold headerI2c at h
      split at h
      case h_2 => exact absurd h (operation _)
      case h_3 => exact absurd h (alen _)
      case h_7 => exact headerDone_ready h
      all_goals cases h
    · unfold headerSpi at h
      split at h
      case h_2 => exact absurd h (operation _)
      case h_5 => exact headerDone_ready h
      all_goals cases h

/-- A request word decodes to a request (R71, R72). -/
theorem decodeRequest_toInstr {w : Word16} {i : Instr} (h : decodeRequest w = .ok i) :
    ∃ r : Request, i = r.toInstr := by
  have code := encode_of_decodeRequest h
  cases i with
  | i2cStart => exact ⟨.i2cStart, rfl⟩
  | i2cStop => exact ⟨.i2cStop, rfl⟩
  | i2cWrite b => exact ⟨.i2cWrite b, rfl⟩
  | i2cRead a => exact ⟨.i2cRead a, rfl⟩
  | spiCsa => exact ⟨.spiCsa, rfl⟩
  | spiCsd => exact ⟨.spiCsd, rfl⟩
  | spiWrite b => exact ⟨.spiWrite b, rfl⟩
  | spiRead => exact ⟨.spiRead, rfl⟩
  | _ => cases code

/-- A host command that is run is its bridge, whatever reset is to come. -/
theorem exec_runsBridge {i : Instr} {s u : State} (host : runsBridge i = true) (h : exec i s = .next u) :
    ∃ ops, u = runBridge ops s ∧ ∀ j rest, exec i (s.resetIn j rest) = .next (runBridge ops (s.resetIn j rest)) := by
  cases i with
  | hostI2cRead alen d ah al n =>
    obtain ⟨k, hk, h⟩ := withAddressLength_next h
    obtain ⟨hn, h⟩ := withLength_next h
    obtain ⟨fault, phase, free, hu⟩ := startBridge_next h
    exact ⟨_, hu, fun j rest =>
      exec_hostI2cRead (s := s.resetIn j rest) ⟨phase, fault⟩ free hk (of_decide_eq_true hn) d ah al⟩
  | hostI2cWrite alen d ah al n =>
    obtain ⟨k, hk, h⟩ := withAddressLength_next h
    obtain ⟨hn, h⟩ := withLength_next h
    obtain ⟨fault, phase, free, hu⟩ := startBridge_next h
    exact ⟨_, hu, fun j rest =>
      exec_hostI2cWrite (s := s.resetIn j rest) ⟨phase, fault⟩ free hk (of_decide_eq_true hn) d ah al⟩
  | hostSpiRead ah al n =>
    obtain ⟨hn, h⟩ := withLength_next h
    obtain ⟨fault, phase, free, hu⟩ := startBridge_next h
    exact ⟨_, hu, fun j rest =>
      exec_hostSpiRead (s := s.resetIn j rest) ⟨phase, fault⟩ free (of_decide_eq_true hn) ah al⟩
  | hostSpiWrite ah al n =>
    obtain ⟨hn, h⟩ := withLength_next h
    obtain ⟨fault, phase, free, hu⟩ := startBridge_next h
    exact ⟨_, hu, fun j rest =>
      exec_hostSpiWrite (s := s.resetIn j rest) ⟨phase, fault⟩ free (of_decide_eq_true hn) ah al⟩
  | _ => cases host

/-- What is done once a header byte was read, by what the header then amounts to. -/
def afterHeaderByte (bs : List Byte) (s : State) : Header → Fetched
  | .more => readHeader bs s
  | .refuse r => .refuse r
  | .ready i => .run i (s.setHdr [])

/-- One byte of a header, when no reset is due before it. -/
theorem readHeader_cons_of_not_due {s : State} (due : s.resetDue = false) (b : Byte) (bs : List Byte) :
    readHeader (b :: bs) s =
      afterHeaderByte bs (s.countdown.readBytes [b] bs) (headerStatus s.params (s.caller.hdr ++ [b])) := by
  rw [readHeader, due]
  cases h : headerStatus s.params (s.caller.hdr ++ [b]) <;> simp [h] <;> rfl

theorem readHeader_cons_due {s : State} (due : s.resetDue = true) (b : Byte) (bs : List Byte) :
    readHeader (b :: bs) s = .stay s.hardwareReset := by
  rw [readHeader, if_pos due]

/-- Work that ends in an outcome: when that is a next state, a reset to come cuts its events. -/
def MoveCuttable (f : State → Host.Outcome State Fault Refusal) (s u : State) : Prop :=
  ∃ es, Follows s u es ∧ BeginsAtBoundary es ∧ CutsIn .next f s es

theorem WorkCuttable.move {f : State → State} {g : State → Host.Outcome State Fault Refusal} {s u : State}
    (h : WorkCuttable f s) (hu : u = f s) (next : ∀ j rest, g (s.resetIn j rest) = .next (f (s.resetIn j rest))) :
    MoveCuttable g s u := by
  obtain ⟨es, follows, begins, cuts⟩ := h
  exact ⟨es, hu ▸ follows, begins, cuts.lift fun j rest v stopped => (next j rest).trans (congrArg _ stopped)⟩

/-- Reading a header, and running the command it is. -/
theorem readHeader_cuttable (bs : List Byte) {s u : State} (undisturbed : s.Undisturbed) (come : s.env.host = bs)
    (run : stepFetched (readHeader bs s) = .next u) :
    MoveCuttable (fun x => stepFetched (readHeader bs x)) s u := by
  induction bs generalizing s with
  | nil =>
    have still : readHeader [] s = .stay s := congrArg Fetched.stay (State.countdown_of_nil undisturbed)
    rw [still] at run
    cases run
    exact ⟨[], .refl _, .nil, cutsIn_nil _ _ _⟩
  | cons b bs ih =>
    have byte : ∀ {g : State → Host.Outcome State Fault Refusal} {t : State}, Follows s t [.hostIn b] →
        (∀ j rest, stepFetched (readHeader (b :: bs) (s.resetIn (j + 1) rest)) = g (t.resetIn j rest)) →
        MoveCuttable g t u → MoveCuttable (fun x => stepFetched (readHeader (b :: bs) x)) s u :=
      fun taken later ⟨es, follows, begins, cuts⟩ =>
        ⟨.hostIn b :: es, taken.trans follows, .cons rfl es,
          cuts.boundary (fun rest => by rw [readHeader_cons_due rfl]; rfl) later taken rfl⟩
    have taken : Follows s (s.readBytes [b] bs) [.hostIn b] := ⟨rfl, rfl, rfl, by rw [come]; rfl⟩
    have taken' : Follows s ((s.readBytes [b] bs).setHdr []) [.hostIn b] := ⟨rfl, rfl, rfl, by rw [come]; rfl⟩
    rw [readHeader_cons_of_not_due (State.resetDue_of_nil undisturbed), State.countdown_of_nil undisturbed] at run
    cases status : headerStatus s.params (s.caller.hdr ++ [b]) with
    | more =>
      rw [status] at run
      refine byte taken (fun j rest => ?_) (ih (s := s.readBytes [b] bs) undisturbed rfl run)
      rw [readHeader_cons_of_not_due (s.resetIn_succ_due j rest), s.resetIn_succ_countdown, State.resetIn_params,
        State.resetIn_caller, status]
      rfl
    | refuse r => rw [status] at run; cases run
    | ready i =>
      rw [status] at run
      obtain ⟨ops, hu, always⟩ := exec_runsBridge (decodeHost_runsBridge (headerStatus_ready status)) run
      have bridge := runBridge_cuttable ops (s := (s.readBytes [b] bs).setHdr []) undisturbed
      refine byte taken' (fun j rest => ?_) (bridge.move hu always)
      rw [readHeader_cons_of_not_due (s.resetIn_succ_due j rest), s.resetIn_succ_countdown, State.resetIn_params,
        State.resetIn_caller, status]
      rfl

/-! A step with a reset to come (R220). -/

/-- The step from `s`, undisturbed, leads to `u`; a reset to come after the first boundary cuts its events, the head of
the queue having been taken or not. -/
def StepCut (s u : State) : Prop :=
  ∃ q es, Follows (s.setQueue q) u es ∧ BeginsAtBoundary es ∧ ∀ j rest, j + 1 < es.countP Event.atBoundary →
    ∃ v, Follows (s.setQueue q) v (beforeBoundary (j + 1) es) ∧ v.env.resets = 0 :: rest ∧
      step (s.resetIn (j + 1) rest) = .next v.hardwareReset

theorem MoveCuttable.stepCut {f : State → Host.Outcome State Fault Refusal} {s u : State} {q : List CallerStep}
    (h : MoveCuttable f (s.setQueue q) u)
    (moves : ∀ j rest, step (s.resetIn (j + 1) rest) = f ((s.setQueue q).resetIn (j + 1) rest)) : StepCut s u :=
  let ⟨es, follows, begins, cuts⟩ := h
  ⟨q, es, follows, begins, fun j rest hj =>
    let ⟨v, cut, resets, stopped⟩ := cuts (j + 1) rest hj
    ⟨v, cut, resets, (moves j rest).trans stopped⟩⟩

/-- A step that does not touch the queue. -/
theorem WorkCuttable.stepCut {f : State → State} {s : State} (h : WorkCuttable f s)
    (moves : ∀ j rest, step (s.resetIn (j + 1) rest) = .next (f (s.resetIn (j + 1) rest))) : StepCut s (f s) :=
  (h.move rfl (g := fun x => .next (f x)) fun _ _ => rfl).stepCut (q := s.caller.queue) moves

/-- A step whose only boundary, if any, is the one before it. -/
theorem stepCut_of_short {s u : State} {q : List CallerStep} {es : List Event} (follows : Follows (s.setQueue q) u es)
    (begins : BeginsAtBoundary es) (short : es.length ≤ 1) : StepCut s u :=
  ⟨q, es, follows, begins, fun j _ hj => by
    have := es.countP_le_length (p := Event.atBoundary)
    omega⟩

/-- What the caller's next move is depends on the caller and the host's bytes alone. -/
theorem fetch_cases_alike (s : State) :
    (∃ w q, ∀ t : State, t.caller = s.caller → t.env.host = s.env.host → fetch t = fetchRequest w (t.setQueue q)) ∨
    (∀ t : State, t.caller = s.caller → t.env.host = s.env.host → fetch t = .stay t.countdown) ∨
    ∃ q, ∀ t : State, t.caller = s.caller → t.env.host = s.env.host →
      fetch t = readHeader t.env.host (t.setQueue q) := by
  cases hdr : s.caller.hdr with
  | cons b bs =>
    exact .inr (.inr ⟨s.caller.queue, fun t hc _ => fetch_header (.inl ⟨by simp [hc, hdr], by rw [hc]⟩)⟩)
  | nil =>
    cases queue : s.caller.queue with
    | nil => exact .inr (.inr ⟨[], fun t hc _ => fetch_header (.inr ⟨by rw [hc, hdr], .inl ⟨by rw [hc, queue], rfl⟩⟩)⟩)
    | cons c q =>
      cases c with
      | issue w => exact .inl ⟨w, q, fun t hc _ => fetch_issue (by rw [hc, hdr]) (by rw [hc, queue])⟩
      | serve =>
        cases come : s.env.host with
        | nil => exact .inr (.inl fun t hc hh => by simp only [fetch, hc, hdr, queue, hh])
        | cons b bs =>
          exact .inr (.inr ⟨q, fun t hc hh =>
            fetch_header (.inr ⟨by rw [hc, hdr], .inr ⟨by rw [hh]; exact List.cons_ne_nil b bs, by rw [hc, queue]⟩⟩)⟩)

/-- A request word that is run: the boundary before its acceptance has passed. -/
theorem exec_toInstr_stepCut {s u : State} {q : List CallerStep} {r : Request} (undisturbed : s.Undisturbed)
    (run : exec r.toInstr (s.setQueue q) = .next u)
    (moves : ∀ j rest, step (s.resetIn (j + 1) rest) = exec r.toInstr ((s.setQueue q).resetIn j rest)) :
    StepCut s u := by
  obtain ⟨fault, phase, -, rfl⟩ := whenAccepting_next ((exec_request r _).symm.trans run)
  obtain ⟨es, micros⟩ := runMicros_cuttable r (microSeq s.params r) ((s.setQueue q).accept r) undisturbed
  have accepted : Follows (s.setQueue q) ((s.setQueue q).accept r) [.req (requestWord r)] := ⟨rfl, rfl, rfl, rfl⟩
  refine ⟨q, .req (requestWord r) :: es, accepted.trans micros.follows, .cons rfl es, fun j rest hj => ?_⟩
  rw [List.countP_cons_of_pos rfl] at hj
  obtain ⟨v, cut, resets, paused⟩ := micros.cuts j rest (Nat.lt_of_succ_lt_succ hj)
  have paused : runRequest r ((s.setQueue q).resetIn j rest) = .paused v.hardwareReset := paused
  refine ⟨v, accepted.trans cut, resets, ?_⟩
  rw [moves, exec_request_ready r (s := (s.setQueue q).resetIn j rest) ⟨phase, fault⟩, paused]
  rfl

/-- A reset to come cuts every step of a block that is idle or waits for SCL. -/
theorem step_cut {s u : State} (undisturbed : s.Undisturbed) (waits : s.WaitsOnlyForScl) (h : step s = .next u) :
    StepCut s u := by
  have due : s.resetDue = false := State.resetDue_of_nil undisturbed
  have fault : s.fault = none := by
    cases hf : s.fault with
    | none => rfl
    | some f => rw [step_faulted_undisturbed hf undisturbed] at h; cases h
  cases phase : s.phase with
  | busy r k =>
    obtain ⟨-, poll⟩ := waits r k phase
    obtain ⟨inSeq, here⟩ := List.getElem?_eq_some_iff.1 poll
    have left := List.drop_eq_getElem_cons inSeq
    rw [here] at left
    rw [step_resumes phase fault undisturbed, left] at h
    cases h
    exact (afterResume_cuttable r _ _ undisturbed).stepCut fun j rest =>
      step_resumes_or_resets (s := s.resetIn (j + 1) rest) phase fault left
  | idle =>
    cases bridge : s.caller.bridge with
    | cons o rest =>
      rw [step_of_bridge ⟨phase, fault⟩ due bridge (List.cons_ne_nil o rest)] at h
      cases h
      exact (runBridge_cuttable (o :: rest) undisturbed).stepCut fun j more =>
        step_of_bridge (s := s.resetIn (j + 1) more) ⟨phase, fault⟩ rfl bridge (List.cons_ne_nil o rest)
    | nil =>
      rw [step_of_ready_free ⟨phase, fault⟩ bridge due] at h
      have later : ∀ j rest, step (s.resetIn (j + 1) rest) = stepFetched (fetch (s.resetIn (j + 1) rest)) :=
        fun j rest => step_of_ready_free (s := s.resetIn (j + 1) rest) ⟨phase, fault⟩ bridge rfl
      rcases fetch_cases_alike s with ⟨w, q, alike⟩ | alike | ⟨q, alike⟩ <;> rw [alike s rfl rfl] at h
      · rcases stepFetched_fetchRequest h with ⟨i, decoded, run⟩ | rfl
        · obtain ⟨r, rfl⟩ := decodeRequest_toInstr decoded
          rw [State.countdown_of_nil (s := s.setQueue q) undisturbed] at run
          refine exec_toInstr_stepCut undisturbed run fun j rest => ?_
          rw [later, alike (s.resetIn (j + 1) rest) rfl rfl, fetchRequest_legal _ decoded]
          rfl
        · exact stepCut_of_short (q := q) (es := [.fault (.illegalRequest w)]) ⟨rfl, rfl, rfl, rfl⟩ (.cons rfl [])
            (Nat.le_refl 1)
      · cases h
        rw [State.countdown_of_nil undisturbed]
        exact stepCut_of_short (q := s.caller.queue) (.refl s) .nil (Nat.zero_le 1)
      · exact (readHeader_cuttable s.env.host (s := s.setQueue q) undisturbed rfl h).stepCut fun j rest => by
          rw [later, alike (s.resetIn (j + 1) rest) rfl rfl]
          rfl

/-- Settles O52: for a request, with its polls over the steps they take; and for every step, which a reset due at once
replaces, and one due later cuts. -/
theorem resetCutsARequestAnywhere : Obligations.ResetCutsARequestAnywhere := by
  refine ⟨fun r j rest stretches levels s ready resets answers hj => ?_,
    fun j rest es s u waits resets undisturbedStep trace hj => ?_⟩
  · obtain ⟨v, follows, hv, u, hexec, run⟩ := request_cut ready resets answers rfl hj
    refine ⟨u, v.hardwareReset, _, hexec, run, follows.hardwareReset_trace, rfl, busConditions_reset .., rfl,
      rfl, rfl, follows.params, congrArg List.tail hv⟩
  · obtain ⟨q, es', follows, begins, cut⟩ :=
      step_cut (s := { s with env := { s.env with resets := [] } }) rfl waits undisturbedStep
    obtain rfl : es = es' := List.append_cancel_left (trace.symm.trans follows.trace)
    have disturbed := State.resetIn_of_resets resets
    cases j with
    | zero =>
      have nothing : beforeBoundary 0 es = [] := begins.beforeBoundary_zero
      refine ⟨s.hardwareReset, step_of_resetDue ?_, ?_, rfl, rfl, rfl, rfl, rfl, rfl, rfl, rfl, ?_,
        congrArg List.tail resets⟩
      · rw [← disturbed]; rfl
      · rw [nothing, List.append_nil]; rfl
      · rw [nothing]; rfl
    | succ j =>
      obtain ⟨v, follows', hv, hstep⟩ := cut j rest hj
      have same : step s = .next v.hardwareReset := by rw [← disturbed]; exact hstep
      exact ⟨_, same, follows'.hardwareReset_trace, rfl, rfl, rfl, follows'.params, rfl, rfl, rfl,
        follows'.queue.trans follows.queue.symm, follows'.host, congrArg List.tail hv⟩

end Sys2Proof.Machine
end
